-- ==== Sys2Proof/Word.lean ====
section
/-! DEFINITION. The words of the core, at the widths the spec gives them (00_scope.md R6, R11; 20_memory.md R70). -/

namespace Sys2Proof

/-- One byte of the bus, a buffer or a byte register. -/
abbrev Byte := BitVec 8

/-- One block: the 64-bit datapath state (R6 BLOCK_BITS, R39). Bit 0 is the least significant bit (R11). -/
abbrev Block := BitVec 64

/-- The 80-bit key material and the 80-bit key register (R6 KEY_BITS, R37, R38). -/
abbrev Key := BitVec 80

/-- A host address: 14 bits, one byte location each (R70). -/
abbrev Addr := BitVec 14

end Sys2Proof
end

