-- ==== Sys2Proof/Syntax.lean ====
section
/-! DEFINITION. The commands of the core (R102) and the notation the spec writes host programs in (R109, R110). -/

namespace Sys2Proof

/-- The eight commands of the opcode map (R102), one constructor per row of spec/opcode_table.json. A command has no
operand fields: every operand comes from a register or a buffer (R100, R104). -/
inductive Instr
  | nop
  | loadkey
  | encb
  | decb
  | ecbe
  | ecbd
  | pecbe
  | pecbd
  deriving DecidableEq, Repr

/-- The single-byte registers a host program names (R109). -/
inductive RegName
  | cmd
  | status
  | err
  | ctrl
  | keylen
  | keycfg
  deriving DecidableEq, Repr

/-- The multi-byte registers and windows a host program indexes (R109). -/
inductive ArrName
  | len
  | outLen
  | keyIn
  | blockIn
  | blockOut
  | inBuf
  | outBuf
  deriving DecidableEq, Repr

/-- `<loc>` of a host program statement (R109): a register, a byte of an array, or a 4-digit hexadecimal address. -/
inductive Loc
  | reg (r : RegName)
  | elem (a : ArrName) (i : Nat)
  | hex (a : Addr)
  deriving DecidableEq, Repr

/-- A host variable, `v` or `v[m]` (R109). -/
structure HostVar where
  name : String
  idx : Option Nat
  deriving DecidableEq, Repr

/-- `<byte>` of a WR statement: a hex literal or a host variable (R109), or a byte `v[lo+7:lo]` of a variable, which the
expansion of WR32 makes (R110). -/
inductive ByteSrc
  | lit (b : Byte)
  | var (v : HostVar)
  | slice (v : HostVar) (lo : Nat)
  deriving DecidableEq, Repr

/-- `<v>` of WR32 LEN (R110). The spec does not say whether it may be a host variable, as the `<v>` of RD32 is, or only a
literal: the model takes both (DESIGN CHOICE, log 23). -/
inductive WordSrc
  | lit (v : BitVec 32)
  | var (v : String)
  deriving DecidableEq, Repr

/-- A label of a host program: one the program names, or the one the `n`-th statement's WAIT makes for its loop (R110). -/
inductive Label
  | named (n : String)
  | wait (n : Nat)
  deriving DecidableEq, Repr

/-- The primitive statements of R109. `setBe v b n` is the host's own `v = be(b[0..n-1])`, which the expansion of RD32
ends with (R110). The spec states no bound for the `<bit>` of IF: the model takes any bit number, and a bit above the value
of the variable is 0 (DESIGN CHOICE, log 23). -/
inductive Prim
  | wr (l : Loc) (b : ByteSrc)
  | rd (l : Loc) (v : HostVar)
  | reset
  | label (l : Label)
  | ifGoto (v : HostVar) (bit : Nat) (value : Bool) (target : Label)
  | setBe (v b : String) (n : Nat)
  deriving DecidableEq, Repr

/-- The statements of a host program: the primitives of R109 and the pseudo-instructions of R110. -/
inductive Stmt
  | prim (p : Prim)
  /-- `CMD <mnemonic>` -/
  | cmd (i : Instr)
  /-- `WRS <loc>[t], h0 .. hk` -/
  | wrs (a : ArrName) (t : Nat) (bytes : List Byte)
  /-- `WRS <loc>[t], var[0..k]`, with `n = k + 1` -/
  | wrsVar (a : ArrName) (t : Nat) (v : String) (n : Nat)
  /-- `WR32 LEN, v` -/
  | wr32Len (v : WordSrc)
  /-- `RDS <loc>[t], n -> var` -/
  | rds (a : ArrName) (t n : Nat) (v : String)
  /-- `RD32 OUT_LEN -> v`, with `b` the host's name for the four bytes read -/
  | rd32OutLen (v b : String)
  | wait
  | ack
  deriving DecidableEq, Repr

end Sys2Proof
end

