-- ==== Sys2Proof/Decode.lean ====
section
/-! DEFINITION. The command decoder and encoder (30_encoding.md R100 to R103). A command is one byte, its opcode. -/

namespace Sys2Proof

/-- Why a byte is no command. -/
inductive DecodeError
  /-- 0x08 to 0xFF: reserved (R103). The core accepts the byte and completes with ILLEGAL_CMD (R195). -/
  | reservedOpcode (w : Byte)
  deriving DecidableEq, Repr

/-- The opcode map of R102 read from the table: total on bytes, refusing a reserved opcode by name (R103). -/
def decode (w : Byte) : Except DecodeError Instr :=
  match w.toNat with
  | 0x00 => .ok .nop
  | 0x01 => .ok .loadkey
  | 0x02 => .ok .encb
  | 0x03 => .ok .decb
  | 0x04 => .ok .ecbe
  | 0x05 => .ok .ecbd
  | 0x06 => .ok .pecbe
  | 0x07 => .ok .pecbd
  | _ => .error (.reservedOpcode w)

/-- The opcode of a command (R102). -/
def encode : Instr → Byte
  | .nop => 0x00
  | .loadkey => 0x01
  | .encb => 0x02
  | .decb => 0x03
  | .ecbe => 0x04
  | .ecbd => 0x05
  | .pecbe => 0x06
  | .pecbd => 0x07

/-- The command the decoder reads from a row of spec/opcode_table.json. Every row has 8 bits and every command is exactly
one byte (R101); a word of another length is no command. -/
def decodeTableWord (nbits w : Nat) : Option Instr :=
  if nbits = 8 then
    match decode (BitVec.ofNat 8 w) with
    | .ok i => some i
    | .error _ => none
  else none

end Sys2Proof
end

