-- ==== Sys2Proof/Machine/AddressMap.lean ====
section
/-! DEFINITION. The host address map (10_state.md R23, 20_memory.md R73, R82): what each of the 2^14 addresses names. -/

namespace Sys2Proof.Machine

/-- IN_BASE (R73). -/
def inBase : Nat := 0x1000

/-- OUT_BASE (R73). -/
def outBase : Nat := 0x2000

/-- What a host address names. -/
inductive Location
  | cmd
  | status
  | err
  | ctrl
  | keylen
  | keycfg
  | len (k : Fin 4)
  | outLen (k : Fin 4)
  | keyIn (t : Fin 16)
  | blockIn (t : Fin 8)
  | blockOut (t : Fin 8)
  /-- offset `i` of the IN_BUF window, whatever BUF_BYTES is -/
  | inBuf (i : Fin 4096)
  /-- offset `i` of the OUT_BUF window, whatever BUF_BYTES is -/
  | outBuf (i : Fin 4096)
  | reserved
  deriving DecidableEq, Repr

/-- The location at host address `n` (R82). -/
def locateNat (n : Nat) : Location :=
  if n = 0x0000 then .cmd
  else if n = 0x0001 then .status
  else if n = 0x0002 then .err
  else if n = 0x0003 then .ctrl
  else if n = 0x0004 then .keylen
  else if n = 0x0005 then .keycfg
  else if h : 0x0008 ≤ n ∧ n < 0x000C then .len ⟨n - 0x0008, by omega⟩
  else if h : 0x000C ≤ n ∧ n < 0x0010 then .outLen ⟨n - 0x000C, by omega⟩
  else if h : 0x0010 ≤ n ∧ n < 0x0020 then .keyIn ⟨n - 0x0010, by omega⟩
  else if h : 0x0020 ≤ n ∧ n < 0x0028 then .blockIn ⟨n - 0x0020, by omega⟩
  else if h : 0x0028 ≤ n ∧ n < 0x0030 then .blockOut ⟨n - 0x0028, by omega⟩
  else if h : 0x1000 ≤ n ∧ n < 0x2000 then .inBuf ⟨n - 0x1000, by omega⟩
  else if h : 0x2000 ≤ n ∧ n < 0x3000 then .outBuf ⟨n - 0x2000, by omega⟩
  else .reserved

/-- The location a bus address names (R70, R82). -/
def locate (a : Addr) : Location := locateNat a.toNat

end Sys2Proof.Machine
end

