-- ==== Sys2Proof/Machine/Bits.lean ====
section
/-! DEFINITION. The bit-field and byte-order helpers of the spec's pseudocode (00_scope.md R11 to R14). -/

namespace Sys2Proof.Machine

/-- `v[hi:lo] <- x`: `v` with the `n` bits from bit `lo` replaced by `x` (R12). -/
def setSlice {w n : Nat} (v : BitVec w) (lo : Nat) (x : BitVec n) : BitVec w :=
  (v &&& ~~~((BitVec.allOnes n).setWidth w <<< lo)) ||| (x.setWidth w <<< lo)

/-- `nib(x, n) = x[4n+3:4n]`, nibble 0 least significant (R11). -/
def nib (x : Block) (n : Nat) : BitVec 4 := x.extractLsb' (4 * n) 4

/-- `be(b)` at width `w`: the bytes concatenated, the first one most significant (R14). -/
def be (w : Nat) (bs : List Byte) : BitVec w :=
  bs.foldl (fun acc b => (acc <<< 8) ||| b.setWidth w) 0

/-- `bytes_be(v, n)[t] = v[8(n-1-t)+7 : 8(n-1-t)]` (R14). -/
def bytesBe {w : Nat} (v : BitVec w) (n t : Nat) : Byte := v.extractLsb' (8 * (n - 1 - t)) 8

/-- The byte whose bit 0 is `b` and whose other bits are 0: what a register with one stored bit reads as (R28, R30). -/
def bit0Byte (b : Bool) : Byte := if b then 1 else 0

end Sys2Proof.Machine
end

