-- ==== Sys2Proof/Config.lean ====
section
/-! DEFINITION. The parameters the spec leaves open (R7 to R9), the constants it fixes (R6, R10), and the free values:
constants without a body for what the spec calls any value. -/

namespace Sys2Proof

/-- How LOADKEY treats a key byte count other than 10 (R9, D12). -/
inductive KeyPolicy
  | padTruncate
  | strict
  deriving DecidableEq, Repr

/-- The open parameters of the core. Every value of this type is a legal choice and every legal choice is a value:
BUF_BYTES is a multiple of 8 from 8 to 4096 (R8), N_LANES is at least 1 (R7). -/
structure Config where
  /-- BUF_BYTES / 8 - 1. -/
  bufUnits : Fin 512
  /-- N_LANES - 1. -/
  moreLanes : Nat
  /-- KEY_POLICY (R9). -/
  keyPolicy : KeyPolicy
  deriving DecidableEq, Repr

/-- BUF_BYTES, the capacity of each message buffer (R8, D15). -/
def Config.bufBytes (c : Config) : Nat := 8 * (c.bufUnits.val + 1)

/-- N_LANES, the number of engines (R7, D17). -/
def Config.nLanes (c : Config) : Nat := c.moreLanes + 1

/-- The reference parameters: BUF_BYTES = 4096 (R8) and KEY_POLICY = PAD_TRUNCATE (R9).
N_LANES = 4 is a DESIGN CHOICE (log 3): the spec leaves it open and nothing observable depends on it (R182). -/
def Config.reference : Config := { bufUnits := 511, moreLanes := 3, keyPolicy := .padTruncate }

/-- BLOCK_BYTES (R6). -/
abbrev blockBytes : Nat := 8

/-- KEY_BYTES, the logical key length of the 80-bit variant (R6). -/
abbrev keyBytes : Nat := 10

/-- FULL_ROUNDS: rounds of whiten, substitute, permute (R6). -/
abbrev fullRounds : Nat := 31

/-- Free value (log 7): what the read numbered `draw` of the buffer byte at host address `addr` returns when the spec
lets it return any value (R36, R75, U1 to U4). -/
opaque Config.freeByte (draw addr : Nat) : Byte

/-- Free value (log 9): KR of lane `lane` after the completion numbered `draw` (R167, U6). -/
opaque Config.freeKr (draw lane : Nat) : Key

/-- Free value (log 9): STATE of lane `lane` after the completion numbered `draw` (R167, U6). -/
opaque Config.freeState (draw lane : Nat) : Block

/-- Free value (log 9): RC of lane `lane` after the completion numbered `draw` (R167, U6). -/
opaque Config.freeRc (draw lane : Nat) : BitVec 5

/-- Free value (log 9): RK[0..31] of lane `lane` after the completion numbered `draw` (R167, U6). -/
opaque Config.freeRk (draw lane : Nat) : Vector Block 32

end Sys2Proof
end

