-- ==== Sys2Proof/Machine/State.lean ====
section
/-! DEFINITION. The state of the core (10_state.md), the events that change it (R15, R246), why a step can stop, and the
state after reset (R46). Plain data only. -/

namespace Sys2Proof.Machine

/-- STATUS (0x0001, R25). Five stored bits; bits 7:5 are hard-wired 0 and have no storage (log 21). -/
structure Status where
  /-- bit 0: 1 while a command runs. -/
  busy : Bool
  /-- bit 1: a command has completed since DONE was last cleared. -/
  done : Bool
  /-- bit 2: the last completed command ended with an error. -/
  errf : Bool
  /-- bit 3: a host write was dropped because BUSY was 1. -/
  ovr : Bool
  /-- bit 4: KEY holds a key built by a successful LOADKEY. -/
  keyv : Bool
  deriving DecidableEq, Repr

/-- The error codes a command can report (R201), without NONE. -/
inductive ErrCode
  | keyFormat
  | invalidBlockLength
  | illegalCmd
  | noKey
  | unsupportedVariant
  | lengthRange
  deriving DecidableEq, Repr

/-- SEQ.PHASE (R42). -/
inductive Phase
  | idle
  | run
  deriving DecidableEq, Repr

/-- Where an engine stands in the reference schedule of encryption (R165) or decryption (R166): the step it takes next. -/
inductive EngineStage
  /-- no block -/
  | idle
  /-- START is next -/
  | start
  /-- the ROUND that uses RC is next (R165) -/
  | rounds
  /-- FINAL is next (R165) -/
  | final
  /-- the KEYGEN that uses RC is next (R166) -/
  | keygen
  /-- WHITEN is next (R166) -/
  | whiten
  /-- the IROUND that uses RK[i] is next (R166) -/
  | iround (i : Nat)
  /-- STATE holds the result -/
  | result
  deriving DecidableEq, Repr

/-- One engine E[l] (R20, R38 to R42, R220). -/
structure Engine where
  /-- KR, the key register (R38). -/
  kr : Key
  /-- STATE, the block in the datapath (R39). -/
  state : Block
  /-- RC, the round counter (R40). -/
  rc : BitVec 5
  /-- RK[0..31], the round-key list of decryption (R41). -/
  rk : Vector Block 32
  /-- BLK, the block index the engine works on, or none (R42). -/
  blk : Option Nat
  /-- The place in the reference schedule, which R165 and R166 imply (log 16). -/
  stage : EngineStage
  deriving DecidableEq, Repr

/-- What a command has to commit when it completes (R193). -/
inductive Result
  /-- NOP: nothing. -/
  | nothing
  /-- LOADKEY: the new KEY. -/
  | key (k : Key)
  /-- ENCB, DECB: the eight bytes of BLOCK_OUT. -/
  | block (b : Vector Byte 8)
  /-- The ECB commands: OUT_LEN. -/
  | length (n : BitVec 32)
  /-- `raise Error(code)` (R210). -/
  | error (c : ErrCode)
  deriving DecidableEq, Repr

/-- Where SEQ stands between acceptance and completion (R191 to R193; log 16). -/
inductive SeqStage
  /-- no command -/
  | waiting
  /-- the check step is next (R191) -/
  | check
  /-- the datapath runs (R192) -/
  | datapath
  /-- the completion step is next and commits `r` (R193) -/
  | finish (r : Result)
  deriving DecidableEq, Repr

/-- SEQ, the sequencer's control state (R42). TODO and WRITTEN are sets, held as rising lists. -/
structure Seq where
  phase : Phase
  op : Byte
  todo : List Nat
  written : List Nat
  stage : SeqStage
  deriving DecidableEq, Repr

/-- One event of the transition system (R15, R246). -/
inductive Event
  /-- The host's `Write(addr, w)` (R71). -/
  | write (a : Addr) (w : Byte)
  /-- The host's `Read(addr)` (R71). -/
  | read (a : Addr)
  /-- The host drives the reset input to a level (R20, R230). -/
  | rst (level : Bool)
  /-- One internal step of the core (R192). `lane` and `pick` are the free choices of R180 (log 17). -/
  | core (lane pick : Nat)
  /-- All the internal steps left in the running command, merged into one (R192). -/
  | run
  deriving DecidableEq, Repr

/-- Faults: none. The core has no traps (R200), every datapath function is total (R209), and every address of the bus is
defined (R82), so no step can fault (log 19). -/
inductive Fault
  deriving DecidableEq, Repr

/-- Why a step has no meaning. -/
inductive Refusal
  /-- A command whose arm in Dispatch has no meaning yet. Safe: no claim about it can be proved. -/
  | notModelled (mnemonic : String)
  /-- Raised by `step` on every event but a reset before the first reset (R47, R234, U10). Safe: the spec forbids giving
  such an access a meaning (log 13). -/
  | beforeFirstReset
  deriving DecidableEq, Repr

/-- The state of the core. -/
structure State where
  /-- The open parameters, fixed for a run (R7 to R9; log 3). -/
  cfg : Config
  /-- STATUS (R25). -/
  status : Status
  /-- ERR (R27). -/
  err : Byte
  /-- CTRL.IE (R28). Bits 7:1 of CTRL are hard-wired 0. -/
  ie : Bool
  /-- KEYLEN (R29). -/
  keylen : Byte
  /-- KEYCFG.VARIANT (R30). Bits 7:1 of KEYCFG are hard-wired 0. -/
  variant : Bool
  /-- LEN (R31). -/
  len : BitVec 32
  /-- OUT_LEN (R32). -/
  outLen : BitVec 32
  /-- KEY_IN[0..15] (R33). -/
  keyIn : Vector Byte 16
  /-- BLOCK_IN[0..7] (R34). -/
  blockIn : Vector Byte 8
  /-- BLOCK_OUT[0..7] (R35). -/
  blockOut : Vector Byte 8
  /-- IN_BUF and OUT_BUF, by host address (R36, R73): the bytes written since reset, addresses rising (log 8). -/
  mem : List Host.Cell
  /-- KEY (R37). -/
  key : Key
  /-- E[0] .. E[N_LANES-1] (R20). -/
  engines : List Engine
  /-- SEQ (R42). -/
  seq : Seq
  /-- The level of the input `rst` (R230; log 14). -/
  rst : Bool
  /-- The byte the bus last returned on `rdata` (R71; log 6). -/
  rdata : Byte
  /-- A reset has been asserted since power-on (R47; log 13). -/
  resetSeen : Bool
  /-- The model's own: the number of the next free value (log 7). -/
  draws : Nat
  /-- The model's own: the events still to happen, first one next (log 1). -/
  agenda : List Event
  deriving DecidableEq, Repr

/-- An engine after reset. The spec leaves every register unspecified and unobservable (R46); the zeros are a DESIGN
CHOICE (log 4). -/
def Engine.atReset : Engine :=
  { kr := 0, state := 0, rc := 0, rk := Vector.replicate 32 0, blk := none, stage := .idle }

/-- SEQ after reset: PHASE = IDLE (R46). OP, TODO and WRITTEN are unspecified and unobservable; their values are a DESIGN
CHOICE (log 5). -/
def Seq.atReset : Seq :=
  { phase := .idle, op := 0, todo := [], written := [], stage := .waiting }

/-- The state after reset of a core with the parameters `c` (R46): the buffers list no byte, `rst` is low again (R230). -/
def State.resetWith (c : Config) : State :=
  { cfg := c
    status := { busy := false, done := false, errf := false, ovr := false, keyv := false }
    err := 0
    ie := false
    keylen := 0
    variant := false
    len := 0
    outLen := 0
    keyIn := Vector.replicate 16 0
    blockIn := Vector.replicate 8 0
    blockOut := Vector.replicate 8 0
    mem := []
    key := 0
    engines := List.replicate c.nLanes Engine.atReset
    seq := Seq.atReset
    rst := false
    rdata := 0
    resetSeen := true
    draws := 0
    agenda := [] }

/-- The machine right after reset (R46), with the reference parameters (log 3). -/
def State.reset : State := State.resetWith Config.reference

end Sys2Proof.Machine
end

