-- ==== Sys2Proof/Machine/Flags.lean ====
section
/-! DEFINITION. The STATUS bits and the interrupt output: who sets, clears and reads each one (10_state.md R25, R26, R44;
44_control.md R190, R193; 60_exceptions.md R214). No cipher computation sets a flag (R44). -/

namespace Sys2Proof.Machine

/-- STATUS as the byte the host reads (R25): KEYV, OVR, ERRF, DONE, BUSY in bits 4 to 0, bits 7:5 zero. -/
def Status.toByte (f : Status) : Byte :=
  (BitVec.ofBool f.busy).setWidth 8 ||| (BitVec.ofBool f.done).setWidth 8 <<< 1
    ||| (BitVec.ofBool f.errf).setWidth 8 <<< 2 ||| (BitVec.ofBool f.ovr).setWidth 8 <<< 3
    ||| (BitVec.ofBool f.keyv).setWidth 8 <<< 4

/-- The effect on STATUS of a host write of `w` to it: write 1 to clear DONE, ERRF and OVR (R26). -/
def Status.clearedBy (f : Status) (w : Byte) : Status :=
  { f with done := f.done && !w.getLsbD 1, errf := f.errf && !w.getLsbD 2, ovr := f.ovr && !w.getLsbD 3 }

/-- STATUS at acceptance (R190): BUSY set, DONE and ERRF cleared. -/
def Status.accepted (f : Status) : Status := { f with busy := true, done := false, errf := false }

/-- STATUS at completion without an error (R193): BUSY cleared, DONE set. -/
def Status.completed (f : Status) : Status := { f with busy := false, done := true }

/-- STATUS at completion with an error (R193): as without, and ERRF set. -/
def Status.failed (f : Status) : Status := { f with busy := false, done := true, errf := true }

/-- STATUS at the completion of a successful LOADKEY (R142, R193): as without an error, and KEYV set. -/
def Status.keyLoaded (f : Status) : Status := { f with busy := false, done := true, keyv := true }

/-- STATUS when a host write is dropped (R74): OVR set. -/
def Status.overrun (f : Status) : Status := { f with ovr := true }

/-- The interrupt output `irq = STATUS.DONE & CTRL.IE` (R214). -/
def irq (s : State) : Bool := s.status.done && s.ie

end Sys2Proof.Machine
end

