-- ==== Sys2Proof/Machine/Ops.lean ====
section
/-! DEFINITION. The named operations over memory and registers: buffer memory, completion, `raise Error`, dropped writes,
W1C and reset. -/

namespace Sys2Proof.Machine

/-! ## Buffer memory (R36, R73; log 8) -/

/-- The bytes written since reset, by host address. -/
abbrev Memory := List Host.Cell

/-- What an unlisted address reads as: no value. A buffer byte not written since reset has none (R36); the operation that
reads it takes a free value instead. -/
def Memory.unlisted (_addr : Nat) : Option Byte := none

/-- The byte at an address, or none where nothing has been written since reset. -/
def Memory.get? : Memory → Nat → Option Byte
  | [], a => Memory.unlisted a
  | c :: m, a => if c.1 = a then some c.2 else Memory.get? m a

/-- Write one byte, keeping the addresses rising. No byte equals what an unlisted address reads as, so no entry ever has to
be removed. -/
def Memory.set : Memory → Nat → Byte → Memory
  | [], a, b => [(a, b)]
  | c :: m, a, b =>
    if a < c.1 then (a, b) :: c :: m
    else if a = c.1 then (a, b) :: m
    else c :: Memory.set m a b

/-- Write bytes at rising addresses from `a` on. -/
def Memory.setBytes : Memory → Nat → List Byte → Memory
  | m, _, [] => m
  | m, a, b :: bs => Memory.setBytes (m.set a b) (a + 1) bs

/-- The canonical form: addresses strictly rising, and no entry equal to what an unlisted address reads as. -/
abbrev Memory.wf (m : Memory) : Prop :=
  m.Pairwise (fun c d => c.1 < d.1) ∧ ∀ c ∈ m, Memory.unlisted c.1 ≠ some c.2

/-- The byte at buffer address `addr` as the read numbered `draw` sees it: the last byte written there, or a free value if
nothing has been written since reset (R36, R75; log 7). -/
def State.bufByte (s : State) (draw addr : Nat) : Byte :=
  (Memory.get? s.mem addr).getD (Config.freeByte draw addr)

/-! ## Completion -/

/-- The number of an error code in ERR (R201). -/
def ErrCode.code : ErrCode → Byte
  | .keyFormat => 0x01
  | .invalidBlockLength => 0x02
  | .illegalCmd => 0x03
  | .noKey => 0x04
  | .unsupportedVariant => 0x05
  | .lengthRange => 0x06

/-- Lane `lane` after the completion numbered `draw`: its registers are unspecified (R167), so they are free values
(log 9). It holds no block. -/
def Engine.released (draw lane : Nat) : Engine :=
  { kr := Config.freeKr draw lane
    state := Config.freeState draw lane
    rc := Config.freeRc draw lane
    rk := Config.freeRk draw lane
    blk := none
    stage := .idle }

/-- What every completion does besides its commit (R193, R167): SEQ goes idle and the engine registers become
unspecified. -/
def State.release (s : State) : State :=
  { s with
    engines := (List.range s.cfg.nLanes).map (Engine.released s.draws)
    seq := { s.seq with phase := .idle, stage := .waiting }
    draws := s.draws + 1 }

/-- `raise Error(code)` (R210): the command goes to completion with the code (R193), and nothing else changes. This is the
core's only exception primitive (R13, R200). -/
def State.raise (c : ErrCode) (s : State) : State :=
  { s.release with status := s.status.failed, err := c.code }

/-- The completion step (R193): commit the result, or report the error. -/
def State.complete (r : Result) (s : State) : State :=
  match r with
  | .nothing => { s.release with status := s.status.completed, err := 0x00 }
  | .key k => { s.release with status := s.status.keyLoaded, err := 0x00, key := k }
  | .block b => { s.release with status := s.status.completed, err := 0x00, blockOut := b }
  | .length n => { s.release with status := s.status.completed, err := 0x00, outLen := n }
  | .error c => s.raise c

/-! ## Host writes and reset -/

/-- A host write dropped because BUSY = 1: it sets STATUS.OVR and has no other effect (R74, R213). -/
def State.dropWrite (s : State) : State := { s with status := s.status.overrun }

/-- A host write to an operand: `written` while no command runs, dropped while one does (R74). -/
def State.operandWrite (s written : State) : State := if s.status.busy then s.dropWrite else written

/-- A host write of `w` to STATUS (R26): the return from an error, among others (R211). -/
def State.clearSticky (w : Byte) (s : State) : State := { s with status := s.status.clearedBy w }

/-- The core in a step in which `rst` = 1 (R230): every piece of state at its value from R46, and `rst` still at 1. What
is not state of the core stays: the parameters, the events still to happen and the number of the next free value. -/
def State.resetTo (s : State) : State :=
  { State.resetWith s.cfg with rst := true, draws := s.draws, agenda := s.agenda }

end Sys2Proof.Machine
end

