-- ==== Sys2Proof/Machine/Operands.lean ====
section
/-! DEFINITION. Operand assembly (30_encoding.md R104 to R107; 43_ecb.md R170 to R172, R184), the error checks that read
the operands (60_exceptions.md R202 to R208), and acceptance (44_control.md R190). -/

namespace Sys2Proof.Machine

/-! ## Key operand -/

/-- The ten key bytes `kb[t] = (t < m) ? kin[t] : 0x00` with `m = min(n, 10)` (R105, R141). -/
def keyOperandBytes (kin : Vector Byte 16) (n : Nat) : List Byte :=
  (List.range keyBytes).map fun t => if t < min n keyBytes then kin.toList.getD t 0 else 0x00

/-- `key_from_bytes(kin, n, variant)` (R141): the variant is checked first, then the byte count under STRICT (R203,
R202, R208). -/
def keyFromBytes (policy : KeyPolicy) (kin : Vector Byte 16) (n : Byte) (variant : Bool) : Except ErrCode Key :=
  if variant then .error .unsupportedVariant
  else if policy = .strict ∧ n.toNat ≠ keyBytes then .error .keyFormat
  else .ok (be 80 (keyOperandBytes kin n.toNat))

/-- The key operand of LOADKEY in a state (R104, R105). -/
def State.keyOperand (s : State) : Except ErrCode Key := keyFromBytes s.cfg.keyPolicy s.keyIn s.keylen s.variant

/-! ## Length and message operands -/

/-- `pad_len(L)`, the least multiple of 8 that is at least `L` (R170). -/
def padLen (n : Nat) : Nat := blockBytes * ((n + 7) / blockBytes)

/-- `pad(data)`, zero padding (R171). -/
def pad (d : List Byte) : List Byte := d ++ List.replicate (padLen d.length - d.length) 0x00

/-- `chunk(d)`, the blocks of 8 bytes in input order (R172). -/
def chunk (d : List Byte) : List (List Byte) :=
  (List.range (d.length / blockBytes)).map fun j => (d.drop (blockBytes * j)).take blockBytes

/-- The number of blocks of an ECB command: the padded length in blocks, which for a length that decryption allows is the
length in blocks (R107, R179). -/
def State.blockCount (s : State) : Nat := padLen s.len.toNat / blockBytes

/-- Byte `t` of block `j` of the padded message, the byte of index `k = 8j + t` read as the draw numbered `draw` sees it:
`(k < L) ? IN_BUF[k] : 0x00` (R173). At `L` and above IN_BUF is not read (R184). -/
def State.messageByte (s : State) (draw j t : Nat) : Byte :=
  if blockBytes * j + t < s.len.toNat then s.bufByte draw (inBase + (blockBytes * j + t)) else 0x00

/-- Has every byte of block `j` below `L` been written since reset (R235, R184)? -/
def State.blockWritten (s : State) (j : Nat) : Bool :=
  (List.range blockBytes).all fun t =>
    decide (s.len.toNat ≤ blockBytes * j + t) || (Memory.get? s.mem (inBase + (blockBytes * j + t))).isSome

/-- Block `j` of the padded message (R172, R173, R174). -/
def State.messageBlock (s : State) (draw j : Nat) : Vector Byte 8 :=
  Vector.ofFn fun t => s.messageByte draw j t.val

/-! ## Checks -/

/-- The checks of LOADKEY (R142): UNSUPPORTED_VARIANT, then KEY_FORMAT (R208). -/
def State.checkLoadkey (s : State) : Option ErrCode :=
  match s.keyOperand with
  | .ok _ => none
  | .error c => some c

/-- The check of ENCB and DECB (R163, R164): NO_KEY (R204). -/
def State.checkBlock (s : State) : Option ErrCode := if s.status.keyv then none else some .noKey

/-- The checks of ECBE and PECBE (R175, R177): NO_KEY, then LENGTH_RANGE (R205, R208). -/
def State.checkEcbEncrypt (s : State) : Option ErrCode :=
  if !s.status.keyv then some .noKey
  else if s.cfg.bufBytes < s.len.toNat then some .lengthRange
  else none

/-- The checks of ECBD and PECBD (R176, R178): NO_KEY, then LENGTH_RANGE, then INVALID_BLOCK_LENGTH (R206, R208). -/
def State.checkEcbDecrypt (s : State) : Option ErrCode :=
  if !s.status.keyv then some .noKey
  else if s.cfg.bufBytes < s.len.toNat then some .lengthRange
  else if s.len.toNat % blockBytes ≠ 0 then some .invalidBlockLength
  else none

/-- The error checks at the head of a command's pseudocode, in the order of R208. -/
def State.check (i : Instr) (s : State) : Option ErrCode :=
  match i with
  | .nop => none
  | .loadkey => s.checkLoadkey
  | .encb => s.checkBlock
  | .decb => s.checkBlock
  | .ecbe => s.checkEcbEncrypt
  | .ecbd => s.checkEcbDecrypt
  | .pecbe => s.checkEcbEncrypt
  | .pecbd => s.checkEcbDecrypt

/-- OUT_LEN of a successful ECB command (R193): `pad_len(LEN)` for encryption and `LEN` for decryption. -/
def State.encryptLength (s : State) : BitVec 32 := BitVec.ofNat 32 (padLen s.len.toNat)

/-! ## Acceptance -/

/-- Is a command one of the four ECB commands (R75)? -/
def isEcb : Instr → Bool
  | .nop => false
  | .loadkey => false
  | .encb => false
  | .decb => false
  | .ecbe => true
  | .ecbd => true
  | .pecbe => true
  | .pecbd => true

/-- The blocks `0, ..., NB-1` that acceptance of `w` gives the mapper (R180). Only an ECB command whose checks pass
reaches the mapper; the checks read what acceptance leaves as it is and the host cannot change before the check step
(R196), so acceptance can already tell (log 11). -/
def State.mapperBlocks (w : Byte) (s : State) : Option (List Nat) :=
  match decode w with
  | .ok i => if isEcb i && (s.check i).isNone then some (List.range s.blockCount) else none
  | .error _ => none

/-- Acceptance of the command byte `w` (R190): for an ECB command TODO becomes every block and WRITTEN empty (R180). The
check step comes next (R191). -/
def State.accept (w : Byte) (s : State) : State :=
  { s with
    status := s.status.accepted
    err := 0x00
    seq :=
      { phase := .run
        op := w
        todo := (s.mapperBlocks w).getD s.seq.todo
        written := if (s.mapperBlocks w).isSome then [] else s.seq.written
        stage := .check } }

end Sys2Proof.Machine
end

