-- ==== Sys2Proof/Machine/Bus.lean ====
section
/-! DEFINITION. Host bus transactions (20_memory.md R71 to R75, 10_state.md R24 to R36): the effect of a write and the value
of a read, while reset is not asserted. -/

namespace Sys2Proof.Machine

/-- `CTRL` as the host reads it (R28). -/
def State.ctrlByte (s : State) : Byte := bit0Byte s.ie

/-- `KEYCFG` as the host reads it (R30). -/
def State.keycfgByte (s : State) : Byte := bit0Byte s.variant

/-- `LEN` with its byte `k` (big-endian, R31, R77) replaced by `w`. -/
def lenWithByte (len : BitVec 32) (k : Nat) (w : Byte) : BitVec 32 := setSlice len (8 * (3 - k)) w

/-- An ECB command is running: OUT_BUF reads return any value (R75). -/
def State.ecbRunning (s : State) : Bool :=
  s.status.busy && (match decode s.seq.op with
    | .ok i => isEcb i
    | .error _ => false)

/-- `Write(addr, w)` by what the address names (R72, R74). -/
def State.writeLocation (l : Location) (w : Byte) (s : State) : State :=
  match l with
  | .cmd => if s.status.busy then s.dropWrite else s.accept w
  | .status => s.clearSticky w
  | .err => s
  | .ctrl => { s with ie := w.getLsbD 0 }
  | .keylen => s.operandWrite { s with keylen := w }
  | .keycfg => s.operandWrite { s with variant := w.getLsbD 0 }
  | .len k => s.operandWrite { s with len := lenWithByte s.len k.val w }
  | .outLen _ => s
  | .keyIn t => s.operandWrite { s with keyIn := s.keyIn.set t.val w }
  | .blockIn t => s.operandWrite { s with blockIn := s.blockIn.set t.val w }
  | .blockOut _ => s
  | .inBuf i =>
    if i.val < s.cfg.bufBytes then s.operandWrite { s with mem := Memory.set s.mem (inBase + i.val) w } else s
  | .outBuf _ => s
  | .reserved => s

/-- `Write(addr, w)` while reset is not asserted (R72). -/
def State.busWrite (a : Addr) (w : Byte) (s : State) : State := s.writeLocation (locate a) w

/-- The byte `Read(addr)` returns, by what the address names (R75). A buffer byte that no rule fixes is a free value of
its own draw (log 7). OUT_BUF while a command that is no ECB command runs is read as ever (R84; log 24). -/
def State.readLocation (l : Location) (s : State) : Byte :=
  match l with
  | .cmd => 0x00
  | .status => s.status.toByte
  | .err => s.err
  | .ctrl => s.ctrlByte
  | .keylen => s.keylen
  | .keycfg => s.keycfgByte
  | .len k => bytesBe s.len 4 k.val
  | .outLen k => bytesBe s.outLen 4 k.val
  | .keyIn t => s.keyIn[t.val]
  | .blockIn t => s.blockIn[t.val]
  | .blockOut t => s.blockOut[t.val]
  | .inBuf i => if i.val < s.cfg.bufBytes then s.bufByte s.draws (inBase + i.val) else 0x00
  | .outBuf i =>
    if i.val < s.cfg.bufBytes then
      (if s.ecbRunning then Config.freeByte s.draws (outBase + i.val) else s.bufByte s.draws (outBase + i.val))
    else 0x00
  | .reserved => 0x00

/-- The byte `Read(addr)` returns while reset is not asserted (R71, R75). -/
def State.readValue (a : Addr) (s : State) : Byte := s.readLocation (locate a)

/-- `Read(addr)` (R71): the byte goes to `rdata`. It has no side effect on the core (R75); the model counts one draw. -/
def State.busRead (a : Addr) (s : State) : State := { s with rdata := s.readValue a, draws := s.draws + 1 }

end Sys2Proof.Machine
end

