-- ==== Sys2Proof/Machine/BitLayer.lean ====
section
/-! DEFINITION. The bit-layer primitives of the datapath (40_bit_layer.md): S-box unit, P-layer network, whitening and
converters. Total functions without errors or flags (R209). -/

namespace Sys2Proof.Machine

/-- The S-box table (R120; values from general knowledge, G1, log 22). -/
def sboxTable : List (BitVec 4) :=
  [0xC, 0x5, 0x6, 0xB, 0x9, 0x0, 0xA, 0xD, 0x3, 0xE, 0xF, 0x8, 0x4, 0x7, 0x1, 0x2]

/-- `SBOX[x]` (R120). -/
def sbox (x : BitVec 4) : BitVec 4 := sboxTable.getD x.toNat 0

/-- The inverse S-box table, a second constant table (R122, R43). -/
def sboxInvTable : List (BitVec 4) :=
  [0x5, 0xE, 0xF, 0x8, 0xC, 0x1, 0x2, 0xD, 0xB, 0x4, 0x6, 0x3, 0x0, 0x7, 0x9, 0xA]

/-- `SBOX_INV[y]` (R122). -/
def sboxInv (y : BitVec 4) : BitVec 4 := sboxInvTable.getD y.toNat 0

/-- The first `n` of the sixteen lanes of a packed nibble operation (R132). -/
def nibbleLanes (f : BitVec 4 → BitVec 4) (x : Block) : Nat → Block
  | 0 => 0
  | n + 1 => setSlice (nibbleLanes f x n) (4 * n) (f (nib x n))

/-- `substitute(x)`, the S-layer (R121). -/
def substitute (x : Block) : Block := nibbleLanes sbox x 16

/-- `inverse_substitute(x)` (R123). -/
def inverseSubstitute (x : Block) : Block := nibbleLanes sboxInv x 16

/-- `P[i]`, the destination of source bit `i` (R124; values from general knowledge, G2, log 22). -/
def pTable (i : Nat) : Nat := if i = 63 then 63 else (16 * i) % 63

/-- `P_INV[j]` by its closed form (R126). -/
def pInvTable (j : Nat) : Nat := 4 * (j % 16) + j / 16

/-- The first `n` of the moves `y[T[i]] <- x[i]` of a bit permutation (R125, R127). -/
def scatterBits (t : Nat → Nat) (x : Block) : Nat → Block
  | 0 => 0
  | n + 1 => setSlice (scatterBits t x n) (t n) (x.extractLsb' n 1)

/-- `permute(x)`, the P-layer (R125). -/
def permute (x : Block) : Block := scatterBits pTable x 64

/-- `inverse_permute(x)` (R127). -/
def inversePermute (x : Block) : Block := scatterBits pInvTable x 64

/-- `whiten(x, k)`, XOR with a round key (R128). -/
def whiten (x k : Block) : Block := x ^^^ k

/-- `bytes_to_state(b[0..7])` (R129). -/
def bytesToState (b : Vector Byte 8) : Block := be 64 b.toList

/-- `state_to_bytes(x)` (R130). -/
def stateToBytes (x : Block) : Vector Byte 8 := Vector.ofFn fun t => bytesBe x 8 t.val

end Sys2Proof.Machine
end

