-- ==== Sys2Proof/Machine/KeySchedule.lean ====
section
/-! DEFINITION. The 80-bit key register (41_key_schedule.md R143 to R151). -/

namespace Sys2Proof.Machine

/-- Advance step 1: `rotl_80(KR, 61)` (R144, R12). -/
def rotateKr (kr : Key) : Key := (kr <<< 61) ||| (kr >>> (80 - 61))

/-- Advance step 2: `KR[79:76] <- SBOX[KR[79:76]]` (R145). -/
def substituteTop (kr : Key) : Key := setSlice kr 76 (sbox (kr.extractLsb' 76 4))

/-- Advance step 3: `KR[19:15] <- KR[19:15] ^ rc[4:0]` (R146). -/
def mixCounter (kr : Key) (rc : BitVec 5) : Key := setSlice kr 15 (kr.extractLsb' 15 5 ^^^ rc)

/-- `advance(rc)`, the key-register update (R147). -/
def advance (kr : Key) (rc : BitVec 5) : Key := mixCounter (substituteTop (rotateKr kr)) rc

/-- `round_key() = KR[79:16]` (R148). -/
def roundKey (kr : Key) : Block := kr.extractLsb' 16 64

/-- `KR_r` of the round-key sequence of a key (R149). -/
def krAt (k : Key) : Nat → Key
  | 0 => k
  | r + 1 => advance (krAt k r) (BitVec.ofNat 5 (r + 1))

/-- The source's word `a = KR[79:16]` (R150). -/
def krWordA (kr : Key) : Block := kr.extractLsb' 16 64

/-- The source's word `b = KR[15:0] ‖ 48'0` (R150). -/
def krWordB (kr : Key) : Block := (kr.extractLsb' 0 16 ++ 0#48 : BitVec 64)

/-- The key register held as the two words `a` and `b` (R150): `KR = a ‖ b[63:48]`. -/
def krOfWords (a b : Block) : Key := (a ++ b.extractLsb' 48 16 : BitVec 80)

end Sys2Proof.Machine
end

