-- ==== Sys2Proof/Machine/Cipher.lean ====
section
/-! DEFINITION. Encryption and decryption of one block (42_block_cipher.md R160, R161). -/

namespace Sys2Proof.Machine

/-- The block and the key register after the first `n` rounds of the loop of R160. -/
def encryptRounds (x : Block) (k : Key) : Nat → Block × Key
  | 0 => (x, k)
  | n + 1 =>
    let p := encryptRounds x k n
    (permute (substitute (whiten p.1 (roundKey p.2))), advance p.2 (BitVec.ofNat 5 (n + 1)))

/-- `Encrypt(x, K)` (R160): 31 rounds, then the whitening with round key 31. -/
def encrypt (x : Block) (k : Key) : Block :=
  let p := encryptRounds x k fullRounds
  whiten p.1 (roundKey p.2)

/-- The round keys from the register `kr` on: the current one, then one per advance with counters `r`, `r + 1`, ... -/
def roundKeysFrom (kr : Key) (r : Nat) : Nat → List Block
  | 0 => []
  | n + 1 => roundKey kr :: roundKeysFrom (advance kr (BitVec.ofNat 5 r)) (r + 1) n

/-- `RK[0..31]`, generated forward before the first inverse round (R161, R149). -/
def roundKeyList (k : Key) : List Block := roundKeysFrom k 1 32

/-- The inverse rounds `i = n - 1 downto 0` of R161 with the round keys `rk`. -/
def decryptRounds (rk : List Block) : Nat → Block → Block
  | 0, y => y
  | n + 1, y => decryptRounds rk n (whiten (inverseSubstitute (inversePermute y)) (rk.getD n 0))

/-- `Decrypt(y, K)` (R161). -/
def decrypt (y : Block) (k : Key) : Block :=
  let rk := roundKeyList k
  decryptRounds rk fullRounds (whiten y (rk.getD fullRounds 0))

/-- Which way the datapath runs. -/
inductive Direction
  | enc
  | dec
  deriving DecidableEq, Repr

/-- The block function of a direction: `F` of R180. -/
def blockCipher : Direction → Block → Key → Block
  | .enc, x, k => encrypt x k
  | .dec, x, k => decrypt x k

end Sys2Proof.Machine
end

