-- ==== Sys2Proof/Machine/Block.lean ====
section
/-! DEFINITION. The single-block commands ENCB and DECB (42_block_cipher.md R163, R164) as the merged step of R192. -/

namespace Sys2Proof.Machine

/-- The block operand of ENCB and DECB (R106). -/
def State.blockOperand (s : State) : Block := bytesToState s.blockIn

/-- ENCB (R163). -/
def execEncb (s : State) : Host.Outcome State Fault Refusal :=
  match s.checkBlock with
  | some c => .next (s.raise c)
  | none => .next (s.complete (.block (stateToBytes (encrypt s.blockOperand s.key))))

/-- DECB (R164). -/
def execDecb (s : State) : Host.Outcome State Fault Refusal :=
  match s.checkBlock with
  | some c => .next (s.raise c)
  | none => .next (s.complete (.block (stateToBytes (decrypt s.blockOperand s.key))))

end Sys2Proof.Machine
end

