-- ==== Sys2Proof/Machine/Control.lean ====
section
/-! DEFINITION. The commands without a block datapath: NOP (44_control.md R194), LOADKEY (41_key_schedule.md R142) and the
reserved opcodes (44_control.md R195), as the merged step of R192. -/

namespace Sys2Proof.Machine

/-- NOP (R194). -/
def execNop (s : State) : Host.Outcome State Fault Refusal := .next (s.complete .nothing)

/-- LOADKEY (R142). -/
def execLoadkey (s : State) : Host.Outcome State Fault Refusal :=
  match s.keyOperand with
  | .error c => .next (s.raise c)
  | .ok k => .next (s.complete (.key k))

/-- A reserved opcode (R195): ILLEGAL_CMD at the check step (R207). -/
def execReserved (s : State) : Host.Outcome State Fault Refusal := .next (s.raise .illegalCmd)

end Sys2Proof.Machine
end

