-- ==== Sys2Proof/Machine/Ecb.lean ====
section
/-! DEFINITION. The ECB block mapper (43_ecb.md R173, R174, R179 to R181) and the meanings of ECBE, ECBD, PECBE and PECBD
as the merged step of R192: checks, all blocks, completion. -/

namespace Sys2Proof.Machine

/-- Any value for the eight bytes of block `j` of OUT_BUF: free values of the draw numbered `draw` (R235, U5; log 12). -/
def freeBlock (draw j : Nat) : Vector Byte 8 :=
  Vector.ofFn fun t => Config.freeByte draw (outBase + (blockBytes * j + t.val))

/-- The bytes stored for block `j` when its engine's result is `x`: the bytes of `x` (R130), and for a block with an input
byte below LEN that has not been written since reset any value (R235, U5; log 12). -/
def State.outputBlock (s : State) (draw j : Nat) (x : Block) : Vector Byte 8 :=
  if s.blockWritten j then stateToBytes x else freeBlock draw j

/-- The result bytes of block `j`: the block function of the direction applied to block `j` of the padded message under
KEY (R173, R174, R185). A block takes two draws, one when it is read and one when it is written (log 12). -/
def State.resultBlock (d : Direction) (s : State) (j : Nat) : Vector Byte 8 :=
  s.outputBlock (s.draws + 2 * j + 1) j (blockCipher d (bytesToState (s.messageBlock (s.draws + 2 * j) j)) s.key)

/-- Write the result of block `j` to `OUT_BUF[8j .. 8j+7]`, whatever engine computed it and whenever (R181). -/
def writeBlock (m : Memory) (j : Nat) (b : Vector Byte 8) : Memory :=
  m.setBytes (outBase + blockBytes * j) b.toList

/-- Compute and write the blocks of `order`, one after another. -/
def State.mapBlocks (d : Direction) (order : List Nat) (s : State) : Memory :=
  order.foldl (fun m j => writeBlock m j (s.resultBlock d j)) s.mem

/-- The order of the sequential mapper: increasing (R179). -/
def State.sequentialOrder (s : State) : List Nat := List.range s.blockCount

/-- One schedule of the parallel mapper (R180): lane `l` takes the blocks `l`, `l + N_LANES`, ..., lane after lane. The
merged step needs one order; the events `core` of Sequencer.lean admit every other (log 2). -/
def State.parallelOrder (s : State) : List Nat :=
  (List.range s.cfg.nLanes).flatMap fun l =>
    (List.range s.blockCount).filter fun j => j % s.cfg.nLanes = l

/-- The state after the mapper has written every block of `order` (R179, R180): TODO is empty and WRITTEN is full. -/
def State.runMapper (d : Direction) (order : List Nat) (s : State) : State :=
  { s with
    mem := s.mapBlocks d order
    seq := { s.seq with todo := [], written := List.range s.blockCount }
    draws := s.draws + 2 * s.blockCount }

/-- ECBE (R175). -/
def execEcbe (s : State) : Host.Outcome State Fault Refusal :=
  match s.checkEcbEncrypt with
  | some c => .next (s.raise c)
  | none => .next ((s.runMapper .enc s.sequentialOrder).complete (.length s.encryptLength))

/-- ECBD (R176). -/
def execEcbd (s : State) : Host.Outcome State Fault Refusal :=
  match s.checkEcbDecrypt with
  | some c => .next (s.raise c)
  | none => .next ((s.runMapper .dec s.sequentialOrder).complete (.length s.len))

/-- PECBE (R177). -/
def execPecbe (s : State) : Host.Outcome State Fault Refusal :=
  match s.checkEcbEncrypt with
  | some c => .next (s.raise c)
  | none => .next ((s.runMapper .enc s.parallelOrder).complete (.length s.encryptLength))

/-- PECBD (R178). -/
def execPecbd (s : State) : Host.Outcome State Fault Refusal :=
  match s.checkEcbDecrypt with
  | some c => .next (s.raise c)
  | none => .next ((s.runMapper .dec s.parallelOrder).complete (.length s.len))

end Sys2Proof.Machine
end

