-- ==== Sys2Proof/Machine/Dispatch.lean ====
section
/-! DEFINITION. What each command does between acceptance and completion, as one step (R192): one arm per command. -/

namespace Sys2Proof.Machine

def exec (i : Instr) (s : State) : Host.Outcome State Fault Refusal :=
  match i with
  | .nop => Sys2Proof.Machine.execNop s
  | .loadkey => Sys2Proof.Machine.execLoadkey s
  | .encb => Sys2Proof.Machine.execEncb s
  | .decb => Sys2Proof.Machine.execDecb s
  | .ecbe => Sys2Proof.Machine.execEcbe s
  | .ecbd => Sys2Proof.Machine.execEcbd s
  | .pecbe => Sys2Proof.Machine.execPecbe s
  | .pecbd => Sys2Proof.Machine.execPecbd s

end Sys2Proof.Machine
end

