-- ==== Sys2Proof/Machine/Sequencer.lean ====
section
/-! DEFINITION. The unmerged internal steps of the core (44_control.md R191 to R193): the check step, the engine steps of
the reference schedules (42_block_cipher.md R165, R166), the mapper steps (43_ecb.md R179, R180) and the completion step.
The event `core lane pick` takes one of them. -/

namespace Sys2Proof.Machine

/-! ## Engines -/

/-- The last value of RC (R40, R151). -/
def lastRc : BitVec 5 := 31

/-- RC after the advance that used it: the next round number, and after the last advance unchanged, since RC never holds
32 or 0 in a schedule (R151; log 10). -/
def nextRc (rc : BitVec 5) : BitVec 5 := if rc = lastRc then rc else rc + 1

/-- One step of the reference schedule of encryption (R165) or decryption (R166). `x` is the block START loads and `key`
is KEY, from which every block starts a fresh KR (R143, R152). -/
def Engine.advanceSchedule (d : Direction) (key : Key) (x : Block) (e : Engine) : Engine :=
  match e.stage with
  | .idle => e
  | .start =>
    match d with
    | .enc => { e with kr := key, state := x, rc := 1, stage := .rounds }
    | .dec => { e with kr := key, state := x, rc := 1, rk := e.rk.set 0 (roundKey key), stage := .keygen }
  | .rounds =>
    { e with
      state := permute (substitute (whiten e.state (roundKey e.kr)))
      kr := advance e.kr e.rc
      rc := nextRc e.rc
      stage := if e.rc = lastRc then .final else .rounds }
  | .final => { e with state := whiten e.state (roundKey e.kr), stage := .result }
  | .keygen =>
    { e with
      kr := advance e.kr e.rc
      rk := e.rk.setIfInBounds e.rc.toNat (roundKey (advance e.kr e.rc))
      rc := nextRc e.rc
      stage := if e.rc = lastRc then .whiten else .keygen }
  | .whiten => { e with state := whiten e.state (e.rk.toList.getD fullRounds 0), stage := .iround 30 }
  | .iround i =>
    { e with
      state := whiten (inverseSubstitute (inversePermute e.state)) (e.rk.toList.getD i 0)
      stage := match i with
        | 0 => .result
        | j + 1 => .iround j }
  | .result => e

/-- Engine `l`. -/
def State.engine (s : State) (l : Nat) : Engine := s.engines.getD l Engine.atReset

/-- Replace engine `l`. -/
def State.setEngine (s : State) (l : Nat) (e : Engine) : State := { s with engines := s.engines.set l e }

/-! ## The mapper -/

/-- Add an index to a set held as a rising list. -/
def insertIndex (j : Nat) : List Nat → List Nat
  | [] => [j]
  | k :: ks => if j < k then j :: k :: ks else if j = k then k :: ks else k :: insertIndex j ks

/-- Take (R180): engine `l`, which holds no block, takes the block at place `pick` of TODO, counted round. With TODO empty
no step is enabled. -/
def State.takeBlock (l pick : Nat) (s : State) : State :=
  match s.seq.todo with
  | [] => s
  | j :: js =>
    let taken := (j :: js).getD (pick % (js.length + 1)) j
    { s.setEngine l { s.engine l with blk := some taken, stage := .start } with
      seq := { s.seq with todo := s.seq.todo.erase taken } }

/-- The two mappers: the block loop of E[0] (R179) and the mapper over all lanes (R180). -/
inductive Mapper
  | sequential
  | parallel
  deriving DecidableEq, Repr

/-- BLK after block `j` has been written: none (R180), but in the loop of R179 it stays `j` until the next turn takes the
next block, and becomes none only when the loop is over. -/
def Mapper.blkAfter (m : Mapper) (last : Bool) (j : Nat) : Option Nat :=
  match m with
  | .sequential => if last then none else some j
  | .parallel => none

/-- Write (R180, R181): the result of engine `l` goes to its block's place in OUT_BUF. After the last block the command
has only its completion left (R179, R193). The write takes one draw (log 12). -/
def State.writeResult (m : Mapper) (l j : Nat) (len : BitVec 32) (s : State) : State :=
  let written := insertIndex j s.seq.written
  let last := decide (written = List.range s.blockCount)
  { s.setEngine l { s.engine l with blk := m.blkAfter last j, stage := .idle } with
    mem := writeBlock s.mem j (s.outputBlock s.draws j (s.engine l).state)
    seq := { s.seq with
      written := written
      stage := if last then .finish (.length len) else .datapath }
    draws := s.draws + 1 }

/-- One mapper or engine step of an ECB command on lane `l`: take a block, step the schedule, or write the result (R180).
Between two blocks of its loop E[0] still holds the block it has written, and takes the next one (R179). START reads the
block from IN_BUF and takes one draw. -/
def State.mapperStep (m : Mapper) (d : Direction) (l pick : Nat) (len : BitVec 32) (s : State) : State :=
  match (s.engine l).blk with
  | none => s.takeBlock l pick
  | some j =>
    match (s.engine l).stage with
    | .idle =>
      match m with
      | .sequential => s.takeBlock l pick
      | .parallel => s
    | .result => s.writeResult m l j len
    | .start =>
      { s.setEngine l ((s.engine l).advanceSchedule d s.key (bytesToState (s.messageBlock s.draws j))) with
        draws := s.draws + 1 }
    | _ => s.setEngine l ((s.engine l).advanceSchedule d s.key 0)

/-- One engine step of ENCB or DECB on E[0] (R163 to R166). With the last one the result is ready to commit. -/
def State.blockStep (d : Direction) (s : State) : State :=
  let e := (s.engine 0).advanceSchedule d s.key s.blockOperand
  let t := s.setEngine 0 e
  if e.stage = .result then
    { t with seq := { t.seq with stage := .finish (.block (stateToBytes e.state)) } }
  else t

/-! ## The sequencer -/

/-- The command goes to completion and will commit `r` (R191, R193). -/
def State.finishWith (r : Result) (s : State) : State := { s with seq := { s.seq with stage := .finish r } }

/-- ENCB and DECB after their checks: E[0] is about to START (R165, R166). -/
def State.beginBlock (s : State) : State :=
  { s.setEngine 0 { s.engine 0 with blk := none, stage := .start } with seq := { s.seq with stage := .datapath } }

/-- An ECB command after its checks: no engine holds a block (log 11). TODO and WRITTEN are as acceptance set them (R180).
With no block it completes at once. -/
def State.beginMapper (len : BitVec 32) (s : State) : State :=
  { s with
    engines := s.engines.map fun e => { e with blk := none, stage := .idle }
    seq := { s.seq with
      stage := if s.blockCount = 0 then .finish (.length len) else .datapath } }

/-- What a command does once every check has passed (R191). -/
def State.begin (i : Instr) (s : State) : State :=
  match i with
  | .nop => s.finishWith .nothing
  | .loadkey => { s with seq := { s.seq with stage := .datapath } }
  | .encb => s.beginBlock
  | .decb => s.beginBlock
  | .ecbe => s.beginMapper s.encryptLength
  | .ecbd => s.beginMapper s.len
  | .pecbe => s.beginMapper s.encryptLength
  | .pecbd => s.beginMapper s.len

/-- The check step (R191): decode SEQ.OP, then the command's checks in the order of R208. -/
def State.checkStep (s : State) : State :=
  match decode s.seq.op with
  | .error _ => s.finishWith (.error .illegalCmd)
  | .ok i =>
    match s.check i with
    | some c => s.finishWith (.error c)
    | none => s.begin i

/-- The datapath step of LOADKEY: build the key (R142). -/
def State.keyStep (s : State) : State :=
  match s.keyOperand with
  | .ok k => s.finishWith (.key k)
  | .error c => s.finishWith (.error c)

/-- One datapath step of a command (R192). The sequential mapper uses E[0] and takes the blocks in order (R179); the
parallel one uses the lane and the block the event picks (R180; log 17). -/
def State.datapathStep (i : Instr) (lane pick : Nat) (s : State) : State :=
  match i with
  | .nop => s.finishWith .nothing
  | .loadkey => s.keyStep
  | .encb => s.blockStep .enc
  | .decb => s.blockStep .dec
  | .ecbe => s.mapperStep .sequential .enc 0 0 s.encryptLength
  | .ecbd => s.mapperStep .sequential .dec 0 0 s.len
  | .pecbe => s.mapperStep .parallel .enc (lane % s.cfg.nLanes) pick s.encryptLength
  | .pecbd => s.mapperStep .parallel .dec (lane % s.cfg.nLanes) pick s.len

/-- One internal step (R192). While no command runs none is enabled. -/
def State.coreStep (lane pick : Nat) (s : State) : State :=
  match s.seq.stage with
  | .waiting => s
  | .check => s.checkStep
  | .datapath =>
    match decode s.seq.op with
    | .error _ => s.finishWith (.error .illegalCmd)
    | .ok i => s.datapathStep i lane pick
  | .finish r => s.complete r

/-- A sequence of internal steps with their choices of lane and block. -/
def State.coreSteps (choices : List (Nat × Nat)) (s : State) : State :=
  choices.foldl (fun t c => t.coreStep c.1 c.2) s

/-! ## Finishing a command that is under way

The merged step of a command whose check step has been taken is the internal steps it has left, in one fixed order
(R192; log 2): each block taken is still written exactly once (R180). -/

/-- The steps of lane `l` until its engine rests: the block it holds is finished and written. -/
def State.drainLane (l : Nat) : Nat → State → State
  | 0, s => s
  | n + 1, s => if (s.engine l).stage = .idle then s else State.drainLane l n (s.coreStep l 0)

/-- Lane after lane finishes the block it holds. A block has at most 65 steps left after it is taken (R197). -/
def State.drainLanes (s : State) : State := (List.range s.cfg.nLanes).foldl (fun t l => t.drainLane l 65) s

/-- The steps on lane 0, blocks in order, until the command has completed. -/
def State.finishOnLane0 : Nat → State → State
  | 0, s => s
  | n + 1, s => if s.seq.phase = .idle then s else State.finishOnLane0 n (s.coreStep 0 0)

/-- All internal steps left of a command that is under way: the blocks the engines hold, the blocks left in TODO at 66
steps each, and at most three steps more (R197). -/
def State.finishCommand (s : State) : State :=
  State.finishOnLane0 (66 * s.drainLanes.seq.todo.length + 3) s.drainLanes

end Sys2Proof.Machine
end

