-- ==== Sys2Proof/Machine/Events.lean ====
section
/-! DEFINITION. The transition system (R15, R246): what one event does. `step` (Step.lean) takes the next event of the
agenda, or, when nothing is left to happen, lets a running command finish. -/

namespace Sys2Proof.Machine

/-- The command byte the core runs: SEQ.OP, which acceptance latched (R24, R42). Nothing else is fetched (R22). -/
def State.fetch (s : State) : Byte := s.seq.op

/-- All internal steps left in the running command, merged into one (R192). Of a command just accepted that is its
meaning, or ILLEGAL_CMD for a reserved opcode (R195); of one under way, the steps it has left. While no command runs no
internal step is enabled. -/
def State.runCommand (s : State) : Host.Outcome State Fault Refusal :=
  match s.seq.phase with
  | .idle => .next s
  | .run =>
    match s.seq.stage with
    | .check =>
      match decode s.fetch with
      | .ok i => exec i s
      | .error _ => execReserved s
    | .waiting => .next s.finishCommand
    | .datapath => .next s.finishCommand
    | .finish _ => .next s.finishCommand

/-- One event in a step in which `rst` = 1 (R230): the core is held in its reset state, writes have no effect, reads
return 0x00. Only the host ends it. -/
def State.inReset (e : Event) (s : State) : State :=
  match e with
  | .rst false => { s.resetTo with rst := false }
  | .rst true => s.resetTo
  | .write _ _ => s.resetTo
  | .read _ => s.resetTo
  | .core _ _ => s.resetTo
  | .run => s.resetTo

/-- One event while `rst` = 0 and a reset has been seen. -/
def State.outOfReset (e : Event) (s : State) : Host.Outcome State Fault Refusal :=
  match e with
  | .rst true => .next s.resetTo
  | .rst false => .next s
  | .write a w => .next (s.busWrite a w)
  | .read a => .next (s.busRead a)
  | .core lane pick => .next (s.coreStep lane pick)
  | .run => s.runCommand

/-- One event before the first reset (R47, R234): only asserting reset has a meaning. -/
def State.beforeReset (e : Event) (s : State) : Host.Outcome State Fault Refusal :=
  match e with
  | .rst true => .next s.resetTo
  | .rst false => .refused .beforeFirstReset
  | .write _ _ => .refused .beforeFirstReset
  | .read _ => .refused .beforeFirstReset
  | .core _ _ => .refused .beforeFirstReset
  | .run => .refused .beforeFirstReset

/-- One event. Reset has priority over every host transaction and internal step (R230). -/
def State.perform (e : Event) (s : State) : Host.Outcome State Fault Refusal :=
  if s.rst then .next (s.inReset e)
  else if s.resetSeen then s.outOfReset e
  else s.beforeReset e

/-- The next transition: the first event of the agenda. With no event left a running command still completes (R197) and an
idle core keeps its state (R222), which is what the event `run` does. -/
def State.transition (s : State) : Host.Outcome State Fault Refusal :=
  match s.agenda with
  | [] => s.perform .run
  | e :: rest => { s with agenda := rest }.perform e

/-- The state in which the very next transition runs the command byte `w`: acceptance of `w` (R190) has happened and the
merged step is the next event. -/
def State.withCommand (s : State) (w : Byte) : State :=
  { ({ s with rst := false, resetSeen := true } : State).accept w with agenda := .run :: s.agenda }

end Sys2Proof.Machine
end

