-- ==== Sys2Proof/Machine/Step.lean ====
section
/-! DEFINITION. One step of the machine, and the state whose next step runs a given command. -/

namespace Sys2Proof.Machine

/-- One step: one event of the transition system (R15, R246). -/
def step (s : State) : Host.Outcome State Fault Refusal := s.transition

/-- The command byte of a table row placed where the next step runs it: SEQ.OP, by acceptance (R190; log 15). -/
def State.withFetchWord (s : State) (nbits w : Nat) : State := s.withCommand (BitVec.ofNat 8 (w % 2 ^ nbits))

end Sys2Proof.Machine
end

