-- ==== Sys2Proof/WellFormed.lean ====
section
/-! DEFINITION. Which commands and host programs are well formed. -/

namespace Sys2Proof

/-- A command has no register, immediate, mode or length field (R100), so there is nothing a check could refuse: every
term of `Instr` is well formed. -/
def Instr.wf : Instr → Bool
  | .nop => true
  | .loadkey => true
  | .encb => true
  | .decb => true
  | .ecbe => true
  | .ecbd => true
  | .pecbe => true
  | .pecbd => true

/-- How many bytes an array of the notation has (R109, R31 to R36). For the buffers it is the window's length, whatever
BUF_BYTES is (R73). -/
def ArrName.size : ArrName → Nat
  | .len => 4
  | .outLen => 4
  | .keyIn => 16
  | .blockIn => 8
  | .blockOut => 8
  | .inBuf => 4096
  | .outBuf => 4096

/-- A location names a byte that its array has (R109: `LEN[k]` for k = 0..3, and so on). -/
def Loc.wf : Loc → Bool
  | .reg _ => true
  | .elem a i => decide (i < a.size)
  | .hex _ => true

/-- A primitive statement's locations are well formed. -/
def Prim.wf : Prim → Bool
  | .wr l _ => l.wf
  | .rd l _ => l.wf
  | .reset => true
  | .label _ => true
  | .ifGoto _ _ _ _ => true
  | .setBe _ _ _ => true

/-- A statement stays inside the array it names (R110): a run of `n` bytes from byte `t` has `t + n <= size`. -/
def Stmt.wf : Stmt → Bool
  | .prim p => p.wf
  | .cmd i => i.wf
  | .wrs a t bytes => decide (t + bytes.length ≤ a.size)
  | .wrsVar a t _ n => decide (t + n ≤ a.size)
  | .wr32Len _ => true
  | .rds a t n _ => decide (t + n ≤ a.size)
  | .rd32OutLen _ _ => true
  | .wait => true
  | .ack => true

/-- The labels a program defines, in order. -/
def labelsOf : List Stmt → List Label
  | [] => []
  | .prim (.label l) :: rest => l :: labelsOf rest
  | _ :: rest => labelsOf rest

/-- The labels a program's IF statements name. -/
def targetsOf : List Stmt → List Label
  | [] => []
  | .prim (.ifGoto _ _ _ l) :: rest => l :: targetsOf rest
  | _ :: rest => targetsOf rest

/-- A label the program writes itself, not one that WAIT makes. -/
def Label.isNamed : Label → Bool
  | .named _ => true
  | .wait _ => false

/-- A host program is well formed when each statement is (R109, R110), every label is the program's own and defined once, and
every IF names a label the program defines. The spec gives a label that is defined twice, or not at all, no meaning and does
not call such a program wrong: to refuse it here is the model's choice (DESIGN CHOICE, log 23). -/
def Program.wf (p : List Stmt) : Bool :=
  p.all Stmt.wf && (labelsOf p).all Label.isNamed && decide (labelsOf p).Nodup
    && (targetsOf p).all (fun l => (labelsOf p).contains l)

end Sys2Proof
end

