-- ==== Sys2Proof/Machine/HostProgram.lean ====
section
/-! DEFINITION. Host programs (30_encoding.md R109 to R111): the expansion of the pseudo-instructions, the bus transactions
a program issues, and the host's own control flow. The host is outside the core (R20): it reaches the core only through
`State.perform`, like any agenda of events (log 23). -/

namespace Sys2Proof.Machine

/-! ## Names and expansion -/

/-- The host address of a single-byte register (R23). -/
def RegName.addr : RegName → Nat
  | .cmd => 0x0000
  | .status => 0x0001
  | .err => 0x0002
  | .ctrl => 0x0003
  | .keylen => 0x0004
  | .keycfg => 0x0005

/-- The host address of byte 0 of an array (R23, R73). -/
def ArrName.base : ArrName → Nat
  | .len => 0x0008
  | .outLen => 0x000C
  | .keyIn => 0x0010
  | .blockIn => 0x0020
  | .blockOut => 0x0028
  | .inBuf => inBase
  | .outBuf => outBase

/-- `addr(loc)` (R109). -/
def Loc.addr : Loc → Addr
  | .reg r => BitVec.ofNat 14 (RegName.addr r)
  | .elem a i => BitVec.ofNat 14 (ArrName.base a + i)
  | .hex a => a

/-- The primitive statements a statement stands for (R110). `n` is the statement's place in its program, which names the
label of its WAIT loop. -/
def Stmt.expand (n : Nat) : Stmt → List Prim
  | .prim p => [p]
  | .cmd i => [.wr (.reg .cmd) (.lit (encode i))]
  | .wrs a t bytes => (List.range bytes.length).map fun m => .wr (.elem a (t + m)) (.lit (bytes.getD m 0))
  | .wrsVar a t v k => (List.range k).map fun m => .wr (.elem a (t + m)) (.var ⟨v, some m⟩)
  | .wr32Len (.lit v) => (List.range 4).map fun k => .wr (.elem .len k) (.lit (bytesBe v 4 k))
  | .wr32Len (.var v) => (List.range 4).map fun k => .wr (.elem .len k) (.slice ⟨v, none⟩ (8 * (3 - k)))
  | .rds a t k v => (List.range k).map fun m => .rd (.elem a (t + m)) ⟨v, some m⟩
  | .rd32OutLen v b => ((List.range 4).map fun m => .rd (.elem .outLen m) ⟨b, some m⟩) ++ [.setBe v b 4]
  | .wait =>
    [.label (.wait n), .rd (.reg .status) ⟨"s", none⟩, .ifGoto ⟨"s", none⟩ 1 false (.wait n)]
  | .ack => [.wr (.reg .status) (.lit 0x0E)]

/-- The primitive statements of a program whose first statement has place `n`. -/
def expandFrom (n : Nat) : List Stmt → List Prim
  | [] => []
  | p :: rest => Stmt.expand n p ++ expandFrom (n + 1) rest

/-- The primitive statements of a program (R110). -/
def expandProgram (p : List Stmt) : List Prim := expandFrom 0 p

/-! ## Transactions -/

/-- One line of a program's encoding (R111). -/
inductive Txn
  | write (a : Addr) (w : Byte)
  | read (a : Addr)
  /-- `RST`: a reset pulse -/
  | pulse
  deriving DecidableEq, Repr

/-- The events of a transaction: a pulse asserts reset and then deasserts it (R109). -/
def Txn.events : Txn → List Event
  | .write a w => [.write a w]
  | .read a => [.read a]
  | .pulse => [.rst true, .rst false]

/-- One hexadecimal digit. -/
def hexDigit (n : Nat) : String :=
  ["0", "1", "2", "3", "4", "5", "6", "7", "8", "9", "A", "B", "C", "D", "E", "F"].getD n "0"

/-- The last `k` hexadecimal digits of a number. -/
def hexDigits : Nat → Nat → String
  | 0, _ => ""
  | k + 1, n => hexDigits k (n / 16) ++ hexDigit (n % 16)

/-- The line of a transaction: `W aaaa dd`, `R aaaa` or `RST` (R111). -/
def Txn.line : Txn → String
  | .write a w => "W " ++ hexDigits 4 a.toNat ++ " " ++ hexDigits 2 w.toNat
  | .read a => "R " ++ hexDigits 4 a.toNat
  | .pulse => "RST"

/-! ## The host -/

/-- A running host program: its primitive statements, the next one's place, and the variables written so far, newest
first. -/
structure HostRun where
  prog : List Prim
  pc : Nat
  vars : List (HostVar × Nat)
  deriving DecidableEq, Repr

/-- The value of a host variable, if the program has written it. -/
def HostRun.lookup (h : HostRun) (v : HostVar) : Option Nat := (h.vars.find? fun p => p.1 = v).map Prod.snd

/-- The byte a WR statement writes, if it is defined. The spec does not say what WR writes of a variable that holds more
than a byte, as RD32 makes: the model writes its low 8 bits (DESIGN CHOICE, log 23). -/
def HostRun.byteOf (h : HostRun) : ByteSrc → Option Byte
  | .lit b => some b
  | .var v => (h.lookup v).map (BitVec.ofNat 8)
  | .slice v lo => (h.lookup v).map fun x => BitVec.ofNat 8 (x >>> lo)

/-- `be(b[0..n-1])` of the host's variables `b[0]`, ..., if they are all defined (R110, R14). -/
def HostRun.beOf (h : HostRun) (b : String) : Nat → Option Nat
  | 0 => some 0
  | n + 1 =>
    match h.beOf b n, h.lookup ⟨b, some n⟩ with
    | some x, some y => some (256 * x + y % 256)
    | _, _ => none

/-- The place of a label. The spec does not say what a label means that two lines carry: the model takes the first of them
(DESIGN CHOICE, log 23). -/
def HostRun.place (h : HostRun) (l : Label) : Option Nat := h.prog.findIdx? fun p => p = .label l

/-- The transaction the next statement issues, if it issues one (R111). -/
def HostRun.txn (h : HostRun) : Option Txn :=
  match h.prog[h.pc]? with
  | some (.wr l b) => (h.byteOf b).map (Txn.write (Loc.addr l))
  | some (.rd l _) => some (.read (Loc.addr l))
  | some .reset => some .pulse
  | some (.label _) => none
  | some (.ifGoto _ _ _ _) => none
  | some (.setBe _ _ _) => none
  | none => none

/-- The host after its next statement, which returned `rdata` if it was a read. A host whose program is over, or which
uses a variable or a label that nothing defines, stays where it is. -/
def HostRun.after (h : HostRun) (rdata : Byte) : HostRun :=
  match h.prog[h.pc]? with
  | some (.wr _ b) => if (h.byteOf b).isSome then { h with pc := h.pc + 1 } else h
  | some (.rd _ v) => { h with pc := h.pc + 1, vars := (v, rdata.toNat) :: h.vars }
  | some .reset => { h with pc := h.pc + 1 }
  | some (.label _) => { h with pc := h.pc + 1 }
  | some (.ifGoto v bit value target) =>
    match h.lookup v with
    | some x => if x.testBit bit = value then { h with pc := (h.place target).getD h.pc } else { h with pc := h.pc + 1 }
    | none => h
  | some (.setBe v b n) =>
    match h.beOf b n with
    | some x => { h with pc := h.pc + 1, vars := (⟨v, none⟩, x) :: h.vars }
    | none => h
  | none => h

/-- Perform events one after another, stopping at a refusal. -/
def State.performAll : List Event → State → Host.Outcome State Fault Refusal
  | [], s => .next s
  | e :: es, s =>
    match s.perform e with
    | .next t => State.performAll es t
    | .fault r => .fault r
    | .refused r => .refused r

/-- Who moves next in a system of one host and the core (R15, R71). -/
inductive Turn
  /-- the host's next statement -/
  | host
  /-- one internal step of the core -/
  | core (lane pick : Nat)
  /-- all internal steps left, merged -/
  | run
  deriving DecidableEq, Repr

/-- What reaches the core: a transaction of the host, or its own internal steps. -/
inductive Act
  | bus (x : Txn)
  | core (lane pick : Nat)
  | run
  deriving DecidableEq, Repr

/-- The events of an act. -/
def Act.events : Act → List Event
  | .bus x => x.events
  | .core lane pick => [.core lane pick]
  | .run => [.run]

/-- The transaction of an act of the host. -/
def Act.txn : Act → Option Txn
  | .bus x => some x
  | .core _ _ => none
  | .run => none

/-- The act of a turn: the host's next statement may issue none (R111). -/
def Turn.act (t : Turn) (h : HostRun) : Option Act :=
  match t with
  | .host => h.txn.map Act.bus
  | .core lane pick => some (.core lane pick)
  | .run => some .run

/-- The host after a turn that left `rdata` on the bus: only a turn of its own moves it. -/
def Turn.hostAfter (t : Turn) (h : HostRun) (rdata : Byte) : HostRun :=
  match t with
  | .host => h.after rdata
  | .core _ _ => h
  | .run => h

/-- One turn of a system of one host and the core: a host transaction is atomic, and internal steps fall between any two
(R71). -/
def systemTurn (t : Turn) (h : HostRun) (s : State) : Host.Outcome (HostRun × State) Fault Refusal :=
  match s.performAll (((t.act h).map Act.events).getD []) with
  | .next s' => .next (t.hostAfter h s'.rdata, s')
  | .fault r => .fault r
  | .refused r => .refused r

/-- Turns one after another, stopping at a refusal. -/
def systemTurns : List Turn → HostRun → State → Host.Outcome (HostRun × State) Fault Refusal
  | [], h, s => .next (h, s)
  | t :: ts, h, s =>
    match systemTurn t h s with
    | .next (h', s') => systemTurns ts h' s'
    | .fault r => .fault r
    | .refused r => .refused r

/-! ## The encoding of a program (R111) -/

/-- A program before its first statement. -/
def HostRun.start (p : List Stmt) : HostRun := ⟨expandProgram p, 0, []⟩

/-- What reaches the core in a run, in order, up to a turn that is refused. -/
def runActs : List Turn → HostRun → State → List Act
  | [], _, _ => []
  | t :: ts, h, s =>
    (t.act h).toList ++
      match systemTurn t h s with
      | .next (h', s') => runActs ts h' s'
      | .fault _ => []
      | .refused _ => []

/-- The transactions a run of the host issues, in the order it issues them. A WAIT issues its read of STATUS again and
again until DONE is 1; labels and IF statements issue nothing. -/
def runTxns (turns : List Turn) (h : HostRun) (s : State) : List Txn := (runActs turns h s).filterMap Act.txn

/-- The encoding of a host program (R111): the transactions its run issues, one a line. Which they are depends on the bytes
the host reads, so on the run: how the host and the core take turns, and where the core starts. -/
def encodingOf (p : List Stmt) (turns : List Turn) (s : State) : List String :=
  (runTxns turns (HostRun.start p) s).map Txn.line

end Sys2Proof.Machine
end

