-- ==== Sys2Proof/Safety.lean ====
section
/-! DEFINITION. What claims about the machine are stated in: the observable buffers, an accepted command, and the invariant
of the states a run can reach. -/

namespace Sys2Proof.Machine

/-- Every piece of state holds its value from the table of R46; the buffers list no byte, so every read of one returns a
free value. -/
structure State.AtReset (c : Config) (s : State) : Prop where
  cfg : s.cfg = c
  status : s.status.toByte = 0x00
  err : s.err = 0x00
  ctrl : s.ctrlByte = 0x00
  keylen : s.keylen = 0x00
  keycfg : s.keycfgByte = 0x00
  len : s.len = 0
  outLen : s.outLen = 0
  keyIn : ∀ (t : Nat) (h : t < 16), s.keyIn[t] = 0x00
  blockIn : ∀ (t : Nat) (h : t < 8), s.blockIn[t] = 0x00
  blockOut : ∀ (t : Nat) (h : t < 8), s.blockOut[t] = 0x00
  inBuf : ∀ draw i, s.bufByte draw (inBase + i) = Config.freeByte draw (inBase + i)
  outBuf : ∀ draw i, s.bufByte draw (outBase + i) = Config.freeByte draw (outBase + i)
  key : s.key = 0
  keyv : s.status.keyv = false
  lanes : s.engines.length = c.nLanes
  phase : s.seq.phase = .idle
  irqLow : irq s = false

/-- The core takes events: a reset has been seen and is not asserted (R47, R230). -/
structure State.Ready (s : State) : Prop where
  rstLow : s.rst = false
  resetSeen : s.resetSeen = true

/-- `s` with the event `e` about to happen, before everything else still to happen. -/
def State.facing (e : Event) (s : State) : State := { s with agenda := e :: s.agenda }

/-- What no command changes between acceptance and completion: the parameters, the registers the host writes, the pins,
the events still to happen, OVR, and the latched opcode. The engine registers, TODO, WRITTEN, the draws and the place in
the life cycle are internal and may change. -/
structure State.CommandFrame (s t : State) : Prop where
  cfg : t.cfg = s.cfg
  ovr : t.status.ovr = s.status.ovr
  ie : t.ie = s.ie
  keylen : t.keylen = s.keylen
  variant : t.variant = s.variant
  len : t.len = s.len
  keyIn : t.keyIn = s.keyIn
  blockIn : t.blockIn = s.blockIn
  op : t.seq.op = s.seq.op
  rst : t.rst = s.rst
  rdata : t.rdata = s.rdata
  resetSeen : t.resetSeen = s.resetSeen
  agenda : t.agenda = s.agenda

/-- A command has completed: SEQ is idle and waits for a command byte (R193), and no engine holds a block. -/
structure State.Completed (t : State) : Prop where
  phase : t.seq.phase = .idle
  stage : t.seq.stage = .waiting
  released : ∀ e ∈ t.engines, e.blk = none

/-- TODO and WRITTEN are as acceptance of the running command sets them (R180). -/
def State.BlocksReady (s : State) : Prop :=
  ∀ bs, s.mapperBlocks s.seq.op = some bs → s.seq.todo = bs ∧ s.seq.written = []

/-- A command byte has been accepted and its check step is next (R190, R191). -/
structure State.Accepted (s : State) : Prop where
  phase : s.seq.phase = .run
  stage : s.seq.stage = .check
  blocks : s.BlocksReady
  engines : s.engines.length = s.cfg.nLanes

/-- Every byte an ECB command will read has been written since reset (R235). -/
def State.MessageWritten (s : State) : Prop :=
  ∀ k, k < s.len.toNat → (Memory.get? s.mem (inBase + k)).isSome

/-- `OUT_BUF[8j .. 8j+7]` holds the bytes `b` (R181). -/
def State.OutBlockIs (t : State) (j : Nat) (b : Vector Byte 8) : Prop :=
  ∀ (n : Nat) (h : n < 8), Memory.get? t.mem (outBase + 8 * j + n) = some b[n]

/-- Memory is as in `s` but for the first `n` bytes of OUT_BUF (R183). -/
def State.OnlyOutBufChanged (s t : State) (n : Nat) : Prop :=
  ∀ a, ¬(outBase ≤ a ∧ a < outBase + n) → Memory.get? t.mem a = Memory.get? s.mem a

/-- The addresses whose writes a running command drops (R74): CMD, KEYLEN, KEYCFG, LEN, KEY_IN, BLOCK_IN and the IN_BUF
bytes below BUF_BYTES. -/
def operandAddress (c : Config) (a : Nat) : Prop :=
  a = 0x0000 ∨ a = 0x0004 ∨ a = 0x0005 ∨ (0x0008 ≤ a ∧ a < 0x000C) ∨ (0x0010 ≤ a ∧ a < 0x0028)
    ∨ (0x1000 ≤ a ∧ a < 0x1000 + c.bufBytes)

/-- The most internal steps a command with `blocks` blocks takes from acceptance to completion (R197). -/
def stepBound (i : Instr) (failed : Bool) (blocks : Nat) : Nat :=
  match i with
  | .nop => 3
  | .loadkey => 3
  | .encb => if failed then 3 else 66
  | .decb => if failed then 3 else 66
  | .ecbe => if failed then 3 else 66 * blocks + 2
  | .ecbd => if failed then 3 else 66 * blocks + 2
  | .pecbe => if failed then 3 else 66 * blocks + 2
  | .pecbd => if failed then 3 else 66 * blocks + 2

/-- The most internal steps the accepted command takes (R197): as a command of the opcode map, and 3 for a reserved opcode,
which fails (R195). -/
def State.stepsAllowed (s : State) : Nat :=
  match decode s.seq.op with
  | .ok i => stepBound i (s.check i).isSome s.blockCount
  | .error _ => 3

/-- The addresses that a write can list in buffer memory (R73). -/
def bufferAddress (c : Config) (a : Nat) : Prop :=
  (inBase ≤ a ∧ a < inBase + c.bufBytes) ∨ (outBase ≤ a ∧ a < outBase + c.bufBytes)

/-- The blocks of TODO and the blocks the engines hold are blocks of the command (R180). -/
def State.BlocksInRange (s : State) : Prop :=
  (∀ j ∈ s.seq.todo, j < s.blockCount) ∧ ∀ e ∈ s.engines, ∀ j, e.blk = some j → j < s.blockCount

/-- What the passed checks guarantee while the datapath of a command runs: its message fits the buffers (R205), a message
to decrypt is a whole number of blocks (R206), and the mapper stays among the blocks of the message. -/
def State.ChecksPassed (s : State) : Prop :=
  match decode s.seq.op with
  | .ok .ecbe | .ok .pecbe => s.len.toNat ≤ s.cfg.bufBytes ∧ s.BlocksInRange
  | .ok .ecbd | .ok .pecbd => s.len.toNat ≤ s.cfg.bufBytes ∧ s.len.toNat % 8 = 0 ∧ s.BlocksInRange
  | _ => True

/-- A result waiting for its completion is one of the running command, and an OUT_LEN is a whole number of blocks within
the buffer (R183, R193). -/
def State.ResultLegal (s : State) : Result → Prop
  | .nothing => True
  | .key _ => decode s.seq.op = .ok .loadkey
  | .block _ => decode s.seq.op = .ok .encb ∨ decode s.seq.op = .ok .decb
  | .length n => (∃ i, decode s.seq.op = .ok i ∧ isEcb i = true) ∧ n.toNat ≤ s.cfg.bufBytes ∧ n.toNat % 8 = 0
  | .error _ => True

/-- What holds of SEQ at each place of the life cycle (R42, R191 to R193). -/
def State.StageInv (s : State) : Prop :=
  match s.seq.stage with
  | .waiting => s.seq.phase = .idle
  | .check => s.seq.phase = .run ∧ s.BlocksReady
  | .datapath => s.seq.phase = .run ∧ s.ChecksPassed
  | .finish r => s.seq.phase = .run ∧ s.ResultLegal r

/-- The invariant of the states a run can reach: each clause is a fact the rules promise of the state. -/
structure State.Inv (s : State) : Prop where
  /-- Buffer memory keeps its canonical form. -/
  memWf : Memory.wf s.mem
  /-- Only bytes of the two buffers are listed (R73). -/
  memRange : ∀ c ∈ s.mem, bufferAddress s.cfg c.1
  /-- There are N_LANES engines (R20). -/
  lanes : s.engines.length = s.cfg.nLanes
  /-- BUSY = 1 exactly when PHASE = RUN (R42). -/
  busyPhase : s.status.busy = true ↔ s.seq.phase = .run
  /-- DONE and BUSY never hold together (R25). -/
  doneIdle : ¬(s.status.done = true ∧ s.status.busy = true)
  /-- ERR and ERRF are clear while a command runs (R190). -/
  busyClear : s.status.busy = true → s.err = 0 ∧ s.status.errf = false
  /-- Codes 0x07 to 0xFF are never produced (R201). -/
  errTable : s.err.toNat ≤ 6
  /-- ERRF = 1 means an error code in ERR (R25). -/
  errfErr : s.status.errf = true → s.err ≠ 0
  /-- Until a LOADKEY succeeds KEY is 0 (R37, R46). -/
  noKey : s.status.keyv = false → s.key = 0
  /-- OUT_LEN is a whole number of blocks within the buffer (R183). -/
  outLen : s.outLen.toNat ≤ s.cfg.bufBytes ∧ s.outLen.toNat % 8 = 0
  /-- RC holds a round number while a schedule uses it (R151). -/
  rounds : ∀ e ∈ s.engines, e.stage = .rounds ∨ e.stage = .keygen → 1 ≤ e.rc.toNat ∧ e.rc.toNat ≤ 31
  /-- SEQ is consistent at every place of the life cycle. -/
  seqStage : s.StageInv

end Sys2Proof.Machine
end

