-- ==== Sys2Proof/Certificates/Slice0/Obligations.lean ====
section
/-! DEFINITION. The statements for the provers. `s.facing e` is the state `s` with the event `e` next, so
`step (s.facing e)` is the transition by `e`. -/

open Sys2Proof Sys2Proof.Machine

/-! ## Reset -/

/-- R46: after reset every piece of state holds the value of the table, for every choice of the parameters. That a read of
a buffer byte is a free value is the model's form of "any value" (log 7). The last two clauses are the model's: the reset
input is low again (log 14), and memory lists nothing, which is canonical (log 8). The model's own values (engine
registers, SEQ.OP, TODO, WRITTEN; log 4, log 5) are not claimed. -/
def Obligations.ResetStateHoldsTableValues : Prop :=
  ∀ c : Config, (State.resetWith c).AtReset c ∧ (State.resetWith c).rst = false
    ∧ Memory.wf (State.resetWith c).mem

/-- R8 and R9: `State.reset` is the reset state of the reference parameters, BUF_BYTES = 4096 and PAD_TRUNCATE; and for
every choice of the parameters BUF_BYTES is a multiple of 8 from 8 to 4096 and N_LANES is at least 1 (R7). -/
def Obligations.ParametersAreLegal : Prop :=
  State.reset = State.resetWith Config.reference ∧ Config.reference.bufBytes = 4096
    ∧ Config.reference.keyPolicy = .padTruncate
    ∧ ∀ c : Config, c.bufBytes % 8 = 0 ∧ 8 ≤ c.bufBytes ∧ c.bufBytes ≤ 4096 ∧ 1 ≤ c.nLanes

/-- R230, R231: asserting reset puts the core into its reset state from any state, a command running or not, the first
reset or not; and while reset is asserted every event leaves it there, a read returns 0x00, and only releasing it ends
that. Reset as a level (log 14) and the record that it was seen (log 13) are the model's; so is that `rdata` is 0x00
after the other events of reset too, where R230 speaks of reads only (log 6). -/
def Obligations.ResetOverridesEverything : Prop :=
  (∀ s : State, ∃ t, step (s.facing (.rst true)) = .next t ∧ t.AtReset s.cfg ∧ t.rst = true ∧ t.resetSeen = true
      ∧ t.agenda = s.agenda)
    ∧ ∀ (s : State) (e : Event), s.rst = true →
      ∃ t, step (s.facing e) = .next t ∧ t.AtReset s.cfg ∧ t.rdata = 0x00 ∧ t.agenda = s.agenda
        ∧ (t.rst = false ↔ e = .rst false)

/-- R47, U10: before the first reset nothing but asserting reset has a meaning. -/
def Obligations.NothingRunsBeforeFirstReset : Prop :=
  ∀ (s : State) (e : Event), s.rst = false → s.resetSeen = false → e ≠ .rst true →
    step (s.facing e) = .refused .beforeFirstReset

/-! ## Encoding -/

/-- R102, R103: a byte decodes to a command exactly when it is the command's opcode, and the bytes that decode to none are
0x08 to 0xFF. -/
def Obligations.OpcodeMapIsExact : Prop :=
  ∀ w : Byte, (∀ i, decode w = .ok i ↔ encode i = w) ∧ ((∃ e, decode w = .error e) ↔ 8 ≤ w.toNat)

/-- R102: the eight opcodes, written out from the table, and three reserved bytes. -/
def Obligations.OpcodeWordsDecode : Prop :=
  decode 0b00000000 = .ok .nop ∧ decode 0b00000001 = .ok .loadkey ∧ decode 0b00000010 = .ok .encb
    ∧ decode 0b00000011 = .ok .decb ∧ decode 0b00000100 = .ok .ecbe ∧ decode 0b00000101 = .ok .ecbd
    ∧ decode 0b00000110 = .ok .pecbe ∧ decode 0b00000111 = .ok .pecbd
    ∧ decode 0b00001000 = .error (.reservedOpcode 0x08) ∧ decode 0b10000010 = .error (.reservedOpcode 0x82)
    ∧ decode 0b11111111 = .error (.reservedOpcode 0xFF)

/-! ## Steps -/

/-- A step runs the decoded command: with a command just accepted (PHASE = RUN, the check step next) and SEQ.OP decoding
to `i`, the merged step (R192) is `exec i`, as an event of the agenda and when no event is left; and `withFetchWord` places
a command byte, accepted with the effects that CommandWriteIsAccepted states, so that the very next step is that. Of a
command under way the merged step is the steps it has left (AcceptedCommandCompletesWithinBound). -/
def Obligations.StepRunsDecodedCommand : Prop :=
  (∀ (s : State) (i : Instr), s.Ready → s.seq.phase = .run → s.seq.stage = .check → decode s.seq.op = .ok i →
      step (s.facing .run) = exec i s ∧ (s.agenda = [] → step s = exec i s))
    ∧ ∀ (s : State) (w : Byte) (i : Instr), decode w = .ok i →
      step (s.withFetchWord 8 w.toNat) = exec i (({ s with rst := false, resetSeen := true } : State).accept w)

/-- R222, R192: while no command runs the core keeps all state: no internal step, merged or not, changes it. -/
def Obligations.IdleCoreKeepsState : Prop :=
  ∀ s : State, s.Ready → s.seq.phase = .idle → s.seq.stage = .waiting →
    step (s.facing .run) = .next s ∧ (∀ lane pick, step (s.facing (.core lane pick)) = .next s)
      ∧ (s.agenda = [] → step s = .next s)

/-! ## Host writes -/

/-- R190: a write to CMD while BUSY = 0 is accepted, with exactly these effects, and irq falls; while BUSY = 1 it is not
accepted. R180 adds TODO and WRITTEN for a command that will reach the mapper, which the model reads as an ECB command
whose checks pass (log 11); `stage` is the model's (log 16). -/
def Obligations.CommandWriteIsAccepted : Prop :=
  ∀ (s : State) (w : Byte), s.Ready →
    (s.status.busy = false → ∃ t, step (s.facing (.write 0x0000 w)) = .next t ∧ irq t = false
        ∧ t = { s with
          status := { s.status with busy := true, done := false, errf := false }
          err := 0x00
          seq := { phase := .run, op := w, todo := t.seq.todo, written := t.seq.written, stage := .check } }
        ∧ (∀ i, decode w = .ok i → isEcb i = true → s.check i = none →
          t.seq.todo = List.range ((s.len.toNat + 7) / 8) ∧ t.seq.written = [])
        ∧ ((∀ i, decode w = .ok i → isEcb i = true → s.check i ≠ none) →
          t.seq.todo = s.seq.todo ∧ t.seq.written = s.seq.written))
      ∧ (s.status.busy = true →
        step (s.facing (.write 0x0000 w)) = .next { s with status := { s.status with ovr := true } })

/-- R74: while BUSY = 1 a write to an operand or to CMD only sets OVR; a write to STATUS or CTRL takes effect; every other
write is ignored. -/
def Obligations.OperandWritesWhileBusyAreDropped : Prop :=
  ∀ (s : State) (a : Addr) (w : Byte), s.Ready → s.status.busy = true →
    (operandAddress s.cfg a.toNat →
        step (s.facing (.write a w)) = .next { s with status := { s.status with ovr := true } })
      ∧ (a = 0x0001 → step (s.facing (.write a w)) = .next { s with status := { s.status with
          done := s.status.done && !w.getLsbD 1
          errf := s.status.errf && !w.getLsbD 2
          ovr := s.status.ovr && !w.getLsbD 3 } })
      ∧ (a = 0x0003 → step (s.facing (.write a w)) = .next { s with ie := w.getLsbD 0 })
      ∧ (¬operandAddress s.cfg a.toNat → a ≠ 0x0001 → a ≠ 0x0003 → step (s.facing (.write a w)) = .next s)

/-- R72, R73, R82: a write to a read-only location (ERR, OUT_LEN, BLOCK_OUT, OUT_BUF), to a reserved location, or to an
IN_BUF offset at or above BUF_BYTES is ignored and never sets OVR, whether or not a command runs. -/
def Obligations.ReadOnlyAndReservedWritesAreIgnored : Prop :=
  ∀ (s : State) (a : Addr) (w : Byte), s.Ready →
    (a.toNat = 0x0002 ∨ a.toNat = 0x0006 ∨ a.toNat = 0x0007 ∨ (0x000C ≤ a.toNat ∧ a.toNat < 0x0010)
      ∨ (0x0028 ≤ a.toNat ∧ a.toNat < 0x1000) ∨ (0x1000 + s.cfg.bufBytes ≤ a.toNat ∧ a.toNat < 0x2000)
      ∨ 0x2000 ≤ a.toNat) →
    step (s.facing (.write a w)) = .next s

/-- R26: what a write to STATUS does, whether or not BUSY is 1; 0x00 changes nothing, 0x0E clears the three sticky bits. -/
def Obligations.StatusWriteClearsMarkedBits : Prop :=
  ∀ (s : State) (w : Byte), s.Ready → ∃ t, step (s.facing (.write 0x0001 w)) = .next t
    ∧ t = { s with status := { s.status with
        done := s.status.done && !w.getLsbD 1
        errf := s.status.errf && !w.getLsbD 2
        ovr := s.status.ovr && !w.getLsbD 3 } }
    ∧ (w = 0x00 → t = s)
    ∧ (w = 0x0E → t.status.done = false ∧ t.status.errf = false ∧ t.status.ovr = false)

/-- R28: CTRL stores bit 0 (IE), whether or not BUSY is 1; bits 7:1 read 0. -/
def Obligations.CtrlStoresInterruptEnable : Prop :=
  ∀ (s : State) (w : Byte), s.Ready → ∃ t, step (s.facing (.write 0x0003 w)) = .next t
    ∧ t = { s with ie := w.getLsbD 0 }
    ∧ step (t.facing (.read 0x0003)) = .next { t with rdata := w &&& 0x01, draws := t.draws + 1 }

/-- R29, R30, R23: while BUSY = 0 a write to KEYLEN stores all eight bits and a write to KEYCFG stores bit 0 (VARIANT);
both read back, with KEYCFG's bits 7:1 as 0. -/
def Obligations.KeyControlRegistersReadBack : Prop :=
  ∀ (s : State) (w : Byte), s.Ready → s.status.busy = false →
    (∃ t, step (s.facing (.write 0x0004 w)) = .next t ∧ t = { s with keylen := w }
        ∧ step (t.facing (.read 0x0004)) = .next { t with rdata := w, draws := t.draws + 1 })
      ∧ ∃ t, step (s.facing (.write 0x0005 w)) = .next t ∧ t = { s with variant := w.getLsbD 0 }
        ∧ step (t.facing (.read 0x0005)) = .next { t with rdata := w &&& 0x01, draws := t.draws + 1 }

/-- R31, R77: while BUSY = 0 a write to 0x0008 + k replaces byte k of LEN, big-endian, and nothing else; and LEN is the
four bytes that reads of 0x0008 to 0x000B return, the first one most significant. -/
def Obligations.LenBytesAreBigEndian : Prop :=
  ∀ (s : State) (k : Nat) (w : Byte), s.Ready → s.status.busy = false → k < 4 →
    ∃ t, step (s.facing (.write (BitVec.ofNat 14 (0x0008 + k)) w)) = .next t ∧ t = { s with len := t.len }
      ∧ (∀ m, m < 4 → t.readValue (BitVec.ofNat 14 (0x0008 + m)) =
          if m = k then w else s.readValue (BitVec.ofNat 14 (0x0008 + m)))
      ∧ t.len = (t.readValue 0x0008 ++ t.readValue 0x0009 ++ t.readValue 0x000A ++ t.readValue 0x000B : BitVec 32)

/-- R33, R34: while BUSY = 0 a write to KEY_IN[t] or BLOCK_IN[t] stores the byte there and nowhere else. -/
def Obligations.StagingWindowsStoreBytes : Prop :=
  ∀ (s : State) (w : Byte), s.Ready → s.status.busy = false →
    (∀ (n : Nat) (h : n < 16),
        step (s.facing (.write (BitVec.ofNat 14 (0x0010 + n)) w)) = .next { s with keyIn := s.keyIn.set n w })
      ∧ ∀ (n : Nat) (h : n < 8),
        step (s.facing (.write (BitVec.ofNat 14 (0x0020 + n)) w)) = .next { s with blockIn := s.blockIn.set n w }

/-- R73: while BUSY = 0 a write to IN_BUF[i] below BUF_BYTES stores the byte: it reads back, every other byte of the
buffers is as before, memory keeps its canonical form, and nothing else changes. -/
def Obligations.InBufWriteReadsBack : Prop :=
  ∀ (s : State) (i : Nat) (w : Byte), s.Ready → s.status.busy = false → i < s.cfg.bufBytes →
    ∃ t, step (s.facing (.write (BitVec.ofNat 14 (0x1000 + i)) w)) = .next t ∧ t = { s with mem := t.mem }
      ∧ Memory.get? t.mem (0x1000 + i) = some w
      ∧ (∀ a, a ≠ 0x1000 + i → Memory.get? t.mem a = Memory.get? s.mem a)
      ∧ (Memory.wf s.mem → Memory.wf t.mem)
      ∧ step (t.facing (.read (BitVec.ofNat 14 (0x1000 + i)))) = .next { t with rdata := w, draws := t.draws + 1 }

/-! ## Host reads -/

/-- R75, R23, R73, R82: a read changes nothing but `rdata` (and the model's count of free values, log 7), and returns what
the address names: a register's value, a buffer byte, a free value where any value is allowed, 0x00 where nothing is. -/
def Obligations.ReadsReturnWhatTheAddressNames : Prop :=
  ∀ (s : State) (a : Addr), s.Ready → ∃ v : Byte,
    step (s.facing (.read a)) = .next { s with rdata := v, draws := s.draws + 1 }
      ∧ (a.toNat = 0x0000 → v = 0x00)
      ∧ (a.toNat = 0x0001 → v = s.status.toByte)
      ∧ (a.toNat = 0x0002 → v = s.err)
      ∧ (a.toNat = 0x0003 → v = if s.ie then 0x01 else 0x00)
      ∧ (a.toNat = 0x0004 → v = s.keylen)
      ∧ (a.toNat = 0x0005 → v = if s.variant then 0x01 else 0x00)
      ∧ (∀ k, k < 4 → a.toNat = 0x0008 + k → v = s.len.extractLsb' (8 * (3 - k)) 8)
      ∧ (∀ k, k < 4 → a.toNat = 0x000C + k → v = s.outLen.extractLsb' (8 * (3 - k)) 8)
      ∧ (∀ (n : Nat) (h : n < 16), a.toNat = 0x0010 + n → v = s.keyIn[n])
      ∧ (∀ (n : Nat) (h : n < 8), a.toNat = 0x0020 + n → v = s.blockIn[n])
      ∧ (∀ (n : Nat) (h : n < 8), a.toNat = 0x0028 + n → v = s.blockOut[n])
      ∧ (0x1000 ≤ a.toNat ∧ a.toNat < 0x1000 + s.cfg.bufBytes →
          v = (Memory.get? s.mem a.toNat).getD (Config.freeByte s.draws a.toNat))
      ∧ (0x2000 ≤ a.toNat ∧ a.toNat < 0x2000 + s.cfg.bufBytes →
          v = if s.ecbRunning then Config.freeByte s.draws a.toNat
            else (Memory.get? s.mem a.toNat).getD (Config.freeByte s.draws a.toNat))
      ∧ (a.toNat = 0x0006 ∨ a.toNat = 0x0007 ∨ (0x0030 ≤ a.toNat ∧ a.toNat < 0x1000)
          ∨ (0x1000 + s.cfg.bufBytes ≤ a.toNat ∧ a.toNat < 0x2000)
          ∨ (0x2000 + s.cfg.bufBytes ≤ a.toNat ∧ a.toNat < 0x3000) ∨ 0x3000 ≤ a.toNat → v = 0x00)

/-- R75: the reads that return any value while a command runs are those of an ECB command: BUSY = 1 and SEQ.OP one of
0x04 to 0x07. -/
def Obligations.EcbRunningMeansAnEcbOpcode : Prop :=
  ∀ s : State, s.ecbRunning = true ↔ s.status.busy = true ∧ 4 ≤ s.seq.op.toNat ∧ s.seq.op.toNat ≤ 7

/-- R25: the bits of the byte a read of STATUS returns. -/
def Obligations.StatusByteLayout : Prop :=
  ∀ f : Status, f.toByte.getLsbD 0 = f.busy ∧ f.toByte.getLsbD 1 = f.done ∧ f.toByte.getLsbD 2 = f.errf
    ∧ f.toByte.getLsbD 3 = f.ovr ∧ f.toByte.getLsbD 4 = f.keyv ∧ f.toByte.getLsbD 5 = false
    ∧ f.toByte.getLsbD 6 = false ∧ f.toByte.getLsbD 7 = false

/-- R214: irq is 1 exactly while DONE and IE are 1, and 0 during and after reset. And R215: writing IE = 1 while DONE = 1
raises it at once; writing 1 to STATUS bit 1 clears it; IE = 0 holds it at 0 without losing DONE. -/
def Obligations.InterruptFollowsDoneAndEnable : Prop :=
  ∀ s : State, (irq s = true ↔ s.status.toByte.getLsbD 1 = true ∧ s.ctrlByte.getLsbD 0 = true)
    ∧ (∃ t, step (s.facing (.rst true)) = .next t ∧ irq t = false)
    ∧ (s.rst = true → ∃ t, step (s.facing (.rst false)) = .next t ∧ irq t = false)
    ∧ (s.Ready → s.status.done = true →
        (∃ t, step (s.facing (.write 0x0003 0x01)) = .next t ∧ irq t = true)
          ∧ (∃ t, step (s.facing (.write 0x0001 0x02)) = .next t ∧ irq t = false)
          ∧ ∃ t, step (s.facing (.write 0x0003 0x00)) = .next t ∧ irq t = false ∧ t.status.done = true)

/-! ## Commands without a block -/

/-- R194 on `exec`: NOP completes in every state, with ERR = 0 and nothing else of the results changed. -/
def Obligations.NopCompletes : Prop :=
  ∀ s : State, ∃ t, exec .nop s = .next t ∧ t.Completed ∧ s.CommandFrame t
    ∧ t.status = { s.status with busy := false, done := true } ∧ t.err = 0x00
    ∧ t.key = s.key ∧ t.blockOut = s.blockOut ∧ t.outLen = s.outLen ∧ t.mem = s.mem

/-- R194: NOP from the write of its opcode 0x00 to completion. Acceptance sets BUSY and clears DONE, ERRF and ERR;
completion clears BUSY and sets DONE. ERR = 0, KEYV and OVR are unchanged, and with IE = 1 the interrupt rises. It does not
need KEYV and has no error. -/
def Obligations.NopLifeCycle : Prop :=
  ∀ s : State, s.Ready → s.status.busy = false →
    ∃ u t, step (s.facing (.write 0x0000 0x00)) = .next u
      ∧ u.status = { busy := true, done := false, errf := false, ovr := s.status.ovr, keyv := s.status.keyv }
      ∧ u.err = 0x00 ∧ step (u.facing .run) = .next t ∧ t.Completed
      ∧ t.status = { busy := false, done := true, errf := false, ovr := s.status.ovr, keyv := s.status.keyv }
      ∧ t.err = 0x00 ∧ irq t = s.ie
      ∧ t.key = s.key ∧ t.blockOut = s.blockOut ∧ t.outLen = s.outLen ∧ t.mem = s.mem

/-- R142, R141: LOADKEY with VARIANT = 0, and under STRICT with KEYLEN = 10, completes: byte `n` of KEY, most significant
first, is KEY_IN[n] for n < min(KEYLEN, 10) and 0x00 above; KEYV = 1, ERR = 0, and nothing else of the results changed. -/
def Obligations.LoadkeyBuildsKey : Prop :=
  ∀ s : State, s.variant = false → (s.cfg.keyPolicy = .padTruncate ∨ s.keylen = 10) →
    ∃ t, exec .loadkey s = .next t ∧ t.Completed ∧ s.CommandFrame t
      ∧ (∀ (n : Nat) (h : n < 10), t.key.extractLsb' (8 * (9 - n)) 8 =
          if n < min s.keylen.toNat 10 then s.keyIn[n]'(by omega) else 0x00)
      ∧ t.status = { s.status with busy := false, done := true, keyv := true } ∧ t.err = 0x00
      ∧ t.blockOut = s.blockOut ∧ t.outLen = s.outLen ∧ t.mem = s.mem

/-- R203, R202, R208: LOADKEY with VARIANT = 1 reports UNSUPPORTED_VARIANT whatever the policy and the count; with
VARIANT = 0, STRICT and KEYLEN other than 10 it reports KEY_FORMAT. KEY and KEYV keep their values. -/
def Obligations.LoadkeyRefusesBadKeys : Prop :=
  ∀ s : State,
    (s.variant = true → ∃ t, exec .loadkey s = .next t ∧ t.err = 0x05 ∧ t.status.errf = true
        ∧ t.key = s.key ∧ t.status.keyv = s.status.keyv)
      ∧ (s.variant = false → s.cfg.keyPolicy = .strict → s.keylen ≠ 10 →
        ∃ t, exec .loadkey s = .next t ∧ t.err = 0x01 ∧ t.status.errf = true
          ∧ t.key = s.key ∧ t.status.keyv = s.status.keyv)

/-- R195: a reserved opcode, whichever it is, is accepted like any command, clearing DONE, ERRF and ERR, and completes with
ILLEGAL_CMD: BUSY = 0, DONE = ERRF = 1, ERR = 0x03; KEY, KEYV, BLOCK_OUT, OUT_BUF and OUT_LEN are unchanged. -/
def Obligations.ReservedOpcodeReportsIllegalCommand : Prop :=
  ∀ (s : State) (w : Byte), s.Ready → s.status.busy = false → 8 ≤ w.toNat →
    ∃ u t, step (s.facing (.write 0x0000 w)) = .next u
      ∧ u.status = { busy := true, done := false, errf := false, ovr := s.status.ovr, keyv := s.status.keyv }
      ∧ u.err = 0x00 ∧ step (u.facing .run) = .next t ∧ t.Completed
      ∧ t.status = { busy := false, done := true, errf := true, ovr := s.status.ovr, keyv := s.status.keyv }
      ∧ t.err = 0x03 ∧ t.key = s.key ∧ t.blockOut = s.blockOut ∧ t.outLen = s.outLen ∧ t.mem = s.mem

/-! ## Block commands -/

/-- R163: ENCB with KEYV = 1 completes with BLOCK_OUT the bytes of Encrypt(BLOCK_IN, KEY); its frame. -/
def Obligations.EncbWritesCiphertext : Prop :=
  ∀ s : State, s.status.keyv = true →
    ∃ t, exec .encb s = .next t ∧ t.Completed ∧ s.CommandFrame t
      ∧ t.blockOut = stateToBytes (encrypt (bytesToState s.blockIn) s.key)
      ∧ t.status = { s.status with busy := false, done := true } ∧ t.err = 0x00
      ∧ t.key = s.key ∧ t.outLen = s.outLen ∧ t.mem = s.mem

/-- R164: DECB with KEYV = 1 completes with BLOCK_OUT the bytes of Decrypt(BLOCK_IN, KEY); its frame. -/
def Obligations.DecbWritesPlaintext : Prop :=
  ∀ s : State, s.status.keyv = true →
    ∃ t, exec .decb s = .next t ∧ t.Completed ∧ s.CommandFrame t
      ∧ t.blockOut = stateToBytes (decrypt (bytesToState s.blockIn) s.key)
      ∧ t.status = { s.status with busy := false, done := true } ∧ t.err = 0x00
      ∧ t.key = s.key ∧ t.outLen = s.outLen ∧ t.mem = s.mem

/-- R163 with R162: copying the BLOCK_OUT of an ENCB to BLOCK_IN and running DECB gives back the original block, and the
other way round. -/
def Obligations.EncbThenDecbRestoresBlock : Prop :=
  ∀ s : State, s.status.keyv = true →
    (∃ t u, exec .encb s = .next t ∧ exec .decb { t with blockIn := t.blockOut } = .next u ∧ u.blockOut = s.blockIn)
      ∧ ∃ t u, exec .decb s = .next t ∧ exec .encb { t with blockIn := t.blockOut } = .next u ∧ u.blockOut = s.blockIn

/-! ## ECB commands -/

/-- R175, R183: ECBE with KEYV = 1 and LEN <= BUF_BYTES completes. Block `j` of OUT_BUF is Encrypt of block `j` of the
padded message, and free bytes where an input byte below LEN has not been written (R235; log 12); OUT_LEN =
pad_len(LEN), no other byte of memory changes, and nothing else of the results does. -/
def Obligations.EcbeEncryptsMessage : Prop :=
  ∀ s : State, s.status.keyv = true → s.len.toNat ≤ s.cfg.bufBytes →
    ∃ t, exec .ecbe s = .next t ∧ t.Completed ∧ s.CommandFrame t
      ∧ (∀ j draw, 8 * j < s.len.toNat → s.blockWritten j = true →
          t.OutBlockIs j (stateToBytes (encrypt (bytesToState (s.messageBlock draw j)) s.key)))
      ∧ (∀ j, 8 * j < s.len.toNat → s.blockWritten j = false → t.OutBlockIs j (freeBlock (s.draws + 2 * j + 1) j))
      ∧ s.OnlyOutBufChanged t (8 * ((s.len.toNat + 7) / 8)) ∧ t.outLen.toNat = 8 * ((s.len.toNat + 7) / 8)
      ∧ t.status = { s.status with busy := false, done := true } ∧ t.err = 0x00
      ∧ t.key = s.key ∧ t.blockOut = s.blockOut

/-- R176, R183: ECBD with KEYV = 1, LEN <= BUF_BYTES and LEN mod 8 = 0 completes. Block `j` of OUT_BUF is Decrypt of block
`j` of the message, and free bytes where an input byte has not been written (R235; log 12); OUT_LEN = LEN, no other byte
of memory changes, and nothing else of the results does. -/
def Obligations.EcbdDecryptsMessage : Prop :=
  ∀ s : State, s.status.keyv = true → s.len.toNat ≤ s.cfg.bufBytes → s.len.toNat % 8 = 0 →
    ∃ t, exec .ecbd s = .next t ∧ t.Completed ∧ s.CommandFrame t
      ∧ (∀ j draw, 8 * j < s.len.toNat → s.blockWritten j = true →
          t.OutBlockIs j (stateToBytes (decrypt (bytesToState (s.messageBlock draw j)) s.key)))
      ∧ (∀ j, 8 * j < s.len.toNat → s.blockWritten j = false → t.OutBlockIs j (freeBlock (s.draws + 2 * j + 1) j))
      ∧ s.OnlyOutBufChanged t s.len.toNat ∧ t.outLen = s.len
      ∧ t.status = { s.status with busy := false, done := true } ∧ t.err = 0x00
      ∧ t.key = s.key ∧ t.blockOut = s.blockOut

/-- R177, R181: PECBE completes under the conditions of ECBE, with block `j` of OUT_BUF the result of block `j`, and its frame. -/
def Obligations.PecbeEncryptsMessage : Prop :=
  ∀ s : State, s.status.keyv = true → s.len.toNat ≤ s.cfg.bufBytes →
    ∃ t, exec .pecbe s = .next t ∧ t.Completed ∧ s.CommandFrame t
      ∧ (∀ j draw, 8 * j < s.len.toNat → s.blockWritten j = true →
          t.OutBlockIs j (stateToBytes (encrypt (bytesToState (s.messageBlock draw j)) s.key)))
      ∧ (∀ j, 8 * j < s.len.toNat → s.blockWritten j = false → t.OutBlockIs j (freeBlock (s.draws + 2 * j + 1) j))
      ∧ s.OnlyOutBufChanged t (8 * ((s.len.toNat + 7) / 8)) ∧ t.outLen.toNat = 8 * ((s.len.toNat + 7) / 8)
      ∧ t.status = { s.status with busy := false, done := true } ∧ t.err = 0x00
      ∧ t.key = s.key ∧ t.blockOut = s.blockOut

/-- R178, R181: PECBD completes under the conditions of ECBD, with block `j` of OUT_BUF the result of block `j`, and its frame. -/
def Obligations.PecbdDecryptsMessage : Prop :=
  ∀ s : State, s.status.keyv = true → s.len.toNat ≤ s.cfg.bufBytes → s.len.toNat % 8 = 0 →
    ∃ t, exec .pecbd s = .next t ∧ t.Completed ∧ s.CommandFrame t
      ∧ (∀ j draw, 8 * j < s.len.toNat → s.blockWritten j = true →
          t.OutBlockIs j (stateToBytes (decrypt (bytesToState (s.messageBlock draw j)) s.key)))
      ∧ (∀ j, 8 * j < s.len.toNat → s.blockWritten j = false → t.OutBlockIs j (freeBlock (s.draws + 2 * j + 1) j))
      ∧ s.OnlyOutBufChanged t s.len.toNat ∧ t.outLen = s.len
      ∧ t.status = { s.status with busy := false, done := true } ∧ t.err = 0x00
      ∧ t.key = s.key ∧ t.blockOut = s.blockOut

/-- R171, R173, R184: what a block of the padded message holds: IN_BUF's bytes below LEN, the last one written or a free
value, and the core's own zeros from LEN on. R235: the block counts as written when each of its bytes below LEN is, and
then it is the same for every draw. -/
def Obligations.MessageBlockIsPaddedInput : Prop :=
  ∀ (s : State) (j : Nat),
    (∀ (draw n : Nat) (h : n < 8),
        (8 * j + n < s.len.toNat → (s.messageBlock draw j)[n] =
          (Memory.get? s.mem (0x1000 + (8 * j + n))).getD (Config.freeByte draw (0x1000 + (8 * j + n))))
        ∧ (s.len.toNat ≤ 8 * j + n → (s.messageBlock draw j)[n] = 0x00))
      ∧ (s.blockWritten j = true ↔
        ∀ n, n < 8 → 8 * j + n < s.len.toNat → (Memory.get? s.mem (0x1000 + (8 * j + n))).isSome = true)
      ∧ (s.blockWritten j = true → ∀ draw draw', s.messageBlock draw j = s.messageBlock draw' j)

/-- R184: IN_BUF bytes at or above LEN never affect a command: with such a byte rewritten every command gives the same
state, but for that byte itself. -/
def Obligations.BytesBeyondLengthNeverMatter : Prop :=
  ∀ (i : Instr) (s : State) (k : Nat) (w : Byte), s.len.toNat ≤ k → k < 0x1000 →
    ∃ t t', exec i s = .next t ∧ exec i { s with mem := Memory.set s.mem (0x1000 + k) w } = .next t'
      ∧ t' = { t with mem := t'.mem }
      ∧ ∀ a, a ≠ 0x1000 + k → Memory.get? t'.mem a = Memory.get? t.mem a

/-- R185: block independence. Two successful ECB encryptions under one key, sequential or parallel, in any two states:
equal written input blocks give equal output blocks, whatever the rest of the messages. The same for decryption. -/
def Obligations.EqualBlocksGiveEqualBlocks : Prop :=
  ∀ (s s' : State) (j j' : Nat), s.status.keyv = true → s'.status.keyv = true → s.key = s'.key →
    s.len.toNat ≤ s.cfg.bufBytes → s'.len.toNat ≤ s'.cfg.bufBytes →
    8 * j + 8 ≤ s.len.toNat → 8 * j' + 8 ≤ s'.len.toNat →
    (∀ n, n < 8 → ∃ b, Memory.get? s.mem (inBase + 8 * j + n) = some b
        ∧ Memory.get? s'.mem (inBase + 8 * j' + n) = some b) →
    (∀ i ∈ [Instr.ecbe, .pecbe], ∀ i' ∈ [Instr.ecbe, .pecbe],
        ∃ t t' b, exec i s = .next t ∧ exec i' s' = .next t' ∧ t.OutBlockIs j b ∧ t'.OutBlockIs j' b)
      ∧ (s.len.toNat % 8 = 0 → s'.len.toNat % 8 = 0 →
        ∀ i ∈ [Instr.ecbd, .pecbd], ∀ i' ∈ [Instr.ecbd, .pecbd],
          ∃ t t' b, exec i s = .next t ∧ exec i' s' = .next t' ∧ t.OutBlockIs j b ∧ t'.OutBlockIs j' b)

/-- R182 on the merged step: in every state with canonical memory, whatever N_LANES, PECBE leaves the same final state as
ECBE, and PECBD the same as ECBD. -/
def Obligations.ParallelLeavesSequentialState : Prop :=
  ∀ s : State, Memory.wf s.mem → exec .pecbe s = exec .ecbe s ∧ exec .pecbd s = exec .ecbd s

/-- R173 as the source words it: pad, chunk, apply the cipher to every block, concatenate in order. With the message
written, the first OUT_LEN bytes of OUT_BUF are that list. -/
def Obligations.EcbeIsPadChunkEncryptConcat : Prop :=
  ∀ (s : State) (d : List Byte), s.status.keyv = true → s.len.toNat ≤ s.cfg.bufBytes → d.length = s.len.toNat →
    (∀ k, k < d.length → Memory.get? s.mem (inBase + k) = d[k]?) →
    ∃ t, exec .ecbe s = .next t
      ∧ ∀ k, k < t.outLen.toNat → Memory.get? t.mem (outBase + k) =
          ((chunk (pad d)).flatMap fun b => (stateToBytes (encrypt (be 64 b) s.key)).toList)[k]?

/-- R241 with R174 and R162: decrypting what ECBE produced, after the host has copied it to IN_BUF and set LEN = OUT_LEN,
gives back the padded message. -/
def Obligations.EcbdRestoresPaddedMessage : Prop :=
  ∀ (s t v : State) (d : List Byte), s.status.keyv = true → s.len.toNat ≤ s.cfg.bufBytes → d.length = s.len.toNat →
    (∀ k, k < d.length → Memory.get? s.mem (inBase + k) = d[k]?) → exec .ecbe s = .next t →
    v.cfg = t.cfg → v.status.keyv = t.status.keyv → v.key = t.key → v.len = t.outLen →
    (∀ k, k < t.outLen.toNat → Memory.get? v.mem (inBase + k) = Memory.get? t.mem (outBase + k)) →
    ∃ u, exec .ecbd v = .next u ∧ u.outLen.toNat = (pad d).length
      ∧ ∀ k, k < (pad d).length → Memory.get? u.mem (outBase + k) = (pad d)[k]?

/-! ## Errors -/

/-- R201, R208: the code every command reports, as the first failing check in the table's order, in any state; 0x00 means
none failed. ERRF is set exactly with a code, given that acceptance cleared it. -/
def Obligations.FirstFailingCheckIsReported : Prop :=
  ∀ (i : Instr) (s : State), s.status.errf = false → ∃ t, exec i s = .next t
    ∧ (t.status.errf = true ↔ t.err ≠ 0x00)
    ∧ t.err = (match i with
        | .nop => 0x00
        | .loadkey =>
          if s.variant then 0x05 else if s.cfg.keyPolicy = .strict ∧ s.keylen ≠ 10 then 0x01 else 0x00
        | .encb | .decb => if s.status.keyv then 0x00 else 0x04
        | .ecbe | .pecbe =>
          if s.status.keyv = false then 0x04 else if s.cfg.bufBytes < s.len.toNat then 0x06 else 0x00
        | .ecbd | .pecbd =>
          if s.status.keyv = false then 0x04 else if s.cfg.bufBytes < s.len.toNat then 0x06
          else if s.len.toNat % 8 ≠ 0 then 0x02 else (0x00 : Byte))

/-- R210: a command that reports an error changes no result: KEY, KEYV, BLOCK_OUT, OUT_LEN, every buffer byte and every
host-writable register are as before. -/
def Obligations.ErrorsLeaveNoPartialEffect : Prop :=
  ∀ (i : Instr) (s : State), ∃ t, exec i s = .next t
    ∧ (t.err ≠ 0x00 → t.Completed ∧ s.CommandFrame t
        ∧ t.status = { s.status with busy := false, done := true, errf := true }
        ∧ t.key = s.key ∧ t.blockOut = s.blockOut ∧ t.outLen = s.outLen ∧ t.mem = s.mem)

/-! ## Every schedule -/

/-- R192, R180, R182, R191: whatever lanes and blocks the internal steps pick, a command byte that has been accepted, a
reserved one too, and reaches completion step by step ends in the state of the merged step. The two agree on everything
but OUT_BUF's bytes of the blocks whose input has not been written, which are any value (R235; log 12); and exactly, unless
an ECB command has passed its checks with such a block. The merged step and the choices are the model's form (log 2,
log 17). -/
def Obligations.EveryScheduleEndsInMergedState : Prop :=
  ∀ (s : State) (choices : List (Nat × Nat)), s.Ready → s.Accepted → Memory.wf s.mem →
    (s.coreSteps choices).seq.phase = .idle →
    ∃ t, step (s.facing .run) = .next t
      ∧ s.coreSteps choices = { t with mem := (s.coreSteps choices).mem }
      ∧ (∀ a, (∀ j, j < s.blockCount → 0x2000 + 8 * j ≤ a → a < 0x2000 + 8 * j + 8 → s.blockWritten j = true) →
        Memory.get? (s.coreSteps choices).mem a = Memory.get? t.mem a)
      ∧ ((∀ i, decode s.seq.op = .ok i → isEcb i = true → s.check i = none → s.MessageWritten) →
        s.coreSteps choices = t)

/-- R197, R195: an accepted command byte, a reserved one too, reaches completion within the bound: under every schedule each
of whose steps is enabled, that is changes the state (log 17), until PHASE = IDLE, so also under the steps of lane 0 in
block order. And from wherever a schedule has brought it, the merged step is the internal steps it has left (R192), after
which it has completed. -/
def Obligations.AcceptedCommandCompletesWithinBound : Prop :=
  ∀ s : State, s.Accepted →
    (∀ choices : List (Nat × Nat),
        (∀ n, n < choices.length → (s.coreSteps (choices.take n)).seq.phase = .idle
          ∨ s.coreSteps (choices.take (n + 1)) ≠ s.coreSteps (choices.take n)) →
        s.stepsAllowed ≤ choices.length → (s.coreSteps choices).seq.phase = .idle)
      ∧ (s.coreSteps (List.replicate s.stepsAllowed (0, 0))).seq.phase = .idle
      ∧ ∀ choices : List (Nat × Nat), s.Ready → choices ≠ [] →
        ∃ rest, step ((s.coreSteps choices).facing .run) = .next (s.coreSteps (choices ++ rest))
          ∧ (s.coreSteps (choices ++ rest)).seq.phase = .idle

/-- R197, R195: no schedule of enabled internal steps of an accepted command byte, a reserved one too, is longer than the
bound, whatever lanes and blocks it picks. A step that is enabled changes the state (log 17). -/
def Obligations.NoScheduleExceedsBound : Prop :=
  ∀ (s : State) (choices : List (Nat × Nat)), s.Accepted →
    (∀ n, n < choices.length → s.coreSteps (choices.take (n + 1)) ≠ s.coreSteps (choices.take n)) →
    choices.length ≤ s.stepsAllowed

/-! ## Whole-machine rules -/

/-- The invariant holds at reset, for every choice of the parameters. -/
def Obligations.InvariantHoldsAtReset : Prop := ∀ c : Config, (State.resetWith c).Inv

/-- Every step keeps the invariant: canonical memory within the buffers, N_LANES engines, BUSY exactly while PHASE = RUN
(R42), DONE and BUSY never together (R25), ERR and ERRF clear while a command runs (R190), only the codes of R201, no key
without KEYV (R37), OUT_LEN a whole number of blocks within the buffer (R183), RC a round number while it is used (R151),
SEQ consistent at every place of the life cycle. -/
def Obligations.StepKeepsInvariant : Prop := ∀ s t : State, s.Inv → step s = .next t → t.Inv

/-- R196, R74: while a command runs and keeps running, every operand keeps its value, whatever the host does short of a
reset. -/
def Obligations.OperandsHoldWhileCommandRuns : Prop :=
  ∀ (s t : State) (e : Event), s.Ready → e ≠ .rst true → s.status.busy = true → step (s.facing e) = .next t →
    t.variant = s.variant ∧ t.keylen = s.keylen ∧ t.keyIn = s.keyIn ∧ t.len = s.len ∧ t.blockIn = s.blockIn
      ∧ (∀ a, a < 0x2000 → Memory.get? t.mem a = Memory.get? s.mem a)
      ∧ (t.status.busy = true → t.key = s.key)

/-- R32, R35, R37, R25: outside reset, KEY and KEYV change only when a LOADKEY completes (and KEYV then becomes 1),
BLOCK_OUT only when an ENCB or DECB does, OUT_LEN only when an ECB command does. -/
def Obligations.ResultsChangeOnlyAtTheirCompletion : Prop :=
  ∀ (s t : State) (e : Event), s.Inv → s.Ready → e ≠ .rst true → step (s.facing e) = .next t →
    (t.key ≠ s.key ∨ t.status.keyv ≠ s.status.keyv →
        s.status.busy = true ∧ t.status.busy = false ∧ t.status.keyv = true ∧ s.seq.op = 0x01)
      ∧ (t.blockOut ≠ s.blockOut →
        s.status.busy = true ∧ t.status.busy = false ∧ (s.seq.op = 0x02 ∨ s.seq.op = 0x03))
      ∧ (t.outLen ≠ s.outLen →
        s.status.busy = true ∧ t.status.busy = false ∧ 4 ≤ s.seq.op.toNat ∧ s.seq.op.toNat ≤ 7)

/-- R44: who sets and clears each flag. In a step that is no reset: BUSY is set only by a CMD write and cleared only by a
completion; DONE is set only by a completion and cleared only by a CMD write or a STATUS write with bit 1; ERRF is set only
by a completion with a nonzero ERR and cleared only by a CMD write or a STATUS write with bit 2; OVR is set only by a write
while BUSY = 1 and cleared only by a STATUS write with bit 3; KEYV is never cleared. -/
def Obligations.FlagsChangeOnlyAsTheRulesSay : Prop :=
  ∀ (s t : State) (e : Event), s.Inv → s.Ready → e ≠ .rst true → step (s.facing e) = .next t →
    (s.status.busy = false → t.status.busy = true → ∃ w, e = .write 0x0000 w)
      ∧ (s.status.busy = true → t.status.busy = false → t.status.done = true ∧ (e = .run ∨ ∃ l p, e = .core l p))
      ∧ (s.status.done = false → t.status.done = true → s.status.busy = true ∧ t.status.busy = false)
      ∧ (s.status.done = true → t.status.done = false →
          (∃ w, e = .write 0x0000 w) ∨ ∃ w : Byte, e = .write 0x0001 w ∧ w.getLsbD 1 = true)
      ∧ (s.status.errf = false → t.status.errf = true → s.status.busy = true ∧ t.status.busy = false ∧ t.err ≠ 0)
      ∧ (s.status.errf = true → t.status.errf = false →
          (∃ w, e = .write 0x0000 w) ∨ ∃ w : Byte, e = .write 0x0001 w ∧ w.getLsbD 2 = true)
      ∧ (s.status.ovr = false → t.status.ovr = true → s.status.busy = true ∧ ∃ a w, e = .write a w)
      ∧ (s.status.ovr = true → t.status.ovr = false → ∃ w : Byte, e = .write 0x0001 w ∧ w.getLsbD 3 = true)
      ∧ (s.status.keyv = true → t.status.keyv = true)

/-- R245: with no command accepted, DONE stays 0: no read, no internal step and no write but one to CMD sets it. So a host
that comes to a WAIT then, wherever in its program, never leaves the WAIT's loop, however the host and the core take
turns. -/
def Obligations.DoneStaysClearWithoutCommand : Prop :=
  (∀ (s t : State) (e : Event), s.Inv → s.Ready → s.status.busy = false → s.status.done = false →
      (∀ w, e ≠ .write 0x0000 w) → step (s.facing e) = .next t → t.status.done = false ∧ t.status.busy = false)
    ∧ ∀ (s : State) (h : HostRun) (before after : List Prim) (n : Nat) (turns : List Turn),
      s.Inv → s.Ready → s.status.busy = false → s.status.done = false →
      h.prog = before ++ Stmt.expand n .wait ++ after → Prim.label (.wait n) ∉ before → h.pc = before.length →
      ∃ h' s', systemTurns turns h s = .next (h', s') ∧ before.length ≤ h'.pc ∧ h'.pc < before.length + 3
        ∧ s'.status.done = false

/-! ## The cipher -/

/-- R131 with R123, R127 and R130: substitute, permute and whiten are bijections with these inverses, and the converters
invert each other. The spec marks the bijections and the converses as derived from its tables: they are its own inference,
and the tables are log 22. -/
def Obligations.LayersHaveInverses : Prop :=
  (∀ x : Block, inverseSubstitute (substitute x) = x ∧ substitute (inverseSubstitute x) = x
      ∧ inversePermute (permute x) = x ∧ permute (inversePermute x) = x ∧ bytesToState (stateToBytes x) = x)
    ∧ (∀ x k : Block, whiten (whiten x k) k = x) ∧ ∀ b : Vector Byte 8, stateToBytes (bytesToState b) = b

/-- R132: the S-layer and its inverse work lane by lane through one table, and permute moves bit `u` of nibble `m` to
position `16 u + m`, so output nibble `m` takes bit `m / 4` of input nibbles `4 (m mod 4)` to `4 (m mod 4) + 3`, input
nibble `n` landing in bit `n mod 4`. The spec marks this as derived from rule R124: it is its own inference, and the P table
is log 22. -/
def Obligations.LayersActOnNibbles : Prop :=
  ∀ (x : Block) (m : Nat), m < 16 →
    nib (substitute x) m = sbox (nib x m) ∧ nib (inverseSubstitute x) m = sboxInv (nib x m)
      ∧ ∀ u, u < 4 → pTable (4 * m + u) = 16 * u + m
        ∧ (nib (permute x) m).getLsbD u = (nib x (4 * (m % 4) + u)).getLsbD (m / 4)
        ∧ (permute x).getLsbD (16 * u + m) = (nib x m).getLsbD u

/-- R125: permute is linear over XOR. And on the values of P, which the spec supplies from general knowledge (R124; log 22):
the closed form of R124, and R133's symmetry, by which the table read from the other end of the word is the same function.
The spec marks both as derived, checked for all 64 values: they are its own inference. -/
def Obligations.PermuteIsLinearAndSymmetric : Prop :=
  (∀ a b : Block, permute (a ^^^ b) = permute a ^^^ permute b)
    ∧ ∀ i, i < 64 → 63 - pTable (63 - i) = pTable i ∧ pTable i = 16 * (i % 4) + i / 4

/-- R144 to R146: the three steps of advance, bit by bit: the register rotated left by 61, then the top nibble through the
S-box, then the counter into bits 19..15. And R147: advance is these three steps in this order, so bit by bit it is as the
last clause says. -/
def Obligations.AdvanceStepsBitByBit : Prop :=
  ∀ (kr : Key) (rc : BitVec 5) (i : Nat), i < 80 →
    ((rotateKr kr).getLsbD i = kr.getLsbD ((i + 19) % 80))
      ∧ ((substituteTop kr).getLsbD i =
          if 76 ≤ i then (sbox (kr.extractLsb' 76 4)).getLsbD (i - 76) else kr.getLsbD i)
      ∧ ((mixCounter kr rc).getLsbD i =
          if 15 ≤ i ∧ i ≤ 19 then kr.getLsbD i ^^ rc.getLsbD (i - 15) else kr.getLsbD i)
      ∧ advance kr rc = mixCounter (substituteTop (rotateKr kr)) rc
      ∧ ((advance kr rc).getLsbD i =
          if 76 ≤ i then (sbox (kr.extractLsb' 15 4)).getLsbD (i - 76)
          else if 15 ≤ i ∧ i ≤ 19 then kr.getLsbD (i + 19) ^^ rc.getLsbD (i - 15)
          else kr.getLsbD ((i + 19) % 80))

/-- R149: exactly 32 round keys; round key `r` is the top 64 bits of the register after `r` advances with counters 1 to
`r`, round key 0 those of the key; and the register after `r` rounds of encryption is that register. -/
def Obligations.RoundKeysFollowAdvance : Prop :=
  ∀ k : Key, (roundKeyList k).length = 32 ∧ krAt k 0 = k
    ∧ (∀ r, krAt k (r + 1) = advance (krAt k r) (BitVec.ofNat 5 (r + 1)))
    ∧ (∀ r, r < 32 → (roundKeyList k)[r]? = some ((krAt k r).extractLsb' 16 64))
    ∧ ∀ (x : Block) (n : Nat), (encryptRounds x k n).2 = krAt k n

/-- R150: the two words hold the register: `b[47:0] = 0`, `KR = a ‖ b[63:48]`, the counter field straddles the words, and
round_key is the word `a` (R148). -/
def Obligations.TwoWordsHoldKeyRegister : Prop :=
  ∀ kr : Key, krOfWords (krWordA kr) (krWordB kr) = kr ∧ (krWordB kr).extractLsb' 0 48 = 0
    ∧ kr.extractLsb' 15 5 = ((krWordA kr).extractLsb' 0 4 ++ (krWordB kr).extractLsb' 63 1 : BitVec 5)
    ∧ roundKey kr = krWordA kr

/-- R162: for every block and every key, decryption undoes encryption and encryption undoes decryption. The spec marks the
second equation as derived from R131, R160 and R161: it is its own inference. -/
def Obligations.DecryptInvertsEncrypt : Prop :=
  ∀ (x : Block) (k : Key), decrypt (encrypt x k) k = x ∧ encrypt (decrypt x k) k = x

/-- Section 1.1 of the test vectors: the source's known answers K1 and K4. -/
def Obligations.KnownAnswersHold : Prop :=
  encrypt 0x0000000000000000 0x00000000000000000000 = 0x5579C1387B228445
    ∧ encrypt 0xFFFFFFFFFFFFFFFF 0xFFFFFFFFFFFFFFFFFFFF = 0x3333DCD3213210D2

/-- R170: pad_len is the least multiple of 8 that is at least L, the masked sum on 32 bits for every length a buffer can
hold, and within the buffers with L; and R171: the laws of pad. -/
def Obligations.PaddingLaws : Prop :=
  (∀ n, padLen n % 8 = 0 ∧ n ≤ padLen n ∧ ∀ m, m % 8 = 0 → n ≤ m → padLen n ≤ m)
    ∧ (∀ n, n ≤ 4096 → BitVec.ofNat 32 (padLen n) = (BitVec.ofNat 32 n + 7) &&& ~~~(7 : BitVec 32))
    ∧ (∀ (c : Config) (n : Nat), n ≤ c.bufBytes → padLen n ≤ c.bufBytes)
    ∧ ∀ d : List Byte, pad (pad d) = pad d ∧ (pad d).length = padLen d.length ∧ (pad d).take d.length = d
      ∧ ∀ k, d.length ≤ k → k < padLen d.length → (pad d)[k]? = some 0x00

/-! ## Host programs -/

/-- R110, R77: performing the transactions of `WR32 LEN, v` on an idle core sets LEN to `v` and changes nothing else, with
`v` a literal or a host variable (log 23), and `ACK` clears DONE, ERRF and OVR and changes nothing else. -/
def Obligations.PseudoInstructionsSetTheirRegisters : Prop :=
  ∀ (s : State) (v : BitVec 32), s.Ready →
    (s.status.busy = false →
        s.performAll ((Stmt.expand 0 (.wr32Len (.lit v))).filterMap fun p =>
          match p with
          | .wr l (.lit b) => some (.write (Loc.addr l) b)
          | _ => none) = .next { s with len := v })
      ∧ (∀ (h : HostRun) (x : String), s.status.busy = false → h.prog = Stmt.expand 0 (.wr32Len (.var x)) → h.pc = 0 →
        h.lookup ⟨x, none⟩ = some v.toNat →
        systemTurns [.host, .host, .host, .host] h s = .next ({ h with pc := 4 }, { s with len := v }))
      ∧ s.performAll ((Stmt.expand 0 .ack).filterMap fun p =>
          match p with
          | .wr l (.lit b) => some (.write (Loc.addr l) b)
          | _ => none) = .next { s with status := { s.status with done := false, errf := false, ovr := false } }
end

