-- ==== Sys2Proof/Laws/Bits.lean ====
section
/-! SUPPORT. What the bit-field helpers and the bit-layer primitives do, bit by bit: later proofs cite these lemmas and
never unfold the loops. -/

namespace Sys2Proof.Machine

/-! ## Slices and bytes -/

theorem getLsbD_setSlice {w n : Nat} (v : BitVec w) (lo : Nat) (x : BitVec n) (i : Nat) :
    (setSlice v lo x).getLsbD i =
      if lo ≤ i ∧ i < lo + n then decide (i < w) && x.getLsbD (i - lo) else v.getLsbD i := by
  unfold setSlice
  simp only [BitVec.getLsbD_or, BitVec.getLsbD_and, BitVec.getLsbD_not, BitVec.getLsbD_shiftLeft,
    BitVec.getLsbD_setWidth, BitVec.getLsbD_allOnes]
  by_cases hw : i < w
  · by_cases h1 : lo ≤ i
    · by_cases h2 : i < lo + n
      · have h3 : i - lo < n := by omega
        have h4 : i - lo < w := by omega
        simp [hw, h1, h2, h3, h4, Nat.not_lt.mpr h1]
      · have h3 : ¬ i - lo < n := by omega
        have h4 : x.getLsbD (i - lo) = false := BitVec.getLsbD_of_ge _ _ (by omega)
        simp [hw, h2, h3, h4]
    · have h2 : i < lo := by omega
      simp [hw, h1, h2]
  · have h5 : v.getLsbD i = false := BitVec.getLsbD_of_ge _ _ (by omega)
    simp [hw, h5]

theorem getLsbD_nib (x : Block) (n i : Nat) : (nib x n).getLsbD i = (decide (i < 4) && x.getLsbD (4 * n + i)) := by
  simp [nib, BitVec.getLsbD_extractLsb']

theorem getLsbD_bytesBe {w : Nat} (v : BitVec w) (n t i : Nat) :
    (bytesBe v n t).getLsbD i = (decide (i < 8) && v.getLsbD (8 * (n - 1 - t) + i)) := by
  simp [bytesBe, BitVec.getLsbD_extractLsb']

/-- One more byte at the end moves the value up by eight bits. -/
theorem be_append_singleton (w : Nat) (bs : List Byte) (b : Byte) :
    be w (bs ++ [b]) = (be w bs <<< 8) ||| b.setWidth w := by
  simp [be]

/-- Bit `i` of `be(b)` is bit `i mod 8` of the byte that lies `i / 8` bytes from the end (R14, R129). -/
theorem getLsbD_be (w : Nat) (bs : List Byte) (i : Nat) :
    (be w bs).getLsbD i = (decide (i < w) && (bs.reverse.getD (i / 8) 0).getLsbD (i % 8)) := by
  induction bs using List.reverseRecOn generalizing i with
  | nil => simp [be]
  | append_singleton bs b ih =>
    rw [be_append_singleton]
    simp only [BitVec.getLsbD_or, BitVec.getLsbD_shiftLeft, BitVec.getLsbD_setWidth, ih, List.reverse_append,
      List.reverse_singleton, List.singleton_append]
    by_cases hw : i < w
    · by_cases h8 : i < 8
      · have h0 : i / 8 = 0 := by omega
        have hm : i % 8 = i := by omega
        simp [hw, h8, h0, hm]
      · have h1 : i / 8 = (i - 8) / 8 + 1 := by omega
        have h2 : i % 8 = (i - 8) % 8 := by omega
        have h3 : b.getLsbD i = false := BitVec.getLsbD_of_ge _ _ (by omega)
        have h4 : i - 8 < w := by omega
        simp [hw, h8, h1, h2, h3, h4]
    · simp [hw]

/-- Byte `t` of the bytes of a state (R130). -/
@[simp] theorem stateToBytes_getElem (x : Block) (t : Nat) (h : t < 8) : (stateToBytes x)[t] = bytesBe x 8 t := by
  simp [stateToBytes]

/-- Bit `i` of a state built from bytes: bit `u` of byte `t` lands in bit `8(7-t) + u` (R129). -/
theorem getLsbD_bytesToState (b : Vector Byte 8) (i : Nat) (h : i < 64) :
    (bytesToState b).getLsbD i = (b[7 - i / 8]'(by omega)).getLsbD (i % 8) := by
  have hl : b.toList.length = 8 := by simp
  have hd : i / 8 < b.toList.reverse.length := by simp; omega
  rw [bytesToState, getLsbD_be, List.getD_eq_getElem _ _ hd]
  simp only [List.getElem_reverse, hl, h, decide_true, Bool.true_and]
  congr 1

/-! ## S-box unit -/

@[simp] theorem sboxInv_sbox : ∀ x : BitVec 4, sboxInv (sbox x) = x := by decide

@[simp] theorem sbox_sboxInv : ∀ y : BitVec 4, sbox (sboxInv y) = y := by decide

theorem getLsbD_nibbleLanes (f : BitVec 4 → BitVec 4) (x : Block) (n i : Nat) (h : i < 64) :
    (nibbleLanes f x n).getLsbD i = (decide (i < 4 * n) && (f (nib x (i / 4))).getLsbD (i % 4)) := by
  induction n with
  | zero => simp [nibbleLanes]
  | succ n ih =>
    rw [nibbleLanes, getLsbD_setSlice, ih]
    by_cases h1 : 4 * n ≤ i ∧ i < 4 * n + 4
    · have h2 : i / 4 = n := by omega
      have h3 : i % 4 = i - 4 * n := by omega
      have h4 : i < 4 * (n + 1) := by omega
      rw [if_pos h1]
      simp [h, h2, h3, h4]
    · rw [if_neg h1]
      have h5 : (i < 4 * (n + 1)) = (i < 4 * n) := by apply propext; omega
      simp [h5]

/-- Lane `n` of the S-layer depends on lane `n` alone (R132). -/
theorem nib_nibbleLanes (f : BitVec 4 → BitVec 4) (x : Block) (n : Nat) (h : n < 16) :
    nib (nibbleLanes f x 16) n = f (nib x n) := by
  apply BitVec.eq_of_getLsbD_eq
  intro i hi
  have h1 : (4 * n + i) / 4 = n := by omega
  have h2 : (4 * n + i) % 4 = i := by omega
  have h3 : 4 * n + i < 4 * 16 := by omega
  rw [getLsbD_nib, getLsbD_nibbleLanes _ _ _ _ (by omega)]
  simp [hi, h1, h2, h3]

@[simp] theorem nib_substitute (x : Block) (n : Nat) (h : n < 16) : nib (substitute x) n = sbox (nib x n) :=
  nib_nibbleLanes sbox x n h

@[simp] theorem nib_inverseSubstitute (x : Block) (n : Nat) (h : n < 16) :
    nib (inverseSubstitute x) n = sboxInv (nib x n) :=
  nib_nibbleLanes sboxInv x n h

/-- A block is its sixteen nibbles. -/
theorem eq_of_nib_eq {x y : Block} (h : ∀ n, n < 16 → nib x n = nib y n) : x = y := by
  apply BitVec.eq_of_getLsbD_eq
  intro i hi
  have := congrArg (fun v => v.getLsbD (i % 4)) (h (i / 4) (by omega))
  simp only [getLsbD_nib] at this
  have h1 : i % 4 < 4 := by omega
  have h2 : 4 * (i / 4) + i % 4 = i := by omega
  simpa [h1, h2] using this

/-! ## P-layer network -/

theorem pTable_lt (i : Nat) (_ : i < 64) : pTable i < 64 := by unfold pTable; split <;> omega

theorem pInvTable_lt (j : Nat) (h : j < 64) : pInvTable j < 64 := by unfold pInvTable; omega

/-- `P_INV[P[i]] = i` (R126). -/
theorem pInvTable_pTable (i : Nat) (h : i < 64) : pInvTable (pTable i) = i := by
  unfold pInvTable pTable; split <;> omega

/-- `P[P_INV[j]] = j` (R126). -/
theorem pTable_pInvTable (j : Nat) (h : j < 64) : pTable (pInvTable j) = j :=
  (by decide : ∀ j : Fin 64, pTable (pInvTable j.val) = j.val) ⟨j, h⟩

/-- The moves `y[T[i]] <- x[i]` for `i < n` put bit `U[j]` of `x` at `j`, where `U` inverts `T`. -/
theorem getLsbD_scatterBits (t u : Nat → Nat) (htu : ∀ j, j < 64 → t (u j) = j) (hut : ∀ i, i < 64 → u (t i) = i)
    (x : Block) (n j : Nat) (hn : n ≤ 64) (hj : j < 64) :
    (scatterBits t x n).getLsbD j = (decide (u j < n) && x.getLsbD (u j)) := by
  induction n with
  | zero => simp [scatterBits]
  | succ n ih =>
    rw [scatterBits, getLsbD_setSlice, ih (by omega)]
    by_cases h1 : t n ≤ j ∧ j < t n + 1
    · have h2 : t n = j := by omega
      have h3 : u j = n := by rw [← h2]; exact hut n (by omega)
      rw [if_pos h1]
      simp [hj, h2, h3]
    · have h2 : u j ≠ n := by
        intro h; apply h1; rw [← h, htu j hj]; omega
      have h3 : (u j < n + 1) = (u j < n) := by apply propext; omega
      rw [if_neg h1]
      simp [h3]

/-- Bit `j` of `permute(x)` is bit `P_INV[j]` of `x` (R125). -/
theorem getLsbD_permute (x : Block) (j : Nat) (h : j < 64) : (permute x).getLsbD j = x.getLsbD (pInvTable j) := by
  rw [permute, getLsbD_scatterBits pTable pInvTable pTable_pInvTable pInvTable_pTable x 64 j (by omega) h]
  simp [pInvTable_lt j h]

/-- Bit `i` of `inverse_permute(x)` is bit `P[i]` of `x` (R127). -/
theorem getLsbD_inversePermute (x : Block) (i : Nat) (h : i < 64) :
    (inversePermute x).getLsbD i = x.getLsbD (pTable i) := by
  rw [inversePermute, getLsbD_scatterBits pInvTable pTable pInvTable_pTable pTable_pInvTable x 64 i (by omega) h]
  simp [pTable_lt i h]

/-! ## Key register -/

/-- Bit `i` of the rotated register is bit `(i + 19) mod 80` of the register (R144). -/
theorem getLsbD_rotateKr (kr : Key) (i : Nat) (h : i < 80) :
    (rotateKr kr).getLsbD i = kr.getLsbD ((i + 19) % 80) := by
  unfold rotateKr
  simp only [BitVec.getLsbD_or, BitVec.getLsbD_shiftLeft, BitVec.getLsbD_ushiftRight, h, decide_true, Bool.true_and]
  by_cases h1 : i < 61
  · have h2 : (i + 19) % 80 = 80 - 61 + i := by omega
    simp [h1, h2]
  · have h2 : (i + 19) % 80 = i - 61 := by omega
    have h3 : kr.getLsbD (80 - 61 + i) = false := BitVec.getLsbD_of_ge _ _ (by omega)
    rw [h2, h3]
    simp [h1]

theorem getLsbD_substituteTop (kr : Key) (i : Nat) (h : i < 80) :
    (substituteTop kr).getLsbD i =
      if 76 ≤ i then (sbox (kr.extractLsb' 76 4)).getLsbD (i - 76) else kr.getLsbD i := by
  rw [substituteTop, getLsbD_setSlice]
  by_cases h1 : 76 ≤ i
  · simp [h1, h]
  · simp [h1]

theorem getLsbD_mixCounter (kr : Key) (rc : BitVec 5) (i : Nat) (h : i < 80) :
    (mixCounter kr rc).getLsbD i =
      if 15 ≤ i ∧ i < 20 then kr.getLsbD i ^^ rc.getLsbD (i - 15) else kr.getLsbD i := by
  rw [mixCounter, getLsbD_setSlice]
  by_cases h1 : 15 ≤ i ∧ i < 15 + 5
  · have h2 : 15 + (i - 15) = i := by omega
    have h3 : i - 15 < 5 := by omega
    have h4 : i < 20 := by omega
    rw [if_pos h1, if_pos ⟨h1.1, h4⟩]
    simp [h, h2, h3]
  · rw [if_neg h1, if_neg (by omega)]

/-- The register after `n` rounds of R160 is `KR_n` of R149. -/
theorem encryptRounds_snd (x : Block) (k : Key) (n : Nat) : (encryptRounds x k n).2 = krAt k n := by
  induction n with
  | zero => rfl
  | succ n ih => simp [encryptRounds, krAt, ih]

end Sys2Proof.Machine
end

