-- ==== Sys2Proof/Laws/HostProgram.lean ====
section
/-! SUPPORT. What a run of a host program does to the core. With `runTxns_eq` and `systemTurns_acts` the encoding, and where
the core's own steps fall, determine the program's effect on the core completely (30_encoding.md R111). -/

namespace Sys2Proof.Machine

theorem performAll_append (es fs : List Event) (s : State) :
    s.performAll (es ++ fs) = match s.performAll es with
      | .next t => t.performAll fs
      | .fault r => .fault r
      | .refused r => .refused r := by
  induction es generalizing s with
  | nil => rfl
  | cons e es ih =>
    rw [List.cons_append, State.performAll, State.performAll]
    cases s.perform e with
    | next t => exact ih t
    | fault r => rfl
    | refused r => rfl

/-- A turn that succeeds has performed the events of its act and moved the host on. -/
theorem systemTurn_next {t : Turn} {h h' : HostRun} {s s' : State} (hs : systemTurn t h s = .next (h', s')) :
    s.performAll ((t.act h).toList.flatMap Act.events) = .next s' ∧ h' = t.hostAfter h s'.rdata := by
  have he : (t.act h).toList.flatMap Act.events = ((t.act h).map Act.events).getD [] := by
    cases t.act h <;> simp
  rw [he]
  unfold systemTurn at hs
  split at hs
  · injection hs with hs
    injection hs with h1 h2
    subst h2
    exact ⟨by assumption, h1.symm⟩
  · cases hs
  · cases hs

/-- The core after a run is the core after what reached it: the host has no other way to it. -/
theorem systemTurns_acts {turns : List Turn} {h h' : HostRun} {s s' : State}
    (hs : systemTurns turns h s = .next (h', s')) :
    s.performAll ((runActs turns h s).flatMap Act.events) = .next s' := by
  induction turns generalizing h s with
  | nil =>
    injection hs with hs
    injection hs with _ h2
    exact congrArg _ h2
  | cons t ts ih =>
    rw [systemTurns] at hs
    rw [runActs]
    cases ht : systemTurn t h s with
    | next p =>
      rw [ht] at hs
      rw [List.flatMap_append, performAll_append, (systemTurn_next ht).1]
      exact ih hs
    | fault r => rw [ht] at hs; cases hs
    | refused r => rw [ht] at hs; cases hs

/-- The host's part of what reaches the core is the events of the run's transactions. -/
theorem runTxns_eq (turns : List Turn) (h : HostRun) (s : State) :
    ((runActs turns h s).filter fun a => a.txn.isSome).flatMap Act.events = (runTxns turns h s).flatMap Txn.events := by
  unfold runTxns
  generalize runActs turns h s = l
  induction l with
  | nil => rfl
  | cons a l ih =>
    cases a with
    | bus x => exact congrArg (x.events ++ ·) ih
    | core _ _ => exact ih
    | run => exact ih

end Sys2Proof.Machine
end

