-- ==== Sys2Proof/Laws/Memory.lean ====
section
/-! SUPPORT. The laws of buffer memory: read after write, every operation keeps the canonical form, and a canonical memory is
determined by what its addresses read as. -/

namespace Sys2Proof.Machine

@[simp] theorem Memory.get?_nil (a : Nat) : Memory.get? [] a = none := rfl

theorem Memory.get?_cons (c : Host.Cell) (m : Memory) (a : Nat) :
    Memory.get? (c :: m) a = if c.1 = a then some c.2 else Memory.get? m a := rfl

/-- Read after write: the written byte at its address, every other address as before. -/
theorem Memory.get?_set (m : Memory) (a : Nat) (b : Byte) (x : Nat) :
    Memory.get? (Memory.set m a b) x = if x = a then some b else Memory.get? m x := by
  induction m with
  | nil => by_cases h : a = x <;> simp [Memory.set, Memory.get?_cons, h, eq_comm]
  | cons c m ih =>
    unfold Memory.set
    split
    · by_cases h : a = x <;> simp [Memory.get?_cons, h, eq_comm]
    · split
      · rename_i h1 h2
        subst h2
        by_cases h : c.1 = x <;> simp [Memory.get?_cons, h, eq_comm]
        intro h'; exact absurd h'.symm h
      · rename_i h1 h2
        rw [Memory.get?_cons, ih, Memory.get?_cons]
        by_cases h : c.1 = x
        · have : ¬ x = a := by omega
          simp [h, this]
        · simp [h]

@[simp] theorem Memory.get?_set_self (m : Memory) (a : Nat) (b : Byte) : Memory.get? (Memory.set m a b) a = some b := by
  simp [Memory.get?_set]

theorem Memory.get?_set_other (m : Memory) (a : Nat) (b : Byte) (x : Nat) (h : x ≠ a) :
    Memory.get? (Memory.set m a b) x = Memory.get? m x := by
  simp [Memory.get?_set, h]

/-- The addresses listed after a write: those listed before, and the written one. -/
theorem Memory.mem_set {m : Memory} {a : Nat} {b : Byte} {c : Host.Cell} (h : c ∈ Memory.set m a b) :
    c = (a, b) ∨ c ∈ m := by
  induction m with
  | nil => simpa [Memory.set] using h
  | cons d m ih =>
    unfold Memory.set at h
    split at h
    · simpa using h
    · split at h
      · simp only [List.mem_cons] at h ⊢; tauto
      · simp only [List.mem_cons] at h ⊢
        rcases h with h | h
        · exact Or.inr (Or.inl h)
        · rcases ih h with h | h
          · exact Or.inl h
          · exact Or.inr (Or.inr h)

/-- A write keeps the canonical form. -/
theorem Memory.set_wf {m : Memory} (h : Memory.wf m) (a : Nat) (b : Byte) : Memory.wf (Memory.set m a b) := by
  refine ⟨?_, fun c _ => by simp [Memory.unlisted]⟩
  obtain ⟨hp, -⟩ := h
  induction m with
  | nil => simp [Memory.set]
  | cons c m ih =>
    rw [List.pairwise_cons] at hp
    unfold Memory.set
    split
    · rename_i h1
      rw [List.pairwise_cons]
      refine ⟨fun d hd => ?_, List.pairwise_cons.mpr hp⟩
      rcases List.mem_cons.mp hd with rfl | hd
      · exact h1
      · exact Nat.lt_trans h1 (hp.1 d hd)
    · split
      · rename_i h1 h2
        subst h2
        exact List.pairwise_cons.mpr ⟨hp.1, hp.2⟩
      · rename_i h1 h2
        refine List.pairwise_cons.mpr ⟨fun d hd => ?_, ih hp.2⟩
        rcases Memory.mem_set hd with rfl | hd
        · show c.1 < a; omega
        · exact hp.1 d hd

/-- Reading after a run of bytes is written. -/
theorem Memory.get?_setBytes (m : Memory) (a : Nat) (bs : List Byte) (x : Nat) :
    Memory.get? (Memory.setBytes m a bs) x = if a ≤ x ∧ x < a + bs.length then bs[x - a]? else Memory.get? m x := by
  induction bs generalizing m a with
  | nil =>
    rw [Memory.setBytes, if_neg (by simp)]
  | cons b bs ih =>
    rw [Memory.setBytes, ih, Memory.get?_set]
    by_cases h1 : a + 1 ≤ x ∧ x < a + 1 + bs.length
    · have h2 : a ≤ x ∧ x < a + (b :: bs).length := by simp only [List.length_cons]; omega
      rw [if_pos h1, if_pos h2]
      have h3 : x - a = (x - (a + 1)) + 1 := by omega
      rw [h3, List.getElem?_cons_succ]
    · rw [if_neg h1]
      by_cases h4 : x = a
      · subst h4
        simp
      · have h5 : ¬(a ≤ x ∧ x < a + (b :: bs).length) := by simp only [List.length_cons]; omega
        rw [if_neg h4, if_neg h5]

/-- A run of writes keeps the canonical form. -/
theorem Memory.setBytes_wf {m : Memory} (h : Memory.wf m) (a : Nat) (bs : List Byte) :
    Memory.wf (Memory.setBytes m a bs) := by
  induction bs generalizing m a with
  | nil => exact h
  | cons b bs ih => exact ih (Memory.set_wf h a b) (a + 1)

/-- The addresses listed after a run of writes: those listed before, and the written ones. -/
theorem Memory.mem_setBytes {m : Memory} {a : Nat} {bs : List Byte} {c : Host.Cell} (h : c ∈ Memory.setBytes m a bs) :
    (a ≤ c.1 ∧ c.1 < a + bs.length) ∨ c ∈ m := by
  induction bs generalizing m a with
  | nil => exact Or.inr h
  | cons b bs ih =>
    simp only [List.length_cons]
    rcases ih h with h | h
    · exact Or.inl (by omega)
    · rcases Memory.mem_set h with rfl | h
      · exact Or.inl (by show a ≤ a ∧ a < _; omega)
      · exact Or.inr h

/-- No address below the first one of a rising list is listed. -/
theorem Memory.get?_of_lt {m : Memory} {a : Nat} (h : ∀ c ∈ m, a < c.1) : Memory.get? m a = none := by
  induction m with
  | nil => rfl
  | cons c m ih =>
    have h1 : a < c.1 := h c (by simp)
    rw [Memory.get?_cons, if_neg (by omega)]
    exact ih fun d hd => h d (by simp [hd])

/-- Two canonical memories that read alike are equal. -/
theorem Memory.ext {m m' : Memory} (h : Memory.wf m) (h' : Memory.wf m')
    (hr : ∀ a, Memory.get? m a = Memory.get? m' a) : m = m' := by
  obtain ⟨h, -⟩ := h
  obtain ⟨h', -⟩ := h'
  induction m generalizing m' with
  | nil =>
    cases m' with
    | nil => rfl
    | cons d m' => have := hr d.1; simp [Memory.get?_cons] at this
  | cons c m ih =>
    cases m' with
    | nil => have := hr c.1; simp [Memory.get?_cons] at this
    | cons d m' =>
      rw [List.pairwise_cons] at h h'
      have hc := hr c.1
      have hd := hr d.1
      have hcd : c.1 = d.1 := by
        rcases Nat.lt_trichotomy c.1 d.1 with hlt | heq | hgt
        · rw [Memory.get?_cons, if_pos rfl, Memory.get?_cons, if_neg (by omega),
            Memory.get?_of_lt fun e he => Nat.lt_trans hlt (h'.1 e he)] at hc
          simp at hc
        · exact heq
        · rw [Memory.get?_cons, if_neg (by omega), Memory.get?_of_lt fun e he => Nat.lt_trans hgt (h.1 e he),
            Memory.get?_cons, if_pos rfl] at hd
          simp at hd
      have hval : c.2 = d.2 := by
        rw [Memory.get?_cons, if_pos rfl, Memory.get?_cons, if_pos hcd.symm] at hc
        simpa using hc
      have htail : m = m' := by
        refine ih (m' := m') (fun a => ?_) h.2 h'.2
        have ha := hr a
        rw [Memory.get?_cons, Memory.get?_cons] at ha
        by_cases hca : c.1 = a
        · subst hca
          rw [Memory.get?_of_lt h.1, Memory.get?_of_lt (hcd ▸ h'.1)]
        · rwa [if_neg hca, if_neg (hcd ▸ hca)] at ha
      rw [htail, Prod.ext hcd hval]

/-! ## Blocks -/

/-- Reading after a block is written (R181). -/
theorem get?_writeBlock (m : Memory) (j : Nat) (b : Vector Byte 8) (x : Nat) :
    Memory.get? (writeBlock m j b) x =
      if outBase + 8 * j ≤ x ∧ x < outBase + 8 * j + 8 then b.toList[x - (outBase + 8 * j)]? else Memory.get? m x := by
  rw [writeBlock, Memory.get?_setBytes]
  simp [blockBytes]

theorem writeBlock_wf {m : Memory} (h : Memory.wf m) (j : Nat) (b : Vector Byte 8) : Memory.wf (writeBlock m j b) :=
  Memory.setBytes_wf h _ _

/-- The mapper keeps the canonical form, whatever the order of the blocks. -/
theorem mapBlocks_wf {s : State} (h : Memory.wf s.mem) (d : Direction) (order : List Nat) :
    Memory.wf (s.mapBlocks d order) := by
  unfold State.mapBlocks
  generalize s.mem = m at h
  induction order generalizing m with
  | nil => exact h
  | cons j js ih => exact ih _ (writeBlock_wf h j _)

/-- Reading after the mapper: an address of a mapped block's place reads the block's result, every other address as
before (R181, R183). -/
theorem get?_mapBlocks (s : State) (d : Direction) (order : List Nat) (x : Nat) :
    Memory.get? (s.mapBlocks d order) x =
      if outBase ≤ x ∧ (x - outBase) / 8 ∈ order then
        (s.resultBlock d ((x - outBase) / 8)).toList[(x - outBase) % 8]?
      else Memory.get? s.mem x := by
  unfold State.mapBlocks
  suffices H : ∀ m : Memory,
      Memory.get? (order.foldl (fun m j => writeBlock m j (s.resultBlock d j)) m) x =
        if outBase ≤ x ∧ (x - outBase) / 8 ∈ order then
          (s.resultBlock d ((x - outBase) / 8)).toList[(x - outBase) % 8]?
        else Memory.get? m x from H s.mem
  induction order with
  | nil => intro m; simp
  | cons j js ih =>
    intro m
    rw [List.foldl_cons, ih, get?_writeBlock]
    by_cases hx : outBase ≤ x
    · by_cases hj : (x - outBase) / 8 = j
      · have h1 : outBase + 8 * j ≤ x ∧ x < outBase + 8 * j + 8 := by omega
        have h2 : x - (outBase + 8 * j) = (x - outBase) % 8 := by omega
        by_cases hm : (x - outBase) / 8 ∈ js
        · simp [hx, hm]
        · simp [hx, hj, h1, h2]
      · have h1 : ¬(outBase + 8 * j ≤ x ∧ x < outBase + 8 * j + 8) := by omega
        simp [hx, hj, h1]
    · have h1 : ¬(outBase + 8 * j ≤ x ∧ x < outBase + 8 * j + 8) := by omega
      simp [hx, h1]

/-- When a block's input has been written (R235). -/
theorem blockWritten_iff (s : State) (j : Nat) :
    s.blockWritten j = true ↔
      ∀ n, n < 8 → 8 * j + n < s.len.toNat → (Memory.get? s.mem (inBase + (8 * j + n))).isSome := by
  simp only [State.blockWritten, blockBytes, List.all_eq_true, List.mem_range, Bool.or_eq_true, decide_eq_true_eq]
  exact forall₂_congr fun n _ => ⟨fun h hl => h.resolve_left (by omega), fun h => (Nat.lt_or_ge _ _).elim
    (fun hl => .inr (h hl)) .inl⟩

/-- A written block reads the same whatever the draw. -/
theorem messageBlock_written {s : State} {j : Nat} (h : s.blockWritten j = true) (draw draw' : Nat) :
    s.messageBlock draw j = s.messageBlock draw' j := by
  unfold State.messageBlock
  congr 1; funext t
  unfold State.messageByte
  split
  · rename_i hl
    obtain ⟨b, hb⟩ := Option.isSome_iff_exists.mp ((blockWritten_iff s j).mp h t.val t.isLt hl)
    simp [State.bufByte, hb]
  · rfl

/-- What is stored for a written block (R181). -/
theorem outputBlock_written {s : State} {j : Nat} (h : s.blockWritten j = true) (draw : Nat) (x : Block) :
    s.outputBlock draw j x = stateToBytes x := by simp [State.outputBlock, h]

/-- What is stored for a block with an unwritten input byte (R235): it does not depend on the engine's result. -/
theorem outputBlock_unwritten {s : State} {j : Nat} (h : s.blockWritten j = false) (draw : Nat) (x : Block) :
    s.outputBlock draw j x = freeBlock draw j := by
  simp [State.outputBlock, h]

/-- The sequential order holds every block. -/
theorem mem_sequentialOrder (s : State) (j : Nat) : j ∈ s.sequentialOrder ↔ j < s.blockCount := by
  simp [State.sequentialOrder]

/-- The parallel order holds every block (R180). -/
theorem mem_parallelOrder (s : State) (j : Nat) : j ∈ s.parallelOrder ↔ j < s.blockCount := by
  simp only [State.parallelOrder, List.mem_flatMap, List.mem_range, List.mem_filter, decide_eq_true_eq]
  exact ⟨fun ⟨_, _, h, _⟩ => h, fun h => ⟨j % s.cfg.nLanes, Nat.mod_lt _ (Nat.succ_pos _), h, rfl⟩⟩

end Sys2Proof.Machine
end

