-- ==== Sys2Proof/Laws/State.lean ====
section
/-! SUPPORT. One lemma per field and per update of State, so that no proof unfolds a record update. -/

namespace Sys2Proof.Machine

/-! ## accept -/

@[simp] theorem State.accept_cfg (w : Byte) (s : State) : (s.accept w).cfg = s.cfg := rfl

@[simp] theorem State.accept_status (w : Byte) (s : State) : (s.accept w).status = s.status.accepted := rfl

@[simp] theorem State.accept_err (w : Byte) (s : State) : (s.accept w).err = 0x00 := rfl

@[simp] theorem State.accept_ie (w : Byte) (s : State) : (s.accept w).ie = s.ie := rfl

@[simp] theorem State.accept_keylen (w : Byte) (s : State) : (s.accept w).keylen = s.keylen := rfl

@[simp] theorem State.accept_variant (w : Byte) (s : State) : (s.accept w).variant = s.variant := rfl

@[simp] theorem State.accept_len (w : Byte) (s : State) : (s.accept w).len = s.len := rfl

@[simp] theorem State.accept_outLen (w : Byte) (s : State) : (s.accept w).outLen = s.outLen := rfl

@[simp] theorem State.accept_keyIn (w : Byte) (s : State) : (s.accept w).keyIn = s.keyIn := rfl

@[simp] theorem State.accept_blockIn (w : Byte) (s : State) : (s.accept w).blockIn = s.blockIn := rfl

@[simp] theorem State.accept_blockOut (w : Byte) (s : State) : (s.accept w).blockOut = s.blockOut := rfl

@[simp] theorem State.accept_mem (w : Byte) (s : State) : (s.accept w).mem = s.mem := rfl

@[simp] theorem State.accept_key (w : Byte) (s : State) : (s.accept w).key = s.key := rfl

@[simp] theorem State.accept_engines (w : Byte) (s : State) : (s.accept w).engines = s.engines := rfl

@[simp] theorem State.accept_phase (w : Byte) (s : State) : (s.accept w).seq.phase = .run := rfl

@[simp] theorem State.accept_op (w : Byte) (s : State) : (s.accept w).seq.op = w := rfl

@[simp] theorem State.accept_stage (w : Byte) (s : State) : (s.accept w).seq.stage = .check := rfl

@[simp] theorem State.accept_todo (w : Byte) (s : State) :
    (s.accept w).seq.todo = (s.mapperBlocks w).getD s.seq.todo := rfl

@[simp] theorem State.accept_written (w : Byte) (s : State) :
    (s.accept w).seq.written = if (s.mapperBlocks w).isSome then [] else s.seq.written := rfl

@[simp] theorem State.accept_rst (w : Byte) (s : State) : (s.accept w).rst = s.rst := rfl

@[simp] theorem State.accept_rdata (w : Byte) (s : State) : (s.accept w).rdata = s.rdata := rfl

@[simp] theorem State.accept_resetSeen (w : Byte) (s : State) : (s.accept w).resetSeen = s.resetSeen := rfl

@[simp] theorem State.accept_draws (w : Byte) (s : State) : (s.accept w).draws = s.draws := rfl

@[simp] theorem State.accept_agenda (w : Byte) (s : State) : (s.accept w).agenda = s.agenda := rfl

/-! ## release -/

@[simp] theorem State.release_cfg (s : State) : (s.release).cfg = s.cfg := rfl

@[simp] theorem State.release_status (s : State) : (s.release).status = s.status := rfl

@[simp] theorem State.release_err (s : State) : (s.release).err = s.err := rfl

@[simp] theorem State.release_ie (s : State) : (s.release).ie = s.ie := rfl

@[simp] theorem State.release_keylen (s : State) : (s.release).keylen = s.keylen := rfl

@[simp] theorem State.release_variant (s : State) : (s.release).variant = s.variant := rfl

@[simp] theorem State.release_len (s : State) : (s.release).len = s.len := rfl

@[simp] theorem State.release_outLen (s : State) : (s.release).outLen = s.outLen := rfl

@[simp] theorem State.release_keyIn (s : State) : (s.release).keyIn = s.keyIn := rfl

@[simp] theorem State.release_blockIn (s : State) : (s.release).blockIn = s.blockIn := rfl

@[simp] theorem State.release_blockOut (s : State) : (s.release).blockOut = s.blockOut := rfl

@[simp] theorem State.release_mem (s : State) : (s.release).mem = s.mem := rfl

@[simp] theorem State.release_key (s : State) : (s.release).key = s.key := rfl

@[simp] theorem State.release_engines (s : State) : (s.release).engines = (List.range s.cfg.nLanes).map (Engine.released s.draws) := rfl

@[simp] theorem State.release_seq (s : State) : (s.release).seq = { s.seq with phase := .idle, stage := .waiting } := rfl

@[simp] theorem State.release_rst (s : State) : (s.release).rst = s.rst := rfl

@[simp] theorem State.release_rdata (s : State) : (s.release).rdata = s.rdata := rfl

@[simp] theorem State.release_resetSeen (s : State) : (s.release).resetSeen = s.resetSeen := rfl

@[simp] theorem State.release_draws (s : State) : (s.release).draws = s.draws + 1 := rfl

@[simp] theorem State.release_agenda (s : State) : (s.release).agenda = s.agenda := rfl

/-! ## raise -/

@[simp] theorem State.raise_cfg (c : ErrCode) (s : State) : (s.raise c).cfg = s.cfg := rfl

@[simp] theorem State.raise_status (c : ErrCode) (s : State) : (s.raise c).status = s.status.failed := rfl

@[simp] theorem State.raise_err (c : ErrCode) (s : State) : (s.raise c).err = c.code := rfl

@[simp] theorem State.raise_ie (c : ErrCode) (s : State) : (s.raise c).ie = s.ie := rfl

@[simp] theorem State.raise_keylen (c : ErrCode) (s : State) : (s.raise c).keylen = s.keylen := rfl

@[simp] theorem State.raise_variant (c : ErrCode) (s : State) : (s.raise c).variant = s.variant := rfl

@[simp] theorem State.raise_len (c : ErrCode) (s : State) : (s.raise c).len = s.len := rfl

@[simp] theorem State.raise_outLen (c : ErrCode) (s : State) : (s.raise c).outLen = s.outLen := rfl

@[simp] theorem State.raise_keyIn (c : ErrCode) (s : State) : (s.raise c).keyIn = s.keyIn := rfl

@[simp] theorem State.raise_blockIn (c : ErrCode) (s : State) : (s.raise c).blockIn = s.blockIn := rfl

@[simp] theorem State.raise_blockOut (c : ErrCode) (s : State) : (s.raise c).blockOut = s.blockOut := rfl

@[simp] theorem State.raise_mem (c : ErrCode) (s : State) : (s.raise c).mem = s.mem := rfl

@[simp] theorem State.raise_key (c : ErrCode) (s : State) : (s.raise c).key = s.key := rfl

@[simp] theorem State.raise_engines (c : ErrCode) (s : State) : (s.raise c).engines = (List.range s.cfg.nLanes).map (Engine.released s.draws) := rfl

@[simp] theorem State.raise_seq (c : ErrCode) (s : State) : (s.raise c).seq = { s.seq with phase := .idle, stage := .waiting } := rfl

@[simp] theorem State.raise_rst (c : ErrCode) (s : State) : (s.raise c).rst = s.rst := rfl

@[simp] theorem State.raise_rdata (c : ErrCode) (s : State) : (s.raise c).rdata = s.rdata := rfl

@[simp] theorem State.raise_resetSeen (c : ErrCode) (s : State) : (s.raise c).resetSeen = s.resetSeen := rfl

@[simp] theorem State.raise_draws (c : ErrCode) (s : State) : (s.raise c).draws = s.draws + 1 := rfl

@[simp] theorem State.raise_agenda (c : ErrCode) (s : State) : (s.raise c).agenda = s.agenda := rfl

/-! ## dropWrite -/

@[simp] theorem State.dropWrite_cfg (s : State) : (s.dropWrite).cfg = s.cfg := rfl

@[simp] theorem State.dropWrite_status (s : State) : (s.dropWrite).status = s.status.overrun := rfl

@[simp] theorem State.dropWrite_err (s : State) : (s.dropWrite).err = s.err := rfl

@[simp] theorem State.dropWrite_ie (s : State) : (s.dropWrite).ie = s.ie := rfl

@[simp] theorem State.dropWrite_keylen (s : State) : (s.dropWrite).keylen = s.keylen := rfl

@[simp] theorem State.dropWrite_variant (s : State) : (s.dropWrite).variant = s.variant := rfl

@[simp] theorem State.dropWrite_len (s : State) : (s.dropWrite).len = s.len := rfl

@[simp] theorem State.dropWrite_outLen (s : State) : (s.dropWrite).outLen = s.outLen := rfl

@[simp] theorem State.dropWrite_keyIn (s : State) : (s.dropWrite).keyIn = s.keyIn := rfl

@[simp] theorem State.dropWrite_blockIn (s : State) : (s.dropWrite).blockIn = s.blockIn := rfl

@[simp] theorem State.dropWrite_blockOut (s : State) : (s.dropWrite).blockOut = s.blockOut := rfl

@[simp] theorem State.dropWrite_mem (s : State) : (s.dropWrite).mem = s.mem := rfl

@[simp] theorem State.dropWrite_key (s : State) : (s.dropWrite).key = s.key := rfl

@[simp] theorem State.dropWrite_engines (s : State) : (s.dropWrite).engines = s.engines := rfl

@[simp] theorem State.dropWrite_seq (s : State) : (s.dropWrite).seq = s.seq := rfl

@[simp] theorem State.dropWrite_rst (s : State) : (s.dropWrite).rst = s.rst := rfl

@[simp] theorem State.dropWrite_rdata (s : State) : (s.dropWrite).rdata = s.rdata := rfl

@[simp] theorem State.dropWrite_resetSeen (s : State) : (s.dropWrite).resetSeen = s.resetSeen := rfl

@[simp] theorem State.dropWrite_draws (s : State) : (s.dropWrite).draws = s.draws := rfl

@[simp] theorem State.dropWrite_agenda (s : State) : (s.dropWrite).agenda = s.agenda := rfl

/-! ## clearSticky -/

@[simp] theorem State.clearSticky_cfg (w : Byte) (s : State) : (s.clearSticky w).cfg = s.cfg := rfl

@[simp] theorem State.clearSticky_status (w : Byte) (s : State) : (s.clearSticky w).status = s.status.clearedBy w := rfl

@[simp] theorem State.clearSticky_err (w : Byte) (s : State) : (s.clearSticky w).err = s.err := rfl

@[simp] theorem State.clearSticky_ie (w : Byte) (s : State) : (s.clearSticky w).ie = s.ie := rfl

@[simp] theorem State.clearSticky_keylen (w : Byte) (s : State) : (s.clearSticky w).keylen = s.keylen := rfl

@[simp] theorem State.clearSticky_variant (w : Byte) (s : State) : (s.clearSticky w).variant = s.variant := rfl

@[simp] theorem State.clearSticky_len (w : Byte) (s : State) : (s.clearSticky w).len = s.len := rfl

@[simp] theorem State.clearSticky_outLen (w : Byte) (s : State) : (s.clearSticky w).outLen = s.outLen := rfl

@[simp] theorem State.clearSticky_keyIn (w : Byte) (s : State) : (s.clearSticky w).keyIn = s.keyIn := rfl

@[simp] theorem State.clearSticky_blockIn (w : Byte) (s : State) : (s.clearSticky w).blockIn = s.blockIn := rfl

@[simp] theorem State.clearSticky_blockOut (w : Byte) (s : State) : (s.clearSticky w).blockOut = s.blockOut := rfl

@[simp] theorem State.clearSticky_mem (w : Byte) (s : State) : (s.clearSticky w).mem = s.mem := rfl

@[simp] theorem State.clearSticky_key (w : Byte) (s : State) : (s.clearSticky w).key = s.key := rfl

@[simp] theorem State.clearSticky_engines (w : Byte) (s : State) : (s.clearSticky w).engines = s.engines := rfl

@[simp] theorem State.clearSticky_seq (w : Byte) (s : State) : (s.clearSticky w).seq = s.seq := rfl

@[simp] theorem State.clearSticky_rst (w : Byte) (s : State) : (s.clearSticky w).rst = s.rst := rfl

@[simp] theorem State.clearSticky_rdata (w : Byte) (s : State) : (s.clearSticky w).rdata = s.rdata := rfl

@[simp] theorem State.clearSticky_resetSeen (w : Byte) (s : State) : (s.clearSticky w).resetSeen = s.resetSeen := rfl

@[simp] theorem State.clearSticky_draws (w : Byte) (s : State) : (s.clearSticky w).draws = s.draws := rfl

@[simp] theorem State.clearSticky_agenda (w : Byte) (s : State) : (s.clearSticky w).agenda = s.agenda := rfl

/-! ## busRead -/

@[simp] theorem State.busRead_cfg (a : Addr) (s : State) : (s.busRead a).cfg = s.cfg := rfl

@[simp] theorem State.busRead_status (a : Addr) (s : State) : (s.busRead a).status = s.status := rfl

@[simp] theorem State.busRead_err (a : Addr) (s : State) : (s.busRead a).err = s.err := rfl

@[simp] theorem State.busRead_ie (a : Addr) (s : State) : (s.busRead a).ie = s.ie := rfl

@[simp] theorem State.busRead_keylen (a : Addr) (s : State) : (s.busRead a).keylen = s.keylen := rfl

@[simp] theorem State.busRead_variant (a : Addr) (s : State) : (s.busRead a).variant = s.variant := rfl

@[simp] theorem State.busRead_len (a : Addr) (s : State) : (s.busRead a).len = s.len := rfl

@[simp] theorem State.busRead_outLen (a : Addr) (s : State) : (s.busRead a).outLen = s.outLen := rfl

@[simp] theorem State.busRead_keyIn (a : Addr) (s : State) : (s.busRead a).keyIn = s.keyIn := rfl

@[simp] theorem State.busRead_blockIn (a : Addr) (s : State) : (s.busRead a).blockIn = s.blockIn := rfl

@[simp] theorem State.busRead_blockOut (a : Addr) (s : State) : (s.busRead a).blockOut = s.blockOut := rfl

@[simp] theorem State.busRead_mem (a : Addr) (s : State) : (s.busRead a).mem = s.mem := rfl

@[simp] theorem State.busRead_key (a : Addr) (s : State) : (s.busRead a).key = s.key := rfl

@[simp] theorem State.busRead_engines (a : Addr) (s : State) : (s.busRead a).engines = s.engines := rfl

@[simp] theorem State.busRead_seq (a : Addr) (s : State) : (s.busRead a).seq = s.seq := rfl

@[simp] theorem State.busRead_rst (a : Addr) (s : State) : (s.busRead a).rst = s.rst := rfl

@[simp] theorem State.busRead_rdata (a : Addr) (s : State) : (s.busRead a).rdata = s.readValue a := rfl

@[simp] theorem State.busRead_resetSeen (a : Addr) (s : State) : (s.busRead a).resetSeen = s.resetSeen := rfl

@[simp] theorem State.busRead_draws (a : Addr) (s : State) : (s.busRead a).draws = s.draws + 1 := rfl

@[simp] theorem State.busRead_agenda (a : Addr) (s : State) : (s.busRead a).agenda = s.agenda := rfl

/-! ## setEngine -/

@[simp] theorem State.setEngine_cfg (l : Nat) (e : Engine) (s : State) : (s.setEngine l e).cfg = s.cfg := rfl

@[simp] theorem State.setEngine_status (l : Nat) (e : Engine) (s : State) : (s.setEngine l e).status = s.status := rfl

@[simp] theorem State.setEngine_err (l : Nat) (e : Engine) (s : State) : (s.setEngine l e).err = s.err := rfl

@[simp] theorem State.setEngine_ie (l : Nat) (e : Engine) (s : State) : (s.setEngine l e).ie = s.ie := rfl

@[simp] theorem State.setEngine_keylen (l : Nat) (e : Engine) (s : State) : (s.setEngine l e).keylen = s.keylen := rfl

@[simp] theorem State.setEngine_variant (l : Nat) (e : Engine) (s : State) : (s.setEngine l e).variant = s.variant := rfl

@[simp] theorem State.setEngine_len (l : Nat) (e : Engine) (s : State) : (s.setEngine l e).len = s.len := rfl

@[simp] theorem State.setEngine_outLen (l : Nat) (e : Engine) (s : State) : (s.setEngine l e).outLen = s.outLen := rfl

@[simp] theorem State.setEngine_keyIn (l : Nat) (e : Engine) (s : State) : (s.setEngine l e).keyIn = s.keyIn := rfl

@[simp] theorem State.setEngine_blockIn (l : Nat) (e : Engine) (s : State) : (s.setEngine l e).blockIn = s.blockIn := rfl

@[simp] theorem State.setEngine_blockOut (l : Nat) (e : Engine) (s : State) : (s.setEngine l e).blockOut = s.blockOut := rfl

@[simp] theorem State.setEngine_mem (l : Nat) (e : Engine) (s : State) : (s.setEngine l e).mem = s.mem := rfl

@[simp] theorem State.setEngine_key (l : Nat) (e : Engine) (s : State) : (s.setEngine l e).key = s.key := rfl

@[simp] theorem State.setEngine_engines (l : Nat) (e : Engine) (s : State) : (s.setEngine l e).engines = s.engines.set l e := rfl

@[simp] theorem State.setEngine_seq (l : Nat) (e : Engine) (s : State) : (s.setEngine l e).seq = s.seq := rfl

@[simp] theorem State.setEngine_rst (l : Nat) (e : Engine) (s : State) : (s.setEngine l e).rst = s.rst := rfl

@[simp] theorem State.setEngine_rdata (l : Nat) (e : Engine) (s : State) : (s.setEngine l e).rdata = s.rdata := rfl

@[simp] theorem State.setEngine_resetSeen (l : Nat) (e : Engine) (s : State) : (s.setEngine l e).resetSeen = s.resetSeen := rfl

@[simp] theorem State.setEngine_draws (l : Nat) (e : Engine) (s : State) : (s.setEngine l e).draws = s.draws := rfl

@[simp] theorem State.setEngine_agenda (l : Nat) (e : Engine) (s : State) : (s.setEngine l e).agenda = s.agenda := rfl

/-! ## finishWith -/

@[simp] theorem State.finishWith_cfg (r : Result) (s : State) : (s.finishWith r).cfg = s.cfg := rfl

@[simp] theorem State.finishWith_status (r : Result) (s : State) : (s.finishWith r).status = s.status := rfl

@[simp] theorem State.finishWith_err (r : Result) (s : State) : (s.finishWith r).err = s.err := rfl

@[simp] theorem State.finishWith_ie (r : Result) (s : State) : (s.finishWith r).ie = s.ie := rfl

@[simp] theorem State.finishWith_keylen (r : Result) (s : State) : (s.finishWith r).keylen = s.keylen := rfl

@[simp] theorem State.finishWith_variant (r : Result) (s : State) : (s.finishWith r).variant = s.variant := rfl

@[simp] theorem State.finishWith_len (r : Result) (s : State) : (s.finishWith r).len = s.len := rfl

@[simp] theorem State.finishWith_outLen (r : Result) (s : State) : (s.finishWith r).outLen = s.outLen := rfl

@[simp] theorem State.finishWith_keyIn (r : Result) (s : State) : (s.finishWith r).keyIn = s.keyIn := rfl

@[simp] theorem State.finishWith_blockIn (r : Result) (s : State) : (s.finishWith r).blockIn = s.blockIn := rfl

@[simp] theorem State.finishWith_blockOut (r : Result) (s : State) : (s.finishWith r).blockOut = s.blockOut := rfl

@[simp] theorem State.finishWith_mem (r : Result) (s : State) : (s.finishWith r).mem = s.mem := rfl

@[simp] theorem State.finishWith_key (r : Result) (s : State) : (s.finishWith r).key = s.key := rfl

@[simp] theorem State.finishWith_engines (r : Result) (s : State) : (s.finishWith r).engines = s.engines := rfl

@[simp] theorem State.finishWith_seq (r : Result) (s : State) : (s.finishWith r).seq = { s.seq with stage := .finish r } := rfl

@[simp] theorem State.finishWith_rst (r : Result) (s : State) : (s.finishWith r).rst = s.rst := rfl

@[simp] theorem State.finishWith_rdata (r : Result) (s : State) : (s.finishWith r).rdata = s.rdata := rfl

@[simp] theorem State.finishWith_resetSeen (r : Result) (s : State) : (s.finishWith r).resetSeen = s.resetSeen := rfl

@[simp] theorem State.finishWith_draws (r : Result) (s : State) : (s.finishWith r).draws = s.draws := rfl

@[simp] theorem State.finishWith_agenda (r : Result) (s : State) : (s.finishWith r).agenda = s.agenda := rfl

/-! ## runMapper -/

@[simp] theorem State.runMapper_cfg (d : Direction) (o : List Nat) (s : State) : (s.runMapper d o).cfg = s.cfg := rfl

@[simp] theorem State.runMapper_status (d : Direction) (o : List Nat) (s : State) : (s.runMapper d o).status = s.status := rfl

@[simp] theorem State.runMapper_err (d : Direction) (o : List Nat) (s : State) : (s.runMapper d o).err = s.err := rfl

@[simp] theorem State.runMapper_ie (d : Direction) (o : List Nat) (s : State) : (s.runMapper d o).ie = s.ie := rfl

@[simp] theorem State.runMapper_keylen (d : Direction) (o : List Nat) (s : State) : (s.runMapper d o).keylen = s.keylen := rfl

@[simp] theorem State.runMapper_variant (d : Direction) (o : List Nat) (s : State) : (s.runMapper d o).variant = s.variant := rfl

@[simp] theorem State.runMapper_len (d : Direction) (o : List Nat) (s : State) : (s.runMapper d o).len = s.len := rfl

@[simp] theorem State.runMapper_outLen (d : Direction) (o : List Nat) (s : State) : (s.runMapper d o).outLen = s.outLen := rfl

@[simp] theorem State.runMapper_keyIn (d : Direction) (o : List Nat) (s : State) : (s.runMapper d o).keyIn = s.keyIn := rfl

@[simp] theorem State.runMapper_blockIn (d : Direction) (o : List Nat) (s : State) : (s.runMapper d o).blockIn = s.blockIn := rfl

@[simp] theorem State.runMapper_blockOut (d : Direction) (o : List Nat) (s : State) : (s.runMapper d o).blockOut = s.blockOut := rfl

@[simp] theorem State.runMapper_mem (d : Direction) (o : List Nat) (s : State) : (s.runMapper d o).mem = s.mapBlocks d o := rfl

@[simp] theorem State.runMapper_key (d : Direction) (o : List Nat) (s : State) : (s.runMapper d o).key = s.key := rfl

@[simp] theorem State.runMapper_engines (d : Direction) (o : List Nat) (s : State) : (s.runMapper d o).engines = s.engines := rfl

@[simp] theorem State.runMapper_seq (d : Direction) (o : List Nat) (s : State) : (s.runMapper d o).seq = { s.seq with todo := [], written := List.range s.blockCount } := rfl

@[simp] theorem State.runMapper_rst (d : Direction) (o : List Nat) (s : State) : (s.runMapper d o).rst = s.rst := rfl

@[simp] theorem State.runMapper_rdata (d : Direction) (o : List Nat) (s : State) : (s.runMapper d o).rdata = s.rdata := rfl

@[simp] theorem State.runMapper_resetSeen (d : Direction) (o : List Nat) (s : State) : (s.runMapper d o).resetSeen = s.resetSeen := rfl

@[simp] theorem State.runMapper_draws (d : Direction) (o : List Nat) (s : State) : (s.runMapper d o).draws = s.draws + 2 * s.blockCount := rfl

@[simp] theorem State.runMapper_agenda (d : Direction) (o : List Nat) (s : State) : (s.runMapper d o).agenda = s.agenda := rfl

/-! ## facing -/

@[simp] theorem State.facing_cfg (e : Event) (s : State) : (s.facing e).cfg = s.cfg := rfl

@[simp] theorem State.facing_status (e : Event) (s : State) : (s.facing e).status = s.status := rfl

@[simp] theorem State.facing_err (e : Event) (s : State) : (s.facing e).err = s.err := rfl

@[simp] theorem State.facing_ie (e : Event) (s : State) : (s.facing e).ie = s.ie := rfl

@[simp] theorem State.facing_keylen (e : Event) (s : State) : (s.facing e).keylen = s.keylen := rfl

@[simp] theorem State.facing_variant (e : Event) (s : State) : (s.facing e).variant = s.variant := rfl

@[simp] theorem State.facing_len (e : Event) (s : State) : (s.facing e).len = s.len := rfl

@[simp] theorem State.facing_outLen (e : Event) (s : State) : (s.facing e).outLen = s.outLen := rfl

@[simp] theorem State.facing_keyIn (e : Event) (s : State) : (s.facing e).keyIn = s.keyIn := rfl

@[simp] theorem State.facing_blockIn (e : Event) (s : State) : (s.facing e).blockIn = s.blockIn := rfl

@[simp] theorem State.facing_blockOut (e : Event) (s : State) : (s.facing e).blockOut = s.blockOut := rfl

@[simp] theorem State.facing_mem (e : Event) (s : State) : (s.facing e).mem = s.mem := rfl

@[simp] theorem State.facing_key (e : Event) (s : State) : (s.facing e).key = s.key := rfl

@[simp] theorem State.facing_engines (e : Event) (s : State) : (s.facing e).engines = s.engines := rfl

@[simp] theorem State.facing_seq (e : Event) (s : State) : (s.facing e).seq = s.seq := rfl

@[simp] theorem State.facing_rst (e : Event) (s : State) : (s.facing e).rst = s.rst := rfl

@[simp] theorem State.facing_rdata (e : Event) (s : State) : (s.facing e).rdata = s.rdata := rfl

@[simp] theorem State.facing_resetSeen (e : Event) (s : State) : (s.facing e).resetSeen = s.resetSeen := rfl

@[simp] theorem State.facing_draws (e : Event) (s : State) : (s.facing e).draws = s.draws := rfl

@[simp] theorem State.facing_agenda (e : Event) (s : State) : (s.facing e).agenda = e :: s.agenda := rfl

/-! ## complete -/

@[simp] theorem State.complete_cfg (r : Result) (s : State) : (s.complete r).cfg = s.cfg := by
  cases r <;> rfl

@[simp] theorem State.complete_ie (r : Result) (s : State) : (s.complete r).ie = s.ie := by
  cases r <;> rfl

@[simp] theorem State.complete_keylen (r : Result) (s : State) : (s.complete r).keylen = s.keylen := by
  cases r <;> rfl

@[simp] theorem State.complete_variant (r : Result) (s : State) : (s.complete r).variant = s.variant := by
  cases r <;> rfl

@[simp] theorem State.complete_len (r : Result) (s : State) : (s.complete r).len = s.len := by
  cases r <;> rfl

@[simp] theorem State.complete_keyIn (r : Result) (s : State) : (s.complete r).keyIn = s.keyIn := by
  cases r <;> rfl

@[simp] theorem State.complete_blockIn (r : Result) (s : State) : (s.complete r).blockIn = s.blockIn := by
  cases r <;> rfl

@[simp] theorem State.complete_mem (r : Result) (s : State) : (s.complete r).mem = s.mem := by
  cases r <;> rfl

@[simp] theorem State.complete_engines (r : Result) (s : State) : (s.complete r).engines = (List.range s.cfg.nLanes).map (Engine.released s.draws) := by
  cases r <;> rfl

@[simp] theorem State.complete_seq (r : Result) (s : State) : (s.complete r).seq = { s.seq with phase := .idle, stage := .waiting } := by
  cases r <;> rfl

@[simp] theorem State.complete_rst (r : Result) (s : State) : (s.complete r).rst = s.rst := by
  cases r <;> rfl

@[simp] theorem State.complete_rdata (r : Result) (s : State) : (s.complete r).rdata = s.rdata := by
  cases r <;> rfl

@[simp] theorem State.complete_resetSeen (r : Result) (s : State) : (s.complete r).resetSeen = s.resetSeen := by
  cases r <;> rfl

@[simp] theorem State.complete_draws (r : Result) (s : State) : (s.complete r).draws = s.draws + 1 := by
  cases r <;> rfl

@[simp] theorem State.complete_agenda (r : Result) (s : State) : (s.complete r).agenda = s.agenda := by
  cases r <;> rfl

/-- STATUS after a completion (R193). -/
@[simp] def Result.statusAfter : Result → Status → Status
  | .nothing, f => f.completed
  | .key _, f => f.keyLoaded
  | .block _, f => f.completed
  | .length _, f => f.completed
  | .error _, f => f.failed

/-- ERR after a completion (R193). -/
@[simp] def Result.errAfter : Result → Byte
  | .nothing => 0x00
  | .key _ => 0x00
  | .block _ => 0x00
  | .length _ => 0x00
  | .error c => c.code

/-- KEY after a completion (R193). -/
@[simp] def Result.keyAfter : Result → Key → Key
  | .nothing, k => k
  | .key k', _ => k'
  | .block _, k => k
  | .length _, k => k
  | .error _, k => k

/-- BLOCK_OUT after a completion (R193). -/
@[simp] def Result.blockOutAfter : Result → Vector Byte 8 → Vector Byte 8
  | .nothing, b => b
  | .key _, b => b
  | .block b', _ => b'
  | .length _, b => b
  | .error _, b => b

/-- OUT_LEN after a completion (R193). -/
@[simp] def Result.outLenAfter : Result → BitVec 32 → BitVec 32
  | .nothing, n => n
  | .key _, n => n
  | .block _, n => n
  | .length n', _ => n'
  | .error _, n => n

@[simp] theorem State.complete_status (r : Result) (s : State) : (s.complete r).status = r.statusAfter s.status := by
  cases r <;> rfl

@[simp] theorem State.complete_err (r : Result) (s : State) : (s.complete r).err = r.errAfter := by
  cases r <;> rfl

@[simp] theorem State.complete_key (r : Result) (s : State) : (s.complete r).key = r.keyAfter s.key := by
  cases r <;> rfl

@[simp] theorem State.complete_blockOut (r : Result) (s : State) : (s.complete r).blockOut = r.blockOutAfter s.blockOut := by
  cases r <;> rfl

@[simp] theorem State.complete_outLen (r : Result) (s : State) : (s.complete r).outLen = r.outLenAfter s.outLen := by
  cases r <;> rfl

/-! ## STATUS -/

@[simp] theorem Status.accepted_busy (f : Status) : (f.accepted).busy = true := rfl

@[simp] theorem Status.accepted_done (f : Status) : (f.accepted).done = false := rfl

@[simp] theorem Status.accepted_errf (f : Status) : (f.accepted).errf = false := rfl

@[simp] theorem Status.accepted_ovr (f : Status) : (f.accepted).ovr = f.ovr := rfl

@[simp] theorem Status.accepted_keyv (f : Status) : (f.accepted).keyv = f.keyv := rfl

@[simp] theorem Status.completed_busy (f : Status) : (f.completed).busy = false := rfl

@[simp] theorem Status.completed_done (f : Status) : (f.completed).done = true := rfl

@[simp] theorem Status.completed_errf (f : Status) : (f.completed).errf = f.errf := rfl

@[simp] theorem Status.completed_ovr (f : Status) : (f.completed).ovr = f.ovr := rfl

@[simp] theorem Status.completed_keyv (f : Status) : (f.completed).keyv = f.keyv := rfl

@[simp] theorem Status.failed_busy (f : Status) : (f.failed).busy = false := rfl

@[simp] theorem Status.failed_done (f : Status) : (f.failed).done = true := rfl

@[simp] theorem Status.failed_errf (f : Status) : (f.failed).errf = true := rfl

@[simp] theorem Status.failed_ovr (f : Status) : (f.failed).ovr = f.ovr := rfl

@[simp] theorem Status.failed_keyv (f : Status) : (f.failed).keyv = f.keyv := rfl

@[simp] theorem Status.keyLoaded_busy (f : Status) : (f.keyLoaded).busy = false := rfl

@[simp] theorem Status.keyLoaded_done (f : Status) : (f.keyLoaded).done = true := rfl

@[simp] theorem Status.keyLoaded_errf (f : Status) : (f.keyLoaded).errf = f.errf := rfl

@[simp] theorem Status.keyLoaded_ovr (f : Status) : (f.keyLoaded).ovr = f.ovr := rfl

@[simp] theorem Status.keyLoaded_keyv (f : Status) : (f.keyLoaded).keyv = true := rfl

@[simp] theorem Status.overrun_busy (f : Status) : (f.overrun).busy = f.busy := rfl

@[simp] theorem Status.overrun_done (f : Status) : (f.overrun).done = f.done := rfl

@[simp] theorem Status.overrun_errf (f : Status) : (f.overrun).errf = f.errf := rfl

@[simp] theorem Status.overrun_ovr (f : Status) : (f.overrun).ovr = true := rfl

@[simp] theorem Status.overrun_keyv (f : Status) : (f.overrun).keyv = f.keyv := rfl

@[simp] theorem Status.clearedBy_busy (f : Status) (w : Byte) : (f.clearedBy w).busy = f.busy := rfl

@[simp] theorem Status.clearedBy_done (f : Status) (w : Byte) : (f.clearedBy w).done = (f.done && !w.getLsbD 1) := rfl

@[simp] theorem Status.clearedBy_errf (f : Status) (w : Byte) : (f.clearedBy w).errf = (f.errf && !w.getLsbD 2) := rfl

@[simp] theorem Status.clearedBy_ovr (f : Status) (w : Byte) : (f.clearedBy w).ovr = (f.ovr && !w.getLsbD 3) := rfl

@[simp] theorem Status.clearedBy_keyv (f : Status) (w : Byte) : (f.clearedBy w).keyv = f.keyv := rfl

end Sys2Proof.Machine
end

