-- ==== Sys2Proof/Laws/Ops.lean ====
section
/-! SUPPORT. What the shared operations and the step can do, said once: later proofs cite these instead of unfolding. -/

namespace Sys2Proof.Machine

/-! ## Host writes -/

theorem operandWrite_busy {s written : State} (h : s.status.busy = true) : s.operandWrite written = s.dropWrite := by
  simp [State.operandWrite, h]

theorem operandWrite_idle {s written : State} (h : s.status.busy = false) : s.operandWrite written = written := by
  simp [State.operandWrite, h]

/-! ## Lengths (R170) -/

theorem padLen_eq (n : Nat) : padLen n = 8 * ((n + 7) / 8) := rfl

theorem padLen_mod (n : Nat) : padLen n % 8 = 0 := by rw [padLen_eq]; omega

theorem le_padLen (n : Nat) : n ≤ padLen n := by rw [padLen_eq]; omega

theorem padLen_of_mod {n : Nat} (h : n % 8 = 0) : padLen n = n := by rw [padLen_eq]; omega

theorem blockCount_eq (s : State) : s.blockCount = (s.len.toNat + 7) / 8 := by
  show padLen s.len.toNat / 8 = _
  rw [padLen_eq]; omega

theorem bufBytes_le (c : Config) : c.bufBytes ≤ 4096 ∧ c.bufBytes % 8 = 0 := by
  have := c.bufUnits.isLt
  simp only [Config.bufBytes]; omega

/-- A message that fits the buffers is padded within them (R170). -/
theorem padLen_le {c : Config} {n : Nat} (h : n ≤ c.bufBytes) : padLen n ≤ c.bufBytes := by
  have := bufBytes_le c
  rw [padLen_eq]; omega

/-! ## The address map (R82) -/

theorem locateNat_reg {n : Nat} :
    (n = 0 → locateNat n = .cmd) ∧ (n = 1 → locateNat n = .status) ∧ (n = 2 → locateNat n = .err)
      ∧ (n = 3 → locateNat n = .ctrl) ∧ (n = 4 → locateNat n = .keylen) ∧ (n = 5 → locateNat n = .keycfg) := by
  refine ⟨?_, ?_, ?_, ?_, ?_, ?_⟩ <;> rintro rfl <;> rfl

theorem locateNat_len {n : Nat} (h : 0x0008 ≤ n ∧ n < 0x000C) : locateNat n = .len ⟨n - 0x0008, by omega⟩ := by
  unfold locateNat
  iterate 6 rw [if_neg (by omega)]
  rw [dif_pos h]

theorem locateNat_outLen {n : Nat} (h : 0x000C ≤ n ∧ n < 0x0010) : locateNat n = .outLen ⟨n - 0x000C, by omega⟩ := by
  unfold locateNat
  iterate 6 rw [if_neg (by omega)]
  rw [dif_neg (by omega), dif_pos h]

theorem locateNat_keyIn {n : Nat} (h : 0x0010 ≤ n ∧ n < 0x0020) : locateNat n = .keyIn ⟨n - 0x0010, by omega⟩ := by
  unfold locateNat
  iterate 6 rw [if_neg (by omega)]
  iterate 2 rw [dif_neg (by omega)]
  rw [dif_pos h]

theorem locateNat_blockIn {n : Nat} (h : 0x0020 ≤ n ∧ n < 0x0028) : locateNat n = .blockIn ⟨n - 0x0020, by omega⟩ := by
  unfold locateNat
  iterate 6 rw [if_neg (by omega)]
  iterate 3 rw [dif_neg (by omega)]
  rw [dif_pos h]

theorem locateNat_blockOut {n : Nat} (h : 0x0028 ≤ n ∧ n < 0x0030) :
    locateNat n = .blockOut ⟨n - 0x0028, by omega⟩ := by
  unfold locateNat
  iterate 6 rw [if_neg (by omega)]
  iterate 4 rw [dif_neg (by omega)]
  rw [dif_pos h]

theorem locateNat_inBuf {n : Nat} (h : 0x1000 ≤ n ∧ n < 0x2000) : locateNat n = .inBuf ⟨n - 0x1000, by omega⟩ := by
  unfold locateNat
  iterate 6 rw [if_neg (by omega)]
  iterate 5 rw [dif_neg (by omega)]
  rw [dif_pos h]

theorem locateNat_outBuf {n : Nat} (h : 0x2000 ≤ n ∧ n < 0x3000) : locateNat n = .outBuf ⟨n - 0x2000, by omega⟩ := by
  unfold locateNat
  iterate 6 rw [if_neg (by omega)]
  iterate 6 rw [dif_neg (by omega)]
  rw [dif_pos h]

theorem locateNat_reserved {n : Nat} (h : n = 6 ∨ n = 7 ∨ (0x0030 ≤ n ∧ n < 0x1000) ∨ 0x3000 ≤ n) :
    locateNat n = .reserved := by
  unfold locateNat
  iterate 6 rw [if_neg (by omega)]
  iterate 7 rw [dif_neg (by omega)]

/-- An address is a register, a byte of one of the seven arrays, or reserved. -/
theorem address_cases (n : Nat) :
    n = 0 ∨ n = 1 ∨ n = 2 ∨ n = 3 ∨ n = 4 ∨ n = 5 ∨ (0x0008 ≤ n ∧ n < 0x000C) ∨ (0x000C ≤ n ∧ n < 0x0010)
      ∨ (0x0010 ≤ n ∧ n < 0x0020) ∨ (0x0020 ≤ n ∧ n < 0x0028) ∨ (0x0028 ≤ n ∧ n < 0x0030) ∨ (0x1000 ≤ n ∧ n < 0x2000)
      ∨ (0x2000 ≤ n ∧ n < 0x3000) ∨ (n = 6 ∨ n = 7 ∨ (0x0030 ≤ n ∧ n < 0x1000) ∨ 0x3000 ≤ n) := by omega

/-- Only address 0 is CMD and only address 1 is STATUS. -/
theorem locateNat_cmd_status (n : Nat) : (locateNat n = .cmd ↔ n = 0) ∧ (locateNat n = .status ↔ n = 1) := by
  rcases address_cases n with rfl | rfl | rfl | rfl | rfl | rfl | h | h | h | h | h | h | h | h
  · exact ⟨by decide, by decide⟩
  · exact ⟨by decide, by decide⟩
  · exact ⟨by decide, by decide⟩
  · exact ⟨by decide, by decide⟩
  · exact ⟨by decide, by decide⟩
  · exact ⟨by decide, by decide⟩
  · rw [locateNat_len h]; exact ⟨⟨fun e => (by cases e), fun e => (by omega)⟩, ⟨fun e => (by cases e), fun e => (by omega)⟩⟩
  · rw [locateNat_outLen h]; exact ⟨⟨fun e => (by cases e), fun e => (by omega)⟩, ⟨fun e => (by cases e), fun e => (by omega)⟩⟩
  · rw [locateNat_keyIn h]; exact ⟨⟨fun e => (by cases e), fun e => (by omega)⟩, ⟨fun e => (by cases e), fun e => (by omega)⟩⟩
  · rw [locateNat_blockIn h]; exact ⟨⟨fun e => (by cases e), fun e => (by omega)⟩, ⟨fun e => (by cases e), fun e => (by omega)⟩⟩
  · rw [locateNat_blockOut h]; exact ⟨⟨fun e => (by cases e), fun e => (by omega)⟩, ⟨fun e => (by cases e), fun e => (by omega)⟩⟩
  · rw [locateNat_inBuf h]; exact ⟨⟨fun e => (by cases e), fun e => (by omega)⟩, ⟨fun e => (by cases e), fun e => (by omega)⟩⟩
  · rw [locateNat_outBuf h]; exact ⟨⟨fun e => (by cases e), fun e => (by omega)⟩, ⟨fun e => (by cases e), fun e => (by omega)⟩⟩
  · rw [locateNat_reserved h]; exact ⟨⟨fun e => (by cases e), fun e => (by omega)⟩, ⟨fun e => (by cases e), fun e => (by omega)⟩⟩

/-! ## Commands -/

/-- What a command commits once its checks have passed (R193). -/
def State.committed (i : Instr) (s : State) : State :=
  match i with
  | .nop => s.complete .nothing
  | .loadkey =>
    match s.keyOperand with
    | .ok k => s.complete (.key k)
    | .error c => s.raise c
  | .encb => s.complete (.block (stateToBytes (encrypt s.blockOperand s.key)))
  | .decb => s.complete (.block (stateToBytes (decrypt s.blockOperand s.key)))
  | .ecbe => (s.runMapper .enc s.sequentialOrder).complete (.length s.encryptLength)
  | .ecbd => (s.runMapper .dec s.sequentialOrder).complete (.length s.len)
  | .pecbe => (s.runMapper .enc s.parallelOrder).complete (.length s.encryptLength)
  | .pecbd => (s.runMapper .dec s.parallelOrder).complete (.length s.len)

/-- Every command answers a next state: the error of its first failing check, or its commit (R191, R193). -/
theorem exec_eq (i : Instr) (s : State) :
    exec i s = .next (match s.check i with
      | some c => s.raise c
      | none => s.committed i) := by
  cases i
  case nop => rfl
  case loadkey =>
    simp only [exec, execLoadkey, State.check, State.checkLoadkey, State.committed]
    cases s.keyOperand <;> rfl
  case encb => simp only [exec, execEncb, State.check, State.committed]; cases s.checkBlock <;> rfl
  case decb => simp only [exec, execDecb, State.check, State.committed]; cases s.checkBlock <;> rfl
  case ecbe => simp only [exec, execEcbe, State.check, State.committed]; cases s.checkEcbEncrypt <;> rfl
  case ecbd => simp only [exec, execEcbd, State.check, State.committed]; cases s.checkEcbDecrypt <;> rfl
  case pecbe => simp only [exec, execPecbe, State.check, State.committed]; cases s.checkEcbEncrypt <;> rfl
  case pecbd => simp only [exec, execPecbd, State.check, State.committed]; cases s.checkEcbDecrypt <;> rfl

/-! ## Steps -/

/-- A step takes the first event of the agenda. -/
theorem step_facing (e : Event) (s : State) : step (s.facing e) = s.perform e := rfl

/-- With nothing left to happen a step lets a running command finish. -/
theorem step_quiet {s : State} (h : s.agenda = []) : step s = s.perform .run := by
  simp [step, State.transition, h]

theorem step_cons {s : State} {e : Event} {rest : List Event} (h : s.agenda = e :: rest) :
    step s = State.perform e { s with agenda := rest } := by
  simp [step, State.transition, h]

theorem perform_ready {s : State} (h : s.Ready) (e : Event) : s.perform e = s.outOfReset e := by
  simp [State.perform, h.rstLow, h.resetSeen]

theorem perform_reset {s : State} (h : s.rst = true) (e : Event) : s.perform e = .next (s.inReset e) := by
  simp [State.perform, h]

/-- What one event does when it answers a next state. -/
theorem perform_cases {s t : State} {e : Event} (h : s.perform e = .next t) :
    (s.rst = true ∧ t = s.inReset e) ∨ (s.rst = false ∧ e = .rst true ∧ t = s.resetTo)
      ∨ (s.Ready ∧ e = .rst false ∧ t = s)
      ∨ (∃ a w, s.Ready ∧ e = .write a w ∧ t = s.busWrite a w)
      ∨ (∃ a, s.Ready ∧ e = .read a ∧ t = s.busRead a)
      ∨ (∃ l p, s.Ready ∧ e = .core l p ∧ t = s.coreStep l p)
      ∨ (s.Ready ∧ e = .run ∧ s.runCommand = .next t) := by
  unfold State.perform at h
  by_cases hr : s.rst = true
  · rw [if_pos hr] at h
    injection h with h
    exact Or.inl ⟨hr, h.symm⟩
  · have hf : s.rst = false := by simpa using hr
    rw [if_neg hr] at h
    by_cases hs : s.resetSeen = true
    · rw [if_pos hs] at h
      have hR : s.Ready := ⟨hf, hs⟩
      cases e with
      | write a w => injection h with h; exact Or.inr (Or.inr (Or.inr (Or.inl ⟨a, w, hR, rfl, h.symm⟩)))
      | read a => injection h with h; exact Or.inr (Or.inr (Or.inr (Or.inr (Or.inl ⟨a, hR, rfl, h.symm⟩))))
      | rst b =>
        cases b with
        | true => injection h with h; exact Or.inr (Or.inl ⟨hf, rfl, h.symm⟩)
        | false => injection h with h; exact Or.inr (Or.inr (Or.inl ⟨hR, rfl, h.symm⟩))
      | core l p =>
        injection h with h
        exact Or.inr (Or.inr (Or.inr (Or.inr (Or.inr (Or.inl ⟨l, p, hR, rfl, h.symm⟩)))))
      | run => exact Or.inr (Or.inr (Or.inr (Or.inr (Or.inr (Or.inr ⟨hR, rfl, h⟩)))))
    · rw [if_neg hs] at h
      cases e with
      | rst b =>
        cases b with
        | true => injection h with h; exact Or.inr (Or.inl ⟨hf, rfl, h.symm⟩)
        | false => cases h
      | write a w => cases h
      | read a => cases h
      | core l p => cases h
      | run => cases h

/-- The merged step of a command just accepted: the command, or ILLEGAL_CMD for a reserved opcode. -/
theorem runCommand_check {s : State} (hp : s.seq.phase = .run) (hs : s.seq.stage = .check) :
    s.runCommand = match decode s.seq.op with
      | .ok i => exec i s
      | .error _ => .next (s.raise .illegalCmd) := by
  unfold State.runCommand State.fetch
  rw [hp, hs]
  cases decode s.seq.op <;> rfl

/-- The merged step of a command under way: the steps it has left. -/
theorem runCommand_under_way {s : State} (hp : s.seq.phase = .run) (hs : s.seq.stage ≠ .check) :
    s.runCommand = .next s.finishCommand := by
  unfold State.runCommand
  rw [hp]
  cases h : s.seq.stage <;> first | rfl | exact absurd h hs

/-- While no command runs the merged step changes nothing. -/
theorem runCommand_idle {s : State} (hp : s.seq.phase = .idle) : s.runCommand = .next s := by
  unfold State.runCommand
  rw [hp]

/-! ## Acceptance -/

/-- A command's checks and blocks do not see what acceptance changes. -/
theorem accept_check (i : Instr) (w : Byte) (s : State) : (s.accept w).check i = s.check i := by cases i <;> rfl

theorem accept_mapperBlocks (v w : Byte) (s : State) : (s.accept w).mapperBlocks v = s.mapperBlocks v := by
  unfold State.mapperBlocks
  split
  · rw [accept_check]; rfl
  · rfl

/-- Acceptance sets TODO and WRITTEN (R180). -/
theorem accept_blocksReady (w : Byte) (s : State) : (s.accept w).BlocksReady := by
  intro bs h
  have h' : s.mapperBlocks w = some bs := by rw [← accept_mapperBlocks w w s]; exact h
  exact ⟨by rw [State.accept_todo, h']; rfl, by rw [State.accept_written, h']; rfl⟩

/-- When acceptance hands blocks to the mapper, and which. -/
theorem mapperBlocks_eq_some {w : Byte} {s : State} {bs : List Nat} :
    s.mapperBlocks w = some bs ↔
      ∃ i, decode w = .ok i ∧ isEcb i = true ∧ s.check i = none ∧ bs = List.range s.blockCount := by
  unfold State.mapperBlocks
  cases decode w with
  | error e => simp
  | ok i =>
    simp only [Except.ok.injEq, exists_eq_left']
    cases he : isEcb i <;> cases hc : s.check i <;> simp
    exact eq_comm

end Sys2Proof.Machine
end

