-- ==== Sys2Proof/Laws/PerInstr.lean ====
section
/-! SUPPORT. Statements for all commands, one lemma per constructor. -/

namespace Sys2Proof.Laws.OpcodeFits

/-- The command is well formed, its opcode is below 0x08, and the decoder reads the command back from its opcode (R102). -/
def Statement (i : Instr) : Prop := i.wf = true ∧ (encode i).toNat < 8 ∧ decode (encode i) = .ok i

theorem nop : Statement .nop := ⟨rfl, by decide, rfl⟩

theorem loadkey : Statement .loadkey := ⟨rfl, by decide, rfl⟩

theorem encb : Statement .encb := ⟨rfl, by decide, rfl⟩

theorem decb : Statement .decb := ⟨rfl, by decide, rfl⟩

theorem ecbe : Statement .ecbe := ⟨rfl, by decide, rfl⟩

theorem ecbd : Statement .ecbd := ⟨rfl, by decide, rfl⟩

theorem pecbe : Statement .pecbe := ⟨rfl, by decide, rfl⟩

theorem pecbd : Statement .pecbd := ⟨rfl, by decide, rfl⟩

end Sys2Proof.Laws.OpcodeFits
end

