-- ==== Sys2Proof/Laws/Sequencer.lean ====
section
/-! SUPPORT. What one internal step can do, and where the reference schedules stand after each step. -/

namespace Sys2Proof.Machine

/-! ## One internal step -/

/-- What an internal step short of completion can do: it changes the engines, TODO, WRITTEN, the place in the life cycle,
OUT_BUF and the draws, and nothing else (R192). -/
structure State.InternalTo (s t : State) : Prop where
  same : t = { s with mem := t.mem, engines := t.engines, seq := t.seq, draws := t.draws }
  phase : t.seq.phase = s.seq.phase
  op : t.seq.op = s.seq.op
  lanes : t.engines.length = s.engines.length
  belowOutBuf : ∀ a, a < outBase → Memory.get? t.mem a = Memory.get? s.mem a
  wf : Memory.wf s.mem → Memory.wf t.mem

/-- A change of the sequencer alone. -/
theorem internal_seq {s : State} (q : Seq) (hp : q.phase = s.seq.phase) (ho : q.op = s.seq.op) :
    s.InternalTo { s with seq := q } := ⟨rfl, hp, ho, rfl, fun _ _ => rfl, id⟩

/-- A change of the engines, the sequencer and the draws. -/
theorem internal_engines {s : State} (es : List Engine) (q : Seq) (n : Nat) (he : es.length = s.engines.length)
    (hp : q.phase = s.seq.phase) (ho : q.op = s.seq.op) :
    s.InternalTo { s with engines := es, seq := q, draws := n } := ⟨rfl, hp, ho, he, fun _ _ => rfl, id⟩

theorem internal_refl (s : State) : s.InternalTo s := internal_seq s.seq rfl rfl

/-- A mapper step writes only OUT_BUF (R181). -/
theorem internal_mapperStep (m : Mapper) (d : Direction) (l p : Nat) (n : BitVec 32) (s : State) :
    s.InternalTo (s.mapperStep m d l p n) := by
  have ht : s.InternalTo (s.takeBlock l p) := by
    unfold State.takeBlock
    split
    · exact internal_refl s
    · exact internal_engines _ _ s.draws (by simp) rfl rfl
  unfold State.mapperStep
  split
  · exact ht
  · rename_i j _
    split
    · cases m
      · exact ht
      · exact internal_refl s
    · refine ⟨rfl, rfl, rfl, by simp [State.writeResult, State.setEngine], fun a ha => ?_, fun h => writeBlock_wf h _ _⟩
      show Memory.get? (writeBlock _ _ _) a = _
      rw [get?_writeBlock, if_neg (by omega)]
    · exact internal_engines _ _ _ (by simp) rfl rfl
    · exact internal_engines _ _ s.draws (by simp) rfl rfl

theorem internal_begin (i : Instr) (s : State) : s.InternalTo (s.begin i) := by
  have hb : s.InternalTo s.beginBlock := internal_engines _ _ s.draws (by simp) rfl rfl
  have hm : ∀ n, s.InternalTo (s.beginMapper n) := fun n => internal_engines _ _ s.draws (by simp) rfl rfl
  cases i
  case nop => exact internal_seq _ rfl rfl
  case loadkey => exact internal_seq _ rfl rfl
  case encb => exact hb
  case decb => exact hb
  all_goals exact hm _

/-- An internal step is the completion of a waiting result, or touches only internal state and OUT_BUF. -/
theorem coreStep_cases (l p : Nat) (s : State) :
    (∃ r, s.seq.stage = .finish r ∧ s.coreStep l p = s.complete r) ∨ s.InternalTo (s.coreStep l p) := by
  unfold State.coreStep
  cases hs : s.seq.stage with
  | waiting => exact .inr (internal_refl s)
  | check =>
    right; dsimp only; unfold State.checkStep
    split
    · exact internal_seq _ rfl rfl
    · split
      · exact internal_seq _ rfl rfl
      · exact internal_begin _ s
  | finish r => exact .inl ⟨r, rfl, rfl⟩
  | datapath =>
    right; dsimp only
    have hb : ∀ d, s.InternalTo (s.blockStep d) := fun d => by
      unfold State.blockStep; dsimp only
      split <;> exact internal_engines _ _ s.draws (by simp) rfl rfl
    split
    · exact internal_seq _ rfl rfl
    · rename_i i _
      cases i
      case nop => exact internal_seq _ rfl rfl
      case loadkey =>
        show s.InternalTo s.keyStep
        unfold State.keyStep
        split <;> exact internal_seq _ rfl rfl
      case encb => exact hb _
      case decb => exact hb _
      case ecbe => exact internal_mapperStep .sequential .enc 0 0 _ s
      case ecbd => exact internal_mapperStep .sequential .dec 0 0 _ s
      case pecbe => exact internal_mapperStep .parallel .enc _ _ _ s
      case pecbd => exact internal_mapperStep .parallel .dec _ _ _ s

/-! ## Several internal steps -/

@[simp] theorem coreSteps_nil (s : State) : s.coreSteps [] = s := rfl

@[simp] theorem coreSteps_cons (c : Nat × Nat) (cs : List (Nat × Nat)) (s : State) :
    s.coreSteps (c :: cs) = (s.coreStep c.1 c.2).coreSteps cs := rfl

theorem coreSteps_append (cs ds : List (Nat × Nat)) (s : State) :
    s.coreSteps (cs ++ ds) = (s.coreSteps cs).coreSteps ds := List.foldl_append

theorem drainLane_steps (l n : Nat) (s : State) : ∃ cs, s.drainLane l n = s.coreSteps cs := by
  induction n generalizing s with
  | zero => exact ⟨[], rfl⟩
  | succ n ih =>
    unfold State.drainLane
    split
    · exact ⟨[], rfl⟩
    · obtain ⟨cs, h⟩ := ih (s.coreStep l 0)
      exact ⟨(l, 0) :: cs, h⟩

theorem drainLanes_steps (s : State) : ∃ cs, s.drainLanes = s.coreSteps cs := by
  unfold State.drainLanes
  generalize List.range s.cfg.nLanes = ls
  induction ls generalizing s with
  | nil => exact ⟨[], rfl⟩
  | cons l ls ih =>
    obtain ⟨cs, h⟩ := drainLane_steps l 65 s
    obtain ⟨ds, h'⟩ := ih (s.drainLane l 65)
    exact ⟨cs ++ ds, by rw [List.foldl_cons, h', coreSteps_append, h]⟩

theorem finishOnLane0_steps (n : Nat) (s : State) : ∃ cs, s.finishOnLane0 n = s.coreSteps cs := by
  induction n generalizing s with
  | zero => exact ⟨[], rfl⟩
  | succ n ih =>
    unfold State.finishOnLane0
    split
    · exact ⟨[], rfl⟩
    · obtain ⟨cs, h⟩ := ih (s.coreStep 0 0)
      exact ⟨(0, 0) :: cs, h⟩

/-- Finishing a command that is under way is a sequence of internal steps (R192). -/
theorem finishCommand_steps (s : State) : ∃ cs, s.finishCommand = s.coreSteps cs := by
  obtain ⟨cs, h⟩ := drainLanes_steps s
  obtain ⟨ds, h'⟩ := finishOnLane0_steps (66 * s.drainLanes.seq.todo.length + 3) s.drainLanes
  exact ⟨cs ++ ds, by rw [State.finishCommand, h', coreSteps_append, ← h]⟩

/-- What internal steps keep, one by one, they keep together. -/
theorem coreSteps_induct {P : State → Prop} (h : ∀ s l p, P s → P (s.coreStep l p)) (cs : List (Nat × Nat)) (s : State)
    (hs : P s) : P (s.coreSteps cs) := by
  induction cs generalizing s with
  | nil => exact hs
  | cons c cs ih => exact ih _ (h _ _ _ hs)

/-! ## The reference schedules (R165, R166) -/

/-- The engine registers stand where the reference schedule of the block `x` under `key` has them before the step that
`stage` names. -/
def Engine.OnSchedule (d : Direction) (key : Key) (x : Block) (e : Engine) : Prop :=
  match e.stage with
  | .idle => False
  | .start => True
  | .rounds => d = .enc ∧ 1 ≤ e.rc.toNat ∧ e.kr = krAt key (e.rc.toNat - 1)
      ∧ e.state = (encryptRounds x key (e.rc.toNat - 1)).1
  | .final => d = .enc ∧ e.kr = krAt key 31 ∧ e.state = (encryptRounds x key 31).1
  | .keygen => d = .dec ∧ 1 ≤ e.rc.toNat ∧ e.kr = krAt key (e.rc.toNat - 1) ∧ e.state = x
      ∧ ∀ (n : Nat) (h : n < 32), n < e.rc.toNat → e.rk[n] = roundKey (krAt key n)
  | .whiten => d = .dec ∧ e.state = x ∧ ∀ (n : Nat) (h : n < 32), e.rk[n] = roundKey (krAt key n)
  | .iround i => d = .dec ∧ i < 31 ∧ (∀ (n : Nat) (h : n < 32), e.rk[n] = roundKey (krAt key n))
      ∧ decryptRounds (roundKeyList key) (i + 1) e.state = decrypt x key
  | .result => e.state = blockCipher d x key

/-- How many steps of the schedule are left (R247). -/
def Engine.stepsLeft (d : Direction) (e : Engine) : Nat :=
  match e.stage with
  | .idle => 0
  | .start =>
    match d with
    | .enc => 33
    | .dec => 64
  | .rounds => 33 - e.rc.toNat
  | .final => 1
  | .keygen => 64 - e.rc.toNat
  | .whiten => 32
  | .iround i => i + 1
  | .result => 0

/-- The list that decryption generates holds the round keys of encryption (R149, R161). -/
theorem roundKeysFrom_getElem? (k : Key) (r n i : Nat) (h : i < n) :
    (roundKeysFrom (krAt k r) (r + 1) n)[i]? = some (roundKey (krAt k (r + i))) := by
  induction n generalizing r i with
  | zero => omega
  | succ n ih =>
    cases i with
    | zero => rfl
    | succ i =>
      rw [roundKeysFrom, List.getElem?_cons_succ]
      have := ih (r + 1) i (by omega)
      rw [show r + (i + 1) = r + 1 + i by omega]
      exact this

theorem roundKeyList_getD (k : Key) (r : Nat) (h : r < 32) : (roundKeyList k).getD r 0 = roundKey (krAt k r) := by
  have := roundKeysFrom_getElem? k 0 32 r h
  rw [Nat.zero_add] at this
  rw [List.getD_eq_getElem?_getD]
  show ((roundKeysFrom (krAt k 0) (0 + 1) 32)[r]?).getD 0 = _
  rw [this, Nat.zero_add]; rfl

theorem nextRc_toNat {rc : BitVec 5} (h : rc ≠ lastRc) : (nextRc rc).toNat = rc.toNat + 1 ∧ rc.toNat < 31 := by
  have h31 : rc.toNat ≠ 31 := fun e => h (BitVec.eq_of_toNat_eq e)
  have := rc.isLt
  rw [nextRc, if_neg h, BitVec.toNat_add]
  exact ⟨by simp; omega, by omega⟩

/-- The advance with counter `rc` leads to round `rc` of the key (R149). -/
theorem krAt_advance (key : Key) (rc : BitVec 5) (h : 1 ≤ rc.toNat) :
    advance (krAt key (rc.toNat - 1)) rc = krAt key rc.toNat := by
  have e : rc.toNat = (rc.toNat - 1) + 1 := by omega
  conv => rhs; rw [e, krAt]
  rw [← e, BitVec.ofNat_toNat]; simp

/-- A step of the schedule keeps the engine on it and leaves one step less. -/
theorem advanceSchedule_onSchedule {d : Direction} {key : Key} {x y : Block} {e : Engine} (h : e.OnSchedule d key x)
    (hs : e.stage ≠ .result) (hy : e.stage = .start → y = x) :
    (e.advanceSchedule d key y).OnSchedule d key x
      ∧ (e.advanceSchedule d key y).stepsLeft d + 1 = e.stepsLeft d
      ∧ (e.advanceSchedule d key y).blk = e.blk ∧ (e.advanceSchedule d key y).stage ≠ .start
      ∧ (e.advanceSchedule d key y).stage ≠ .idle := by
  unfold Engine.OnSchedule at h
  unfold Engine.advanceSchedule Engine.stepsLeft
  cases hst : e.stage with
  | idle => rw [hst] at h; exact h.elim
  | result => exact (hs hst).elim
  | start =>
    have := hy hst
    subst this
    cases d with
    | enc =>
      refine ⟨?_, by simp, rfl, by simp, by simp⟩
      simp [Engine.OnSchedule, krAt, encryptRounds]
    | dec =>
      refine ⟨?_, by simp, rfl, by simp, by simp⟩
      simp only [Engine.OnSchedule]
      refine ⟨trivial, by simp, by simp [krAt], trivial, ?_⟩
      intro n hn h1
      have : n = 0 := by simpa using h1
      subst this; simp [krAt]
  | rounds =>
    rw [hst] at h
    obtain ⟨rfl, h1, hk, hx⟩ := h
    have hadv : advance e.kr e.rc = krAt key e.rc.toNat := by rw [hk, krAt_advance key _ h1]
    have henc : permute (substitute (whiten e.state (roundKey e.kr))) = (encryptRounds x key e.rc.toNat).1 := by
      have ee : e.rc.toNat = (e.rc.toNat - 1) + 1 := by omega
      conv => rhs; rw [ee, encryptRounds]
      rw [hx, hk, ← encryptRounds_snd x key]
    dsimp only
    by_cases hl : e.rc = lastRc
    · rw [if_pos hl]
      refine ⟨?_, ?_, rfl, by simp, by simp⟩
      · simp only [Engine.OnSchedule]
        rw [hadv, henc, hl]; exact ⟨trivial, rfl, rfl⟩
      · simp [hl, lastRc]
    · have hn := nextRc_toNat hl
      rw [if_neg hl]
      refine ⟨?_, ?_, rfl, by simp, by simp⟩
      · simp only [Engine.OnSchedule]
        rw [hadv, henc, hn.1]; exact ⟨trivial, by omega, rfl, rfl⟩
      · dsimp only; rw [hn.1]; omega
  | final =>
    rw [hst] at h
    obtain ⟨rfl, hk, hx⟩ := h
    refine ⟨?_, rfl, rfl, by simp, by simp⟩
    simp only [Engine.OnSchedule, blockCipher, encrypt, fullRounds]
    rw [hx, hk, encryptRounds_snd]
  | keygen =>
    rw [hst] at h
    obtain ⟨rfl, h1, hk, hx, hr⟩ := h
    have hadv : advance e.kr e.rc = krAt key e.rc.toNat := by rw [hk, krAt_advance key _ h1]
    have hrk : ∀ (n : Nat) (h : n < 32), n < e.rc.toNat + 1 →
        (e.rk.setIfInBounds e.rc.toNat (roundKey (advance e.kr e.rc)))[n] = roundKey (krAt key n) := by
      intro n hn h2
      rw [Vector.getElem_setIfInBounds]
      split
      · rename_i he; subst he; rw [hadv]
      · exact hr n hn (by omega)
    dsimp only
    by_cases hl : e.rc = lastRc
    · rw [if_pos hl]
      refine ⟨?_, ?_, rfl, by simp, by simp⟩
      · simp only [Engine.OnSchedule]
        refine ⟨trivial, hx, fun n hn => hrk n hn ?_⟩
        rw [hl]; simpa [lastRc] using hn
      · simp [hl, lastRc]
    · have hn := nextRc_toNat hl
      rw [if_neg hl]
      refine ⟨?_, ?_, rfl, by simp, by simp⟩
      · simp only [Engine.OnSchedule]
        rw [hn.1]; exact ⟨trivial, by omega, by rw [hadv]; rfl, hx, hrk⟩
      · dsimp only; rw [hn.1]; omega
  | whiten =>
    rw [hst] at h
    obtain ⟨rfl, hx, hr⟩ := h
    refine ⟨?_, rfl, rfl, by simp, by simp⟩
    simp only [Engine.OnSchedule]
    refine ⟨trivial, by omega, hr, ?_⟩
    rw [decrypt, hx, roundKeyList_getD key _ (by decide)]
    congr 1
    rw [List.getD_eq_getElem _ _ (by simp [fullRounds])]
    simp only [Vector.getElem_toList]; rw [hr fullRounds (by decide)]
  | iround i =>
    rw [hst] at h
    obtain ⟨rfl, hi, hr, hd⟩ := h
    rw [decryptRounds, roundKeyList_getD key _ (by omega)] at hd
    have hrk : e.rk.toList.getD i 0 = roundKey (krAt key i) := by
      rw [List.getD_eq_getElem _ _ (by simp; omega)]
      simp only [Vector.getElem_toList]; exact hr i (by omega)
    cases i with
    | zero =>
      refine ⟨?_, rfl, rfl, by simp, by simp⟩
      simp only [Engine.OnSchedule, blockCipher]
      rw [← hd, hrk]; rfl
    | succ i =>
      refine ⟨?_, rfl, rfl, by simp, by simp⟩
      simp only [Engine.OnSchedule]
      rw [hrk]; exact ⟨trivial, by omega, hr, hd⟩

end Sys2Proof.Machine
end

