-- ==== Sys2Proof/Tests/Slice0.lean ====
section
/-! SUPPORT. Tests: what the checks refuse, words written out from the opcode table, one-step tests with results from
spec/95_test_vectors.md, and for every statement with hypotheses a witness that meets them. -/

namespace Sys2Proof.Tests

open Sys2Proof Sys2Proof.Machine

/-! ## Helpers -/

/-- The next state, if there is one. -/
def nextState : Host.Outcome State Fault Refusal → Option State
  | .next t => some t
  | .fault _ => none
  | .refused _ => none

/-- The reset state with a key loaded. -/
def keyed (k : Key) : State :=
  { State.reset with key := k, status := { busy := false, done := false, errf := false, ovr := false, keyv := true } }

/-- The smallest core: BUF_BYTES = 8, two lanes, STRICT. -/
def smallConfig : Config := { bufUnits := 0, moreLanes := 1, keyPolicy := .strict }

/-- Bytes of IN_BUF from 0 on. -/
def inBytes (bs : List Byte) : Memory := Memory.setBytes [] inBase bs

/-- The bytes of BLOCK_OUT after a command. -/
def blockOutAfter (i : Instr) (s : State) : Option (List Byte) := (nextState (exec i s)).map fun t => t.blockOut.toList

/-- STATUS and ERR after a command. -/
def outcomeOf (i : Instr) (s : State) : Option (Byte × Byte) :=
  (nextState (exec i s)).map fun t => (t.status.toByte, t.err)

/-- The first `n` bytes of OUT_BUF, and OUT_LEN, after a command. -/
def outBufAfter (i : Instr) (s : State) (n : Nat) : Option (List (Option Byte) × Nat) :=
  (nextState (exec i s)).map fun t => ((List.range n).map fun k => Memory.get? t.mem (outBase + k), t.outLen.toNat)

/-! ## WellFormed refuses ill-formed terms

A command has no operand fields (R100), so no term of `Instr` is ill formed; the checks are those of host programs. -/

theorem test_wf_every_command : ∀ i ∈ [Instr.nop, .loadkey, .encb, .decb, .ecbe, .ecbd, .pecbe, .pecbd], i.wf = true := by
  decide

theorem test_wf_refuses_len_byte_4 : (Loc.elem .len 4).wf = false ∧ (Loc.elem .len 3).wf = true := by decide

theorem test_wf_refuses_key_in_16 : (Loc.elem .keyIn 16).wf = false ∧ (Loc.elem .keyIn 15).wf = true := by decide

theorem test_wf_refuses_wr_of_bad_location : (Prim.wr (.elem .blockIn 8) (.lit 0)).wf = false := by decide

theorem test_wf_refuses_rd_of_bad_location : (Prim.rd (.elem .outBuf 4096) ⟨"c", none⟩).wf = false := by decide

theorem test_wf_refuses_long_wrs :
    (Stmt.wrs .blockIn 7 [0, 0]).wf = false ∧ (Stmt.wrs .blockIn 6 [0, 0]).wf = true := by decide

theorem test_wf_refuses_long_copy : (Stmt.wrsVar .inBuf 4090 "c" 7).wf = false := by decide

theorem test_wf_refuses_long_rds : (Stmt.rds .outLen 1 4 "c").wf = false := by decide

theorem test_wf_refuses_duplicate_label :
    Program.wf [.prim (.label (.named "a")), .prim (.label (.named "a"))] = false := by decide

theorem test_wf_refuses_undefined_target :
    Program.wf [.prim (.ifGoto ⟨"s", none⟩ 1 false (.named "a"))] = false := by decide

theorem test_wf_refuses_label_of_wait : Program.wf [.prim (.label (.wait 0))] = false := by decide

theorem test_wf_accepts_program :
    Program.wf [.prim .reset, .cmd .encb, .wait, .prim (.rd (.reg .status) ⟨"s", none⟩),
      .prim (.ifGoto ⟨"s", none⟩ 2 true (.named "fail")), .ack, .prim (.label (.named "fail"))] = true := by decide

/-! ## Decoding: words written out bit by bit from R102 -/

theorem test_decode_nop : decode 0b00000000 = .ok .nop := by rfl
theorem test_decode_loadkey : decode 0b00000001 = .ok .loadkey := by rfl
theorem test_decode_encb : decode 0b00000010 = .ok .encb := by rfl
theorem test_decode_decb : decode 0b00000011 = .ok .decb := by rfl
theorem test_decode_ecbe : decode 0b00000100 = .ok .ecbe := by rfl
theorem test_decode_ecbd : decode 0b00000101 = .ok .ecbd := by rfl
theorem test_decode_pecbe : decode 0b00000110 = .ok .pecbe := by rfl
theorem test_decode_pecbd : decode 0b00000111 = .ok .pecbd := by rfl

/-- The first and the last reserved opcode (R103), and opcodes with a high bit set beside a defined one. -/
theorem test_decode_reserved :
    decode 0b00001000 = .error (.reservedOpcode 0x08) ∧ decode 0b11111111 = .error (.reservedOpcode 0xFF)
      ∧ decode 0b00010001 = .error (.reservedOpcode 0x11) ∧ decode 0b10000010 = .error (.reservedOpcode 0x82) :=
  ⟨rfl, rfl, rfl, rfl⟩

theorem test_table_word :
    decodeTableWord 8 0x04 = some .ecbe ∧ decodeTableWord 8 0x09 = none ∧ decodeTableWord 16 0x04 = none := by decide

/-! ## The bit layer (95_test_vectors.md 2.1, 2.2) -/

theorem test_substitute :
    substitute 0x0123456789ABCDEF = 0xC56B90AD3EF84712 ∧ substitute 0x000000000000000A = 0xCCCCCCCCCCCCCCCF := by
  decide +kernel

theorem test_inverse_substitute : inverseSubstitute 0x0123456789ABCDEF = 0x5EF8C12DB463079A := by decide +kernel

theorem test_permute :
    permute 0x0123456789ABCDEF = 0x00FF0F0F33335555 ∧ permute 0x4000000000000000 = 0x0000800000000000
      ∧ permute 0x0000040000200000 = 0x0000040000200000 := by decide +kernel

theorem test_inverse_permute : inversePermute 0x0123456789ABCDEF = 0x3500350F35F035FF := by decide +kernel

theorem test_converters :
    bytesToState #v[0x01, 0x23, 0x45, 0x67, 0x89, 0xAB, 0xCD, 0xEF] = 0x0123456789ABCDEF
      ∧ (stateToBytes 0x0000000000000001).toList = [0, 0, 0, 0, 0, 0, 0, 1] := by decide +kernel

/-! ## The key register (95_test_vectors.md 2.3, 2.8; 41_key_schedule.md R145, R146) -/

theorem test_rotate : rotateKr 0x123456789ABCDEF01234 = 0x024682468ACF13579BDE := by decide +kernel

theorem test_substitute_top : substituteTop 0x80000000000000000000 = 0x30000000000000000000 := by decide +kernel

theorem test_mix_counter : mixCounter 0 3 = 0x00000000000000018000 := by decide +kernel

theorem test_advance :
    advance 0x123456789ABCDEF01234 1 = 0xC24682468ACF13571BDE ∧ advance 0x123456789ABCDEF01234 31 = 0xC24682468ACF13581BDE
      ∧ advance 0 16 = 0xC0000000000000080000 := by decide +kernel

theorem test_round_key_register : krAt 0x0123456789ABCDEF0123 29 = 0x47373EB8F03F4DF1AB88 := by decide +kernel

/-- The bytes 11 12 .. 20. -/
def countingKey : Vector Byte 16 := Vector.ofFn fun t => BitVec.ofNat 8 (0x11 + t.val)

theorem test_key_short : keyFromBytes .padTruncate countingKey 0x02 false = .ok 0x11120000000000000000 := by decide +kernel

theorem test_key_long : keyFromBytes .padTruncate countingKey 0xFF false = .ok 0x1112131415161718191A := by decide +kernel

theorem test_key_strict :
    keyFromBytes .strict countingKey 0x0C false = .error .keyFormat
      ∧ keyFromBytes .strict countingKey 0x03 true = .error .unsupportedVariant := by decide +kernel

/-! ## The cipher (95_test_vectors.md 1.1, 2.6) -/

theorem test_encrypt_K2 : encrypt 0 0xFFFFFFFFFFFFFFFFFFFF = 0xE72C46C0F5945049 := by decide +kernel

theorem test_encrypt_K3 : encrypt 0xFFFFFFFFFFFFFFFF 0 = 0xA112FFC72F68417B := by decide +kernel

theorem test_decrypt : decrypt 0x0123456789ABCDEF 0x0123456789ABCDEF0123 = 0xABC57DCD4054C742 := by decide +kernel

theorem test_pad : pad [0x41, 0x42, 0x43] = [0x41, 0x42, 0x43, 0, 0, 0, 0, 0] ∧ padLen 4093 = 4096 ∧ padLen 0 = 0 := by
  decide

/-! ## One command each (95_test_vectors.md 2.6 to 2.9) -/

theorem test_nop : outcomeOf .nop State.reset = some (0x02, 0x00) ∧ outcomeOf .nop (keyed 0) = some (0x12, 0x00) := by
  decide

theorem test_loadkey :
    ((nextState (exec .loadkey { State.reset with keyIn := countingKey, keylen := 0x0A })).map fun t =>
      (t.key, t.status.toByte, t.err)) = some (0x1112131415161718191A, 0x12, 0x00) := by decide +kernel

theorem test_loadkey_variant : outcomeOf .loadkey { keyed 0 with variant := true } = some (0x16, 0x05) := by decide

theorem test_encb : blockOutAfter .encb (keyed 0) = some [0x55, 0x79, 0xC1, 0x38, 0x7B, 0x22, 0x84, 0x45] := by
  decide +kernel

theorem test_encb_no_key : outcomeOf .encb State.reset = some (0x06, 0x04) := by decide

/-- The example of R164. -/
theorem test_decb :
    blockOutAfter .decb { keyed 0 with blockIn := #v[0xA1, 0x12, 0xFF, 0xC7, 0x2F, 0x68, 0x41, 0x7B] } =
      some (List.replicate 8 0xFF) := by decide +kernel

theorem test_decb_no_key : outcomeOf .decb State.reset = some (0x06, 0x04) := by decide

/-- The example of R175: `41 42 43` under KEY = 0. -/
theorem test_ecbe :
    outBufAfter .ecbe { keyed 0 with len := 3, mem := inBytes [0x41, 0x42, 0x43] } 9 =
      some ([some 0x7F, some 0x99, some 0x5C, some 0x7E, some 0x94, some 0xF2, some 0xEA, some 0x66, none], 8) := by
  decide +kernel

theorem test_ecbe_length_range : outcomeOf .ecbe { keyed 0 with len := 4097 } = some (0x16, 0x06) := by decide +kernel

/-- The example of R174: the padding zeros stay. -/
theorem test_ecbd :
    outBufAfter .ecbd { keyed 0 with
        len := 16
        mem := inBytes [0x95, 0xBC, 0x3E, 0xB3, 0x1A, 0xB5, 0x51, 0x0D, 0xD7, 0xCC, 0x75, 0xFB, 0x7C, 0x64, 0x2F, 0xE0] }
        16 =
      some ([some 0, some 1, some 2, some 3, some 4, some 5, some 6, some 7, some 8, some 0, some 0, some 0, some 0,
        some 0, some 0, some 0], 16) := by decide +kernel

theorem test_ecbd_priority :
    outcomeOf .ecbd { State.reset with len := 3 } = some (0x06, 0x04)
      ∧ outcomeOf .ecbd { keyed 0 with len := 3 } = some (0x16, 0x02)
      ∧ outcomeOf .ecbd { keyed 0 with len := 4097 } = some (0x16, 0x06) := by decide +kernel

/-- Known answer K5: two blocks. -/
theorem test_pecbe :
    outBufAfter .pecbe { keyed 0 with len := 16, mem := inBytes (List.replicate 8 0 ++ List.replicate 8 0xFF) } 16 =
      some ([some 0x55, some 0x79, some 0xC1, some 0x38, some 0x7B, some 0x22, some 0x84, some 0x45, some 0xA1, some 0x12,
        some 0xFF, some 0xC7, some 0x2F, some 0x68, some 0x41, some 0x7B], 16) := by decide +kernel

theorem test_pecbe_no_key : outcomeOf .pecbe State.reset = some (0x06, 0x04) := by decide

theorem test_pecbd :
    outBufAfter .pecbd { keyed 0 with
        len := 8
        mem := inBytes [0x7F, 0x99, 0x5C, 0x7E, 0x94, 0xF2, 0xEA, 0x66] } 8 =
      some ([some 0x41, some 0x42, some 0x43, some 0, some 0, some 0, some 0, some 0], 8) := by decide +kernel

theorem test_pecbd_alignment : outcomeOf .pecbd { keyed 0 with len := 9 } = some (0x16, 0x02) := by decide +kernel

theorem test_reserved : ((nextState (execReserved (keyed 0))).map fun t => (t.status.toByte, t.err)) = some (0x16, 0x03) := by
  decide

/-! ## The bus (95_test_vectors.md 2.10) -/

theorem test_status_write :
    let s := { State.reset with status := { busy := false, done := true, errf := true, ovr := true, keyv := true } }
    (s.busWrite 0x0001 0x02).status.toByte = 0x1C ∧ (s.busWrite 0x0001 0xFF).status.toByte = 0x10 := by decide

theorem test_busy_write :
    ((State.reset.accept 0).busWrite 0x0004 0x0A).status.toByte = 0x09
      ∧ ((State.reset.accept 0).busWrite 0x0004 0x0A).keylen = 0x00
      ∧ ((State.reset.accept 0).busWrite 0x0003 0x01).ctrlByte = 0x01 := by decide

theorem test_reserved_bits : ((State.reset.busWrite 0x0005 0xFF).readValue 0x0005) = 0x01 := by decide

theorem test_len_bytes :
    ((State.reset.busWrite 0x000A 0x01).len) = 256 ∧ ({ State.reset with outLen := 16 }).readValue 0x000F = 0x10 := by
  decide +kernel

theorem test_beyond_buffer :
    ((State.resetWith smallConfig).busWrite 0x1008 0x77).readValue 0x1008 = 0x00
      ∧ ((State.resetWith smallConfig).busWrite 0x1007 0x5A).readValue 0x1007 = 0x5A := by decide +kernel

theorem test_reset_read : (({ State.reset with rst := true, err := 3 }).inReset (.read 0x0002)).rdata = 0x00 := by decide

/-- A command byte placed by `withFetchWord` runs in the very next step, right after reset. -/
theorem test_fetch_word :
    ((nextState (step (State.reset.withFetchWord 8 0x00))).map fun t => t.status.toByte) = some 0x02
      ∧ ((nextState (step (State.reset.withFetchWord 8 0x02))).map fun t => (t.status.toByte, t.err)) = some (0x06, 0x04) := by
  decide

/-! ## Host programs (30_encoding.md R109 to R111) -/

theorem test_expand_wr32 :
    Stmt.expand 0 (.wr32Len (.lit 0x00000010)) = [.wr (.elem .len 0) (.lit 0x00), .wr (.elem .len 1) (.lit 0x00),
      .wr (.elem .len 2) (.lit 0x00), .wr (.elem .len 3) (.lit 0x10)] := by decide

/-- `v[15:8]` of a host variable (R110). -/
theorem test_wr32_variable :
    HostRun.byteOf ⟨[], 0, [(⟨"n", none⟩, 0x00000FF8)]⟩ (.slice ⟨"n", none⟩ 8) = some 0x0F := by decide

/-- Between two blocks of the sequential loop E[0] still holds the block it has written (R179); after the last block, and
in the parallel mapper, none (R180). -/
theorem test_blk_after :
    Mapper.blkAfter .sequential false 0 = some 0 ∧ Mapper.blkAfter .sequential true 1 = none
      ∧ Mapper.blkAfter .parallel false 0 = none := by decide

/-- Acceptance of an ECB command whose checks pass sets TODO to its two blocks (R180). -/
theorem test_accept_blocks :
    (({ keyed 0 with len := 9 } : State).accept 0x06).seq.todo = [0, 1]
      ∧ (({ State.reset with len := 9 } : State).accept 0x06).seq.todo = [] := by decide

/-- Only the block with an unwritten byte below LEN counts as unwritten (R235, R184). -/
theorem test_block_written :
    ({ keyed 0 with len := 10, mem := inBytes (List.replicate 9 0) } : State).blockWritten 0 = true
      ∧ ({ keyed 0 with len := 10, mem := inBytes (List.replicate 9 0) } : State).blockWritten 1 = false
      ∧ ({ keyed 0 with len := 9, mem := inBytes (List.replicate 9 0) } : State).blockWritten 1 = true := by decide

theorem test_expand_wait :
    Stmt.expand 4 .wait = [.label (.wait 4), .rd (.reg .status) ⟨"s", none⟩,
      .ifGoto ⟨"s", none⟩ 1 false (.wait 4)] := by decide

theorem test_line : (Txn.write 0x1000 0x5A).line = "W 1000 5A" ∧ (Txn.read 0x002F).line = "R 002F" := by decide +kernel

/-- R111: RST for RESET, no line for WAIT's label and IF, its read of STATUS repeated until DONE is 1 (the core completes
after the first), and the writes of CMD and ACK. -/
theorem test_encoding :
    encodingOf [.prim .reset, .cmd .nop, .wait, .ack]
      [.host, .host, .host, .host, .host, .run, .host, .host, .host, .host] State.reset
      = ["RST", "W 0000 00", "R 0001", "R 0001", "W 0001 0E"] := by decide +kernel

/-- R109 leaves a label on two lines open: the model jumps to the first (log 23). -/
theorem test_label_twice :
    (HostRun.start [.prim (.label (.named "a")), .ack, .prim (.label (.named "a"))]).place (.named "a") = some 0 := by
  decide

theorem test_location : Loc.addr (.elem .outLen 3) = 0x000F ∧ Loc.addr (.elem .inBuf 15) = 0x100F := by decide

/-! ## Witnesses: a state that meets the hypotheses of each statement -/

theorem reset_ready : State.reset.Ready := ⟨rfl, rfl⟩

theorem keyed_ready (k : Key) : (keyed k).Ready := ⟨rfl, rfl⟩

/-- A running command: NOP, accepted right after reset. -/
def running : State := State.reset.accept 0x00

theorem running_ready : running.Ready := ⟨rfl, rfl⟩

theorem witness_ResetOverridesEverything : State.reset.resetTo.rst = true := rfl

theorem witness_NothingRunsBeforeFirstReset :
    ({ State.reset with resetSeen := false } : State).rst = false
      ∧ ({ State.reset with resetSeen := false } : State).resetSeen = false ∧ Event.run ≠ .rst true := by decide

/-- Both clauses; in the first a command just accepted with its agenda empty. -/
theorem witness_StepRunsDecodedCommand :
    (running.Ready ∧ running.seq.phase = .run ∧ running.seq.stage = .check ∧ decode running.seq.op = .ok .nop
        ∧ running.agenda = [])
      ∧ decode 0x07 = .ok .pecbd := ⟨⟨running_ready, rfl, rfl, rfl, rfl⟩, rfl⟩

theorem witness_IdleCoreKeepsState :
    State.reset.Ready ∧ State.reset.seq.phase = .idle ∧ State.reset.seq.stage = .waiting ∧ State.reset.agenda = [] :=
  ⟨reset_ready, rfl, rfl, rfl⟩

/-- An idle core, with a command that reaches the mapper and one that does not, and a running core. -/
theorem witness_CommandWriteIsAccepted :
    ((keyed 0).Ready ∧ (keyed 0).status.busy = false ∧ decode 0x06 = .ok .pecbe ∧ isEcb .pecbe = true
        ∧ (keyed 0).check .pecbe = none ∧ State.reset.check .pecbe ≠ none ∧ isEcb .nop = false)
      ∧ (State.reset.Ready ∧ State.reset.status.busy = false) ∧ running.Ready ∧ running.status.busy = true :=
  ⟨⟨keyed_ready 0, rfl, rfl, rfl, rfl, by decide, rfl⟩, ⟨reset_ready, rfl⟩, running_ready, rfl⟩

/-- The operand addresses at the ends of each range, and others between them. -/
theorem witness_OperandWritesWhileBusyAreDropped :
    running.Ready ∧ running.status.busy = true
      ∧ (∀ a ∈ [0x0000, 0x0004, 0x0005, 0x0008, 0x000B, 0x0010, 0x001F, 0x0020, 0x0027, 0x1000, 0x1FFF],
        operandAddress running.cfg a)
      ∧ operandAddress smallConfig 0x1007
      ∧ (∀ a ∈ [0x0001, 0x0002, 0x0003, 0x0006, 0x0007, 0x000C, 0x000F, 0x0028, 0x0FFF, 0x2000, 0x3FFF],
        ¬operandAddress running.cfg a)
      ∧ ¬operandAddress smallConfig 0x1008 := by
  refine ⟨running_ready, rfl, ?_, ?_, ?_, ?_⟩ <;> unfold operandAddress <;> decide

/-- Each range at its ends: for the smallest core the window of IN_BUF holds offsets above BUF_BYTES. -/
theorem witness_ReadOnlyAndReservedWritesAreIgnored :
    (State.resetWith smallConfig).Ready
      ∧ ∀ a ∈ [0x0002, 0x0006, 0x0007, 0x000C, 0x000F, 0x0028, 0x0030, 0x0FFF, 0x1008, 0x1FFF, 0x2000, 0x2FFF, 0x3FFF],
        a = 0x0002 ∨ a = 0x0006 ∨ a = 0x0007 ∨ (0x000C ≤ a ∧ a < 0x0010) ∨ (0x0028 ≤ a ∧ a < 0x1000)
          ∨ (0x1000 + (State.resetWith smallConfig).cfg.bufBytes ≤ a ∧ a < 0x2000) ∨ 0x2000 ≤ a :=
  ⟨⟨rfl, rfl⟩, by decide⟩

theorem witness_StatusWriteClearsMarkedBits : State.reset.Ready ∧ running.Ready := ⟨reset_ready, running_ready⟩

theorem witness_CtrlStoresInterruptEnable : State.reset.Ready ∧ running.Ready := ⟨reset_ready, running_ready⟩

theorem witness_KeyControlRegistersReadBack : State.reset.Ready ∧ State.reset.status.busy = false := ⟨reset_ready, rfl⟩

/-- The first and the last byte of LEN. -/
theorem witness_LenBytesAreBigEndian :
    State.reset.Ready ∧ State.reset.status.busy = false ∧ 0 < 4 ∧ 3 < 4 := ⟨reset_ready, rfl, by decide, by decide⟩

/-- The last byte of each window. -/
theorem witness_StagingWindowsStoreBytes :
    State.reset.Ready ∧ State.reset.status.busy = false ∧ 15 < 16 ∧ 7 < 8 := ⟨reset_ready, rfl, by decide, by decide⟩

/-- The first and the last byte of the buffer, and an address of memory beside them. -/
theorem witness_InBufWriteReadsBack :
    State.reset.Ready ∧ State.reset.status.busy = false ∧ 0 < State.reset.cfg.bufBytes
      ∧ 4095 < State.reset.cfg.bufBytes ∧ 7 < smallConfig.bufBytes ∧ 0x1001 ≠ 0x1000 + 0 ∧ Memory.wf State.reset.mem :=
  ⟨reset_ready, rfl, by decide, by decide, by decide, by decide, by decide⟩

/-- The address of every clause at the ends of its range, in the smallest core. -/
theorem witness_ReadsReturnWhatTheAddressNames :
    (State.resetWith smallConfig).Ready ∧ (0x000B : Addr).toNat = 0x0008 + 3 ∧ (0x000F : Addr).toNat = 0x000C + 3
      ∧ (0x001F : Addr).toNat = 0x0010 + 15 ∧ (0x0027 : Addr).toNat = 0x0020 + 7 ∧ (0x002F : Addr).toNat = 0x0028 + 7
      ∧ (0x1000 ≤ (0x1007 : Addr).toNat ∧ (0x1007 : Addr).toNat < 0x1000 + smallConfig.bufBytes)
      ∧ (0x2000 ≤ (0x2007 : Addr).toNat ∧ (0x2007 : Addr).toNat < 0x2000 + smallConfig.bufBytes)
      ∧ (∀ a ∈ [0x0030, 0x0FFF], 0x0030 ≤ a ∧ a < 0x1000)
      ∧ (∀ a ∈ [0x1008, 0x1FFF], 0x1000 + smallConfig.bufBytes ≤ a ∧ a < 0x2000)
      ∧ (∀ a ∈ [0x2008, 0x2FFF], 0x2000 + smallConfig.bufBytes ≤ a ∧ a < 0x3000) :=
  ⟨⟨rfl, rfl⟩, rfl, rfl, rfl, rfl, rfl, by decide, by decide, by decide, by decide, by decide⟩

theorem witness_EcbRunningMeansAnEcbOpcode :
    (State.reset.accept 0x04).ecbRunning = true ∧ (State.reset.accept 0x07).ecbRunning = true
      ∧ (State.reset.accept 0x03).ecbRunning = false ∧ (State.reset.accept 0x08).ecbRunning = false := by decide

/-- A command has completed: DONE = 1 and every sticky bit set. -/
def flagged : State :=
  { State.reset with
    status := { busy := false, done := true, errf := true, ovr := true, keyv := true }
    err := 0x03 }

theorem witness_InterruptFollowsDoneAndEnable :
    flagged.Ready ∧ flagged.status.done = true ∧ State.reset.resetTo.rst = true := ⟨⟨rfl, rfl⟩, rfl, rfl⟩

theorem witness_NopLifeCycle : State.reset.Ready ∧ State.reset.status.busy = false := ⟨reset_ready, rfl⟩

/-- PAD_TRUNCATE with any count, and STRICT with KEYLEN = 10. -/
theorem witness_LoadkeyBuildsKey :
    (State.reset.variant = false ∧ State.reset.cfg.keyPolicy = .padTruncate)
      ∧ ({ State.resetWith smallConfig with keylen := 10 } : State).variant = false
      ∧ ({ State.resetWith smallConfig with keylen := 10 } : State).keylen = 10 := by decide

theorem witness_LoadkeyRefusesBadKeys :
    ({ State.reset with variant := true } : State).variant = true
      ∧ (State.resetWith smallConfig).variant = false ∧ (State.resetWith smallConfig).cfg.keyPolicy = .strict
      ∧ (State.resetWith smallConfig).keylen ≠ 10 := by decide

/-- The first and the last reserved opcode. -/
theorem witness_ReservedOpcodeReportsIllegalCommand :
    State.reset.Ready ∧ State.reset.status.busy = false ∧ 8 ≤ (0x08 : Byte).toNat ∧ 8 ≤ (0xFF : Byte).toNat :=
  ⟨reset_ready, rfl, by decide, by decide⟩

theorem witness_EncbWritesCiphertext : (keyed 0).status.keyv = true := rfl

theorem witness_DecbWritesPlaintext : (keyed 0).status.keyv = true := rfl

theorem witness_EncbThenDecbRestoresBlock : (keyed 0).status.keyv = true := rfl

/-- A message of three bytes, the empty one, and the longest one. -/
theorem witness_EcbeEncryptsMessage :
    ∀ n ∈ [0, 3, 4096], ({ keyed 0 with len := n } : State).status.keyv = true
      ∧ ({ keyed 0 with len := n } : State).len.toNat ≤ ({ keyed 0 with len := n } : State).cfg.bufBytes := by
  intro n hn
  have h : n.toNat ≤ 4096 := by
    simp only [List.mem_cons, List.not_mem_nil, or_false] at hn
    rcases hn with rfl | rfl | rfl <;> simp
  exact ⟨rfl, h⟩

/-- No block, one block, and the longest message. -/
theorem witness_EcbdDecryptsMessage :
    ∀ n ∈ [0, 8, 4096], ({ keyed 0 with len := n } : State).status.keyv = true
      ∧ ({ keyed 0 with len := n } : State).len.toNat ≤ ({ keyed 0 with len := n } : State).cfg.bufBytes
      ∧ ({ keyed 0 with len := n } : State).len.toNat % 8 = 0 := by
  intro n hn
  have h : n.toNat ≤ 4096 ∧ n.toNat % 8 = 0 := by
    simp only [List.mem_cons, List.not_mem_nil, or_false] at hn
    rcases hn with rfl | rfl | rfl <;> simp
  exact ⟨rfl, h.1, h.2⟩

theorem witness_PecbeEncryptsMessage :
    ∀ n ∈ [0, 3, 4096], ({ keyed 0 with len := n } : State).status.keyv = true
      ∧ ({ keyed 0 with len := n } : State).len.toNat ≤ ({ keyed 0 with len := n } : State).cfg.bufBytes := by
  intro n hn
  have h : n.toNat ≤ 4096 := by
    simp only [List.mem_cons, List.not_mem_nil, or_false] at hn
    rcases hn with rfl | rfl | rfl <;> simp
  exact ⟨rfl, h⟩

theorem witness_PecbdDecryptsMessage :
    ∀ n ∈ [0, 8, 4096], ({ keyed 0 with len := n } : State).status.keyv = true
      ∧ ({ keyed 0 with len := n } : State).len.toNat ≤ ({ keyed 0 with len := n } : State).cfg.bufBytes
      ∧ ({ keyed 0 with len := n } : State).len.toNat % 8 = 0 := by
  intro n hn
  have h : n.toNat ≤ 4096 ∧ n.toNat % 8 = 0 := by
    simp only [List.mem_cons, List.not_mem_nil, or_false] at hn
    rcases hn with rfl | rfl | rfl <;> simp
  exact ⟨rfl, h.1, h.2⟩

/-- The last byte below LEN and the first at LEN, in a block that has been written. -/
theorem witness_MessageBlockIsPaddedInput :
    let s : State := { State.reset with len := 3, mem := inBytes [0x41, 0x42, 0x43] }
    8 * 0 + 2 < s.len.toNat ∧ s.len.toNat ≤ 8 * 0 + 3 ∧ s.blockWritten 0 = true := by decide

/-- The two clauses about blocks of the four ECB statements: a block that has been written, and one that has not. -/
theorem witness_EcbBlocks :
    let s : State := { keyed 0 with len := 16, mem := inBytes (List.replicate 8 0) }
    s.status.keyv = true ∧ s.len.toNat ≤ s.cfg.bufBytes ∧ s.len.toNat % 8 = 0 ∧ 8 * 0 < s.len.toNat
      ∧ s.blockWritten 0 = true ∧ 8 * 1 < s.len.toNat ∧ s.blockWritten 1 = false := by decide

/-- The byte at LEN, and the last byte of the window. -/
theorem witness_BytesBeyondLengthNeverMatter :
    ∀ k ∈ [3, 4095], ({ State.reset with len := 3 } : State).len.toNat ≤ k ∧ k < 0x1000 := by decide

/-- A core with one block written at IN_BUF[0] and one with the same block at IN_BUF[8]. -/
theorem witness_EqualBlocksGiveEqualBlocks :
    let s : State := { keyed 1 with len := 8, mem := inBytes [1, 2, 3, 4, 5, 6, 7, 8] }
    let s' : State := { keyed 1 with len := 16, mem := inBytes [9, 9, 9, 9, 9, 9, 9, 9, 1, 2, 3, 4, 5, 6, 7, 8] }
    s.status.keyv = true ∧ s'.status.keyv = true ∧ s.key = s'.key ∧ s.len.toNat ≤ s.cfg.bufBytes
      ∧ s'.len.toNat ≤ s'.cfg.bufBytes ∧ 8 * 0 + 8 ≤ s.len.toNat ∧ 8 * 1 + 8 ≤ s'.len.toNat
      ∧ (∀ n, n < 8 → ∃ b, Memory.get? s.mem (inBase + 8 * 0 + n) = some b
          ∧ Memory.get? s'.mem (inBase + 8 * 1 + n) = some b)
      ∧ s.len.toNat % 8 = 0 ∧ s'.len.toNat % 8 = 0 := by
  refine ⟨rfl, rfl, rfl, by decide, by decide, by decide, by decide, ?_, by decide, by decide⟩
  intro n hn
  refine ⟨BitVec.ofNat 8 (n + 1), ?_⟩
  revert n
  decide

theorem witness_ParallelLeavesSequentialState : Memory.wf (inBytes [1, 2, 3]) := by decide

/-- `41 42 43` written, LEN = 3. -/
def abc : State := { keyed 0 with len := 3, mem := inBytes [0x41, 0x42, 0x43] }

theorem witness_EcbeIsPadChunkEncryptConcat :
    abc.status.keyv = true ∧ abc.len.toNat ≤ abc.cfg.bufBytes ∧ [0x41, 0x42, 0x43].length = abc.len.toNat
      ∧ ∀ k, k < 3 → Memory.get? abc.mem (inBase + k) = ([0x41, 0x42, 0x43] : List Byte)[k]? := by decide

/-- ECBE of `41 42 43`, then the eight ciphertext bytes copied to IN_BUF with LEN = OUT_LEN. -/
theorem witness_EcbdRestoresPaddedMessage :
    ∃ t v : State, exec .ecbe abc = .next t ∧ v.cfg = t.cfg ∧ v.status.keyv = t.status.keyv ∧ v.key = t.key
      ∧ v.len = t.outLen
      ∧ ∀ k, k < t.outLen.toNat → Memory.get? v.mem (inBase + k) = Memory.get? t.mem (outBase + k) := by
  refine ⟨_, { keyed 0 with len := 8, mem := inBytes [0x7F, 0x99, 0x5C, 0x7E, 0x94, 0xF2, 0xEA, 0x66] }, exec_eq _ _, ?_⟩
  decide +kernel

theorem witness_FirstFailingCheckIsReported : (keyed 0).status.errf = false := rfl

/-- A command that fails. -/
theorem witness_ErrorsLeaveNoPartialEffect :
    ((nextState (exec .encb State.reset)).map fun t => t.err) = some 0x04 := by decide

theorem running_accepted : running.Accepted := ⟨rfl, rfl, accept_blocksReady _ _, by decide⟩

/-- NOP in two steps, a reserved opcode in two, and a PECBE of the empty message. -/
theorem witness_EveryScheduleEndsInMergedState :
    (running.Ready ∧ running.Accepted ∧ Memory.wf running.mem ∧ (running.coreSteps [(0, 0), (1, 5)]).seq.phase = .idle)
      ∧ ((State.reset.accept 0x08).Ready ∧ (State.reset.accept 0x08).Accepted
        ∧ ((State.reset.accept 0x08).coreSteps [(0, 0), (1, 5)]).seq.phase = .idle)
      ∧ ((keyed 0).accept 0x06).Ready ∧ ((keyed 0).accept 0x06).Accepted ∧ ((keyed 0).accept 0x06).MessageWritten
        ∧ (((keyed 0).accept 0x06).coreSteps [(3, 0), (1, 5)]).seq.phase = .idle :=
  ⟨⟨running_ready, running_accepted, by decide, by decide⟩,
    ⟨⟨rfl, rfl⟩, ⟨rfl, rfl, accept_blocksReady _ _, by decide⟩, by decide⟩, ⟨rfl, rfl⟩,
    ⟨rfl, rfl, accept_blocksReady _ _, by decide⟩, fun _ hk => absurd hk (Nat.not_lt_zero _), by decide⟩

/-- NOP's two steps, each of which changes the state, and one more that finds it idle: as many as the bound allows. -/
theorem witness_AcceptedCommandCompletesWithinBound :
    running.Accepted ∧ running.Ready ∧ running.stepsAllowed ≤ [(0, 0), (0, 0), (1, 0)].length
      ∧ ∀ n, n < [(0, 0), (0, 0), (1, 0)].length →
        (running.coreSteps ([(0, 0), (0, 0), (1, 0)].take n)).seq.phase = .idle
          ∨ running.coreSteps ([(0, 0), (0, 0), (1, 0)].take (n + 1))
            ≠ running.coreSteps ([(0, 0), (0, 0), (1, 0)].take n) := by
  refine ⟨running_accepted, running_ready, by decide, ?_⟩
  intro n hn
  have h : (running.coreSteps ([(0, 0), (0, 0), (1, 0)].take n)).seq.phase = .idle
      ∨ (running.coreSteps ([(0, 0), (0, 0), (1, 0)].take (n + 1))).seq.stage
        ≠ (running.coreSteps ([(0, 0), (0, 0), (1, 0)].take n)).seq.stage := by
    revert n
    decide
  exact h.imp id fun hne e => hne (congrArg (fun t : State => t.seq.stage) e)

/-- NOP's two steps, each of which changes the state. -/
theorem witness_NoScheduleExceedsBound :
    running.Accepted
      ∧ ∀ n, n < [(0, 0), (0, 0)].length →
        running.coreSteps ([(0, 0), (0, 0)].take (n + 1)) ≠ running.coreSteps ([(0, 0), (0, 0)].take n) := by
  refine ⟨running_accepted, ?_⟩
  intro n hn e
  have h := congrArg (fun t : State => t.seq.stage) e
  revert h
  revert n
  decide

/-- A state of the invariant: no command runs and nothing is in the engines. -/
theorem idle_inv {s : State} (hm : s.mem = []) (he : s.engines = List.replicate s.cfg.nLanes Engine.atReset)
    (hp : s.seq.phase = .idle) (hs : s.seq.stage = .waiting) (hb : s.status.busy = false)
    (herr : s.err.toNat ≤ 6) (hf : s.status.errf = true → s.err ≠ 0) (hk : s.key = 0) (ho : s.outLen = 0) : s.Inv where
  memWf := by simp [hm, Memory.wf]
  memRange := by simp [hm]
  lanes := by simp [he]
  busyPhase := by simp [hb, hp]
  doneIdle := by simp [hb]
  busyClear := by simp [hb]
  errTable := herr
  errfErr := hf
  noKey := fun _ => hk
  outLen := by simp [ho]
  rounds := by
    intro e h hst
    rw [he] at h
    rw [List.eq_of_mem_replicate h] at hst
    simp [Engine.atReset] at hst
  seqStage := by simp [State.StageInv, hs, hp]

/-- A state of the invariant: a command has just been accepted. -/
theorem accepted_inv {s : State} (h : s.Inv) (w : Byte) : (s.accept w).Inv where
  memWf := h.memWf
  memRange := h.memRange
  lanes := h.lanes
  busyPhase := by simp [Status.accepted]
  doneIdle := by simp [Status.accepted]
  busyClear := by simp [Status.accepted]
  errTable := by simp
  errfErr := by simp [Status.accepted]
  noKey := h.noKey
  outLen := h.outLen
  rounds := h.rounds
  seqStage := ⟨rfl, accept_blocksReady w s⟩

theorem reset_inv : State.reset.Inv := idle_inv rfl rfl rfl rfl rfl (by decide) (by decide) rfl rfl

theorem flagged_inv : flagged.Inv := idle_inv rfl rfl rfl rfl rfl (by decide) (by decide) rfl rfl

theorem running_inv : running.Inv := accepted_inv reset_inv 0x00

/-- An idle core and a running command both step and meet the invariant. -/
theorem witness_StepKeepsInvariant :
    (State.reset.Inv ∧ step State.reset = .next State.reset) ∧ running.Inv ∧ ∃ t, step running = .next t :=
  ⟨⟨reset_inv, rfl⟩, running_inv, _, rfl⟩

theorem witness_OperandsHoldWhileCommandRuns :
    running.Ready ∧ Event.core 0 0 ≠ .rst true ∧ running.status.busy = true
      ∧ step (running.facing (.core 0 0)) = .next (running.coreStep 0 0) ∧ (running.coreStep 0 0).status.busy = true :=
  ⟨running_ready, by decide, rfl, rfl, by decide⟩

/-- A LOADKEY with a nonzero key, right after reset. -/
def loading : State := ({ State.reset with keyIn := countingKey, keylen := 0x0A } : State).accept 0x01

theorem loading_inv : loading.Inv := accepted_inv (idle_inv rfl rfl rfl rfl rfl (by decide) (by decide) rfl rfl) 0x01

/-- The merged step of a LOADKEY changes KEY and KEYV. -/
theorem witness_ResultsChangeOnlyAtTheirCompletion :
    loading.Inv ∧ loading.Ready ∧ Event.run ≠ .rst true
      ∧ ∃ t, step (loading.facing .run) = .next t ∧ t.key ≠ loading.key ∧ t.status.keyv ≠ loading.status.keyv :=
  ⟨loading_inv, ⟨rfl, rfl⟩, by decide, _, rfl, by decide +kernel, by decide⟩

/-- ENCB with a key changes BLOCK_OUT, ECBE of eight bytes changes OUT_LEN. -/
theorem witness_ResultsChangeOnlyAtTheirCompletion_blocks :
    (∃ t, step (((keyed 0).accept 0x02).facing .run) = .next t ∧ t.blockOut ≠ (keyed 0).blockOut)
      ∧ ∃ t, step ((({ keyed 0 with len := 8 } : State).accept 0x04).facing .run) = .next t
        ∧ t.outLen ≠ (keyed 0).outLen :=
  ⟨⟨_, rfl, by decide +kernel⟩, _, rfl, by decide +kernel⟩

theorem keyed_inv : (keyed 0).Inv := idle_inv rfl rfl rfl rfl rfl (by decide) (by decide) rfl rfl

/-- Each flag set in one step: BUSY by a CMD write, DONE and ERRF by a failed ENCB, OVR by a write while BUSY = 1, KEYV
kept. -/
theorem witness_FlagsChangeOnlyAsTheRulesSay_set :
    (State.reset.Inv ∧ State.reset.Ready ∧ State.reset.status.busy = false
        ∧ ∃ t, step (State.reset.facing (.write 0x0000 0x00)) = .next t ∧ t.status.busy = true)
      ∧ ((State.reset.accept 0x02).Inv ∧ (State.reset.accept 0x02).Ready
        ∧ ∃ t, step ((State.reset.accept 0x02).facing .run) = .next t ∧ t.status.busy = false ∧ t.status.done = true
          ∧ t.status.errf = true)
      ∧ (running.Inv ∧ running.Ready ∧ ∃ t, step (running.facing (.write 0x0004 0x0A)) = .next t ∧ t.status.ovr = true)
      ∧ (keyed 0).Inv ∧ (keyed 0).Ready ∧ (keyed 0).status.keyv = true :=
  ⟨⟨reset_inv, reset_ready, rfl, _, rfl, rfl⟩,
    ⟨accepted_inv reset_inv _, ⟨rfl, rfl⟩, _, rfl, rfl, rfl, rfl⟩,
    ⟨running_inv, running_ready, _, rfl, by decide⟩, keyed_inv, keyed_ready 0, rfl⟩

/-- Each sticky flag cleared by the write of its bit, and DONE and ERRF by a CMD write. -/
theorem witness_FlagsChangeOnlyAsTheRulesSay_clear :
    flagged.Inv ∧ flagged.Ready
      ∧ (∃ t, step (flagged.facing (.write 0x0001 0x02)) = .next t ∧ t.status.done = false)
      ∧ (∃ t, step (flagged.facing (.write 0x0001 0x04)) = .next t ∧ t.status.errf = false)
      ∧ (∃ t, step (flagged.facing (.write 0x0001 0x08)) = .next t ∧ t.status.ovr = false)
      ∧ ∃ t, step (flagged.facing (.write 0x0000 0x00)) = .next t ∧ t.status.done = false ∧ t.status.errf = false :=
  ⟨flagged_inv, ⟨rfl, rfl⟩, ⟨_, rfl, by decide⟩, ⟨_, rfl, by decide⟩, ⟨_, rfl, by decide⟩, _, rfl, by decide, by decide⟩

/-- A read of STATUS by an idle core, and a host that has come to the WAIT of a program after another statement. -/
theorem witness_DoneStaysClearWithoutCommand :
    (State.reset.Inv ∧ State.reset.Ready ∧ State.reset.status.busy = false ∧ State.reset.status.done = false)
      ∧ ((∀ w, Event.read 0x0001 ≠ .write 0x0000 w)
        ∧ ∃ t, step (State.reset.facing (.read 0x0001)) = .next t)
      ∧ let h : HostRun := ⟨expandProgram [.prim .reset, .wait, .ack], 1, []⟩
        h.prog = [Prim.reset] ++ Stmt.expand 1 .wait ++ Stmt.expand 2 .ack ∧ Prim.label (.wait 1) ∉ [Prim.reset]
          ∧ h.pc = [Prim.reset].length :=
  ⟨⟨reset_inv, reset_ready, rfl, rfl⟩, ⟨fun _ => by simp, _, rfl⟩, by decide⟩

/-- The first and the last nibble and bit. -/
theorem witness_LayersActOnNibbles : 0 < 16 ∧ 15 < 16 ∧ 3 < 4 := by decide

/-- The bits where the clauses meet. -/
theorem witness_AdvanceStepsBitByBit : 0 < 80 ∧ (15 ≤ 15 ∧ 19 ≤ 19) ∧ ¬76 ≤ 75 ∧ 76 ≤ 79 ∧ 79 < 80 := by decide

/-- The lengths at the ends of the range. -/
theorem witness_PaddingLaws :
    0 ≤ 4096 ∧ 4096 ≤ 4096 ∧ 8 ≤ smallConfig.bufBytes ∧ [(0x41 : Byte)].length ≤ 7 ∧ 7 < padLen [(0x41 : Byte)].length := by
  decide

/-- An idle core, and a host that holds OUT_LEN of an earlier command in a variable. -/
theorem witness_PseudoInstructionsSetTheirRegisters :
    (State.reset.Ready ∧ State.reset.status.busy = false)
      ∧ let h : HostRun := ⟨expandProgram [.wr32Len (.var "n")], 0, [(⟨"n", none⟩, 4096)]⟩
        h.prog = Stmt.expand 0 (.wr32Len (.var "n")) ∧ h.pc = 0
          ∧ h.lookup ⟨"n", none⟩ = some (0x00001000 : BitVec 32).toNat :=
  ⟨⟨reset_ready, rfl⟩, by decide⟩

end Sys2Proof.Tests
end

section
/-! SUPPORT. The legal ranges of the parameters (00_scope.md R7 to R9). -/

namespace Sys2Proof.Machine

theorem le_bufBytes (c : Config) : 8 ≤ c.bufBytes := by
  simp only [Config.bufBytes]; omega

theorem one_le_nLanes (c : Config) : 1 ≤ c.nLanes := Nat.succ_pos c.moreLanes

/-- Settles O2: the reference values are read off `Config.reference`, and each parameter's range is the range of the
field that codes it (`bufUnits` below 512, `moreLanes` any number). -/
theorem parametersAreLegal : Obligations.ParametersAreLegal := by
  refine ⟨rfl, rfl, rfl, fun c => ?_⟩
  obtain ⟨hle, hmod⟩ := bufBytes_le c
  exact ⟨hmod, le_bufBytes c, hle, one_le_nLanes c⟩

end Sys2Proof.Machine
end

section
/-! SUPPORT. Bus transactions as steps: where the addresses of the registers lead, what a write can do at all, and what
each write and read of a register does (10_state.md R24 to R35, 20_memory.md R71 to R77). -/

namespace Sys2Proof.Machine

/-! ## Transactions as steps -/

theorem step_write {s : State} (h : s.Ready) (a : Addr) (w : Byte) :
    step (s.facing (.write a w)) = .next (s.writeLocation (locate a) w) := by
  rw [step_facing, perform_ready h]; rfl

theorem step_read {s : State} (h : s.Ready) (a : Addr) {v : Byte} (hv : s.readValue a = v) :
    step (s.facing (.read a)) = .next { s with rdata := v, draws := s.draws + 1 } := by
  rw [step_facing, perform_ready h, ← hv]; rfl

/-! ## Addresses of the arrays -/

theorem toNat_addr {n : Nat} (h : n < 0x4000) : (BitVec.ofNat 14 n).toNat = n := by
  rw [BitVec.toNat_ofNat]; exact Nat.mod_eq_of_lt h

theorem locate_len {k : Nat} (h : k < 4) : locate (BitVec.ofNat 14 (0x0008 + k)) = .len ⟨k, h⟩ := by
  rw [locate, toNat_addr (by omega), locateNat_len (by omega)]
  simp

theorem locate_keyIn {n : Nat} (h : n < 16) : locate (BitVec.ofNat 14 (0x0010 + n)) = .keyIn ⟨n, h⟩ := by
  rw [locate, toNat_addr (by omega), locateNat_keyIn (by omega)]
  simp

theorem locate_blockIn {n : Nat} (h : n < 8) : locate (BitVec.ofNat 14 (0x0020 + n)) = .blockIn ⟨n, h⟩ := by
  rw [locate, toNat_addr (by omega), locateNat_blockIn (by omega)]
  simp

theorem locate_eq_cmd {a : Addr} (h : locate a = .cmd) : a = 0x0000 :=
  BitVec.eq_of_toNat_eq ((locateNat_cmd_status a.toNat).1.mp h)

theorem locate_eq_status {a : Addr} (h : locate a = .status) : a = 0x0001 :=
  BitVec.eq_of_toNat_eq ((locateNat_cmd_status a.toNat).2.mp h)

/-! ## What a write can do -/

/-- Only operands differ: the registers, staging windows and buffer bytes that a host writes while no command runs (R74). -/
structure State.OperandsTo (s t : State) : Prop where
  same : t = { s with
    keylen := t.keylen, variant := t.variant, len := t.len, keyIn := t.keyIn, blockIn := t.blockIn, mem := t.mem }
  wf : Memory.wf s.mem → Memory.wf t.mem
  range : (∀ c ∈ s.mem, bufferAddress s.cfg c.1) → ∀ c ∈ t.mem, bufferAddress s.cfg c.1

/-- A write to a register or a staging window leaves buffer memory as it is. -/
theorem operandsTo_register (s : State) (keylen : Byte) (variant : Bool) (len : BitVec 32) (keyIn : Vector Byte 16)
    (blockIn : Vector Byte 8) :
    s.OperandsTo { s with keylen := keylen, variant := variant, len := len, keyIn := keyIn, blockIn := blockIn } :=
  ⟨rfl, id, id⟩

/-- A write to IN_BUF below BUF_BYTES lists one more byte of the buffer (R73). -/
theorem operandsTo_inBuf (s : State) {i : Nat} (h : i < s.cfg.bufBytes) (w : Byte) :
    s.OperandsTo { s with mem := Memory.set s.mem (inBase + i) w } := by
  refine ⟨rfl, fun hw => Memory.set_wf hw _ _, fun hr c hc => ?_⟩
  rcases Memory.mem_set hc with rfl | hc
  · exact .inl ⟨Nat.le_add_right _ _, Nat.add_lt_add_left h _⟩
  · exact hr c hc

/-- The five things a write of `w` to the location `l` can do (R72, R74). A write that is ignored is one that leaves IE
as it is. -/
inductive State.WriteEffect (l : Location) (w : Byte) (s : State) : State → Prop
  | accepted (hl : l = .cmd) (hb : s.status.busy = false) : WriteEffect l w s (s.accept w)
  | cleared (hl : l = .status) : WriteEffect l w s (s.clearSticky w)
  | dropped (hb : s.status.busy = true) : WriteEffect l w s s.dropWrite
  | stored (hb : s.status.busy = false) {t : State} (h : s.OperandsTo t) : WriteEffect l w s t
  | enabled (b : Bool) : WriteEffect l w s { s with ie := b }

theorem writeEffect_ignored (l : Location) (w : Byte) (s : State) : s.WriteEffect l w s := .enabled s.ie

theorem writeEffect_operand (l : Location) (w : Byte) {s t : State} (h : s.OperandsTo t) :
    s.WriteEffect l w (s.operandWrite t) := by
  cases hb : s.status.busy with
  | true => rw [operandWrite_busy hb]; exact .dropped hb
  | false => rw [operandWrite_idle hb]; exact .stored hb h

theorem writeLocation_effect (l : Location) (w : Byte) (s : State) : s.WriteEffect l w (s.writeLocation l w) := by
  cases l with
  | cmd =>
    cases hb : s.status.busy with
    | true => rw [State.writeLocation, if_pos hb]; exact .dropped hb
    | false => rw [State.writeLocation, if_neg (by simp [hb])]; exact .accepted rfl hb
  | status => exact .cleared rfl
  | ctrl => exact .enabled _
  | keylen => exact writeEffect_operand _ w (operandsTo_register s w s.variant s.len s.keyIn s.blockIn)
  | keycfg => exact writeEffect_operand _ w (operandsTo_register s s.keylen _ s.len s.keyIn s.blockIn)
  | len k => exact writeEffect_operand _ w (operandsTo_register s s.keylen s.variant _ s.keyIn s.blockIn)
  | keyIn t => exact writeEffect_operand _ w (operandsTo_register s s.keylen s.variant s.len _ s.blockIn)
  | blockIn t => exact writeEffect_operand _ w (operandsTo_register s s.keylen s.variant s.len s.keyIn _)
  | inBuf i =>
    by_cases h : i.val < s.cfg.bufBytes
    · rw [State.writeLocation, if_pos h]; exact writeEffect_operand _ w (operandsTo_inBuf s h w)
    · rw [State.writeLocation, if_neg h]; exact writeEffect_ignored _ w s
  | err => exact writeEffect_ignored _ w s
  | outLen k => exact writeEffect_ignored _ w s
  | blockOut t => exact writeEffect_ignored _ w s
  | outBuf i => exact writeEffect_ignored _ w s
  | reserved => exact writeEffect_ignored _ w s

/-! ## LEN byte by byte (R31, R77) -/

/-- Byte `m` of LEN after byte `k` is replaced: the written byte or the old one. -/
theorem bytesBe_lenWithByte (v : BitVec 32) {k m : Nat} (hk : k < 4) (hm : m < 4) (w : Byte) :
    bytesBe (lenWithByte v k w) 4 m = if m = k then w else bytesBe v 4 m := by
  apply BitVec.eq_of_getLsbD_eq
  intro i hi
  rw [getLsbD_bytesBe, lenWithByte, getLsbD_setSlice]
  by_cases h : m = k
  · subst h
    rw [if_pos (by omega), if_pos rfl]
    have hbit : 8 * (4 - 1 - m) + i - 8 * (3 - m) = i := by omega
    have hlt : 8 * (4 - 1 - m) + i < 32 := by omega
    simp [hi, hbit, hlt]
  · rw [if_neg (by omega), if_neg h, getLsbD_bytesBe]

/-- A 32-bit value is its four bytes, the first one most significant (R14). -/
theorem eq_append_bytesBe (v : BitVec 32) :
    v = (bytesBe v 4 0 ++ bytesBe v 4 1 ++ bytesBe v 4 2 ++ bytesBe v 4 3 : BitVec 32) := by
  apply BitVec.eq_of_getLsbD_eq
  intro i hi
  simp only [BitVec.getLsbD_append, getLsbD_bytesBe]
  by_cases h0 : i < 8
  · simp [h0]
  by_cases h1 : i - 8 < 8
  · have hbit : 8 + (i - 8) = i := by omega
    simp [h0, h1, hbit]
  by_cases h2 : i - 8 - 8 < 8
  · have hbit : 16 + (i - 8 - 8) = i := by omega
    simp [h0, h1, h2, hbit]
  · have hbit : 24 + (i - 8 - 8 - 8) = i := by omega
    have h3 : i - 8 - 8 - 8 < 8 := by omega
    simp [h0, h1, h2, h3, hbit]

theorem readValue_len (s : State) {m : Nat} (h : m < 4) :
    s.readValue (BitVec.ofNat 14 (0x0008 + m)) = bytesBe s.len 4 m := by
  rw [State.readValue, locate_len h]; rfl

/-! ## One-bit registers and STATUS -/

theorem getLsbD_bit0Byte (b : Bool) (i : Nat) : (bit0Byte b).getLsbD i = (decide (i = 0) && b) := by
  cases b with
  | true => exact (BitVec.getLsbD_one (w := 8)).trans (by simp)
  | false => simp [bit0Byte]

/-- A register that stores bit 0 reads back what was written with its other bits 0 (R28, R30). -/
theorem bit0Byte_getLsbD (w : Byte) : bit0Byte (w.getLsbD 0) = w &&& 0x01 := by
  apply BitVec.eq_of_getLsbD_eq
  intro i _
  have hone : (0x01 : Byte).getLsbD i = decide (i = 0) := getLsbD_bit0Byte true i |>.trans (by simp)
  rw [getLsbD_bit0Byte, BitVec.getLsbD_and, hone]
  by_cases h : i = 0
  · subst h; simp
  · simp [h]

end Sys2Proof.Machine
end

section
/-! SUPPORT. The reset state and the host's registers: obligations O1, O4, O12 to O16 and O20. -/

namespace Sys2Proof.Machine

/-- Settles O15: byte by byte by `bytesBe_lenWithByte`, as a whole by `eq_append_bytesBe`. -/
theorem lenBytesAreBigEndian : Obligations.LenBytesAreBigEndian := by
  intro s k w hs hb hk
  refine ⟨{ s with len := lenWithByte s.len k w }, ?_, rfl, fun m hm => ?_, ?_⟩
  · rw [step_write hs, locate_len hk]
    exact congrArg _ (operandWrite_idle hb)
  · rw [readValue_len _ hm, readValue_len _ hm]
    exact bytesBe_lenWithByte s.len hk hm w
  · exact eq_append_bytesBe _

/-- Settles O16: both windows are operands, stored as they are while no command runs. -/
theorem stagingWindowsStoreBytes : Obligations.StagingWindowsStoreBytes := by
  intro s w hs hb
  refine ⟨fun n h => ?_, fun n h => ?_⟩
  · rw [step_write hs, locate_keyIn h]
    exact congrArg _ (operandWrite_idle hb)
  · rw [step_write hs, locate_blockIn h]
    exact congrArg _ (operandWrite_idle hb)

/-- Settles O1: each field of the table is read off `State.resetWith`. -/
theorem resetStateHoldsTableValues : Obligations.ResetStateHoldsTableValues := by
  refine fun c => ⟨?_, rfl, by simp [Memory.wf, State.resetWith]⟩
  exact {
    cfg := rfl
    status := by simp [State.resetWith, Status.toByte]
    err := rfl
    ctrl := rfl
    keylen := rfl
    keycfg := rfl
    len := rfl
    outLen := rfl
    keyIn := fun _ _ => Vector.getElem_replicate _
    blockIn := fun _ _ => Vector.getElem_replicate _
    blockOut := fun _ _ => Vector.getElem_replicate _
    inBuf := fun _ _ => rfl
    outBuf := fun _ _ => rfl
    key := rfl
    keyv := rfl
    lanes := List.length_replicate
    phase := rfl
    irqLow := rfl }

/-- Settles O4: with rst low and no reset seen an event is performed by `State.beforeReset`, which refuses every
constructor but an asserted reset. -/
theorem nothingRunsBeforeFirstReset : Obligations.NothingRunsBeforeFirstReset := by
  intro s e hr hs he
  have hstep : step (s.facing e) = s.beforeReset e := by
    rw [step_facing]; simp [State.perform, hr, hs]
  rw [hstep]
  cases e with
  | rst level =>
    cases level with
    | true => exact absurd rfl he
    | false => rfl
  | write a w => rfl
  | read a => rfl
  | core lane pick => rfl
  | run => rfl

/-- Settles O12: the write is `State.clearSticky`, whatever BUSY is; 0x00 marks no bit and 0x0E all three. -/
theorem statusWriteClearsMarkedBits : Obligations.StatusWriteClearsMarkedBits := by
  intro s w hs
  refine ⟨s.clearSticky w, step_write hs _ _, rfl, ?_, ?_⟩
  · rintro rfl
    have hstatus : s.status.clearedBy 0x00 = s.status := by simp [Status.clearedBy]
    rw [State.clearSticky, hstatus]
  · rintro rfl
    simp

/-- Settles O13: CTRL is no operand, so the write takes effect whatever BUSY is. -/
theorem ctrlStoresInterruptEnable : Obligations.CtrlStoresInterruptEnable := by
  intro s w hs
  have ht : ({ s with ie := w.getLsbD 0 } : State).Ready := ⟨hs.rstLow, hs.resetSeen⟩
  exact ⟨_, step_write hs 0x0003 w, rfl, step_read ht 0x0003 (bit0Byte_getLsbD w)⟩

/-- Settles O14: both are operands, and each reads back what it has stored. -/
theorem keyControlRegistersReadBack : Obligations.KeyControlRegistersReadBack := by
  intro s w hs hb
  have hk : ({ s with keylen := w } : State).Ready := ⟨hs.rstLow, hs.resetSeen⟩
  have hv : ({ s with variant := w.getLsbD 0 } : State).Ready := ⟨hs.rstLow, hs.resetSeen⟩
  refine ⟨⟨_, ?_, rfl, step_read hk 0x0004 rfl⟩, ⟨_, ?_, rfl, step_read hv 0x0005 (bit0Byte_getLsbD w)⟩⟩
  · exact (step_write hs 0x0004 w).trans (congrArg _ (operandWrite_idle hb))
  · exact (step_write hs 0x0005 w).trans (congrArg _ (operandWrite_idle hb))

/-- Settles O20: each flag is widened to a byte and shifted to its place, so bit `i` of the byte is one flag. -/
theorem statusByteLayout : Obligations.StatusByteLayout := by
  intro f
  simp [Status.toByte]

end Sys2Proof.Machine
end

section
/-! SUPPORT. The clauses of the invariant one by one: where SEQ stands, RC, buffer memory, and what an ECB command has
checked. -/

namespace Sys2Proof.Machine

/-! ## SEQ at each place of the life cycle -/

theorem stageInv_waiting {s : State} (hs : s.seq.stage = .waiting) : s.StageInv ↔ s.seq.phase = .idle := by
  simp [State.StageInv, hs]

theorem stageInv_check {s : State} (hs : s.seq.stage = .check) :
    s.StageInv ↔ s.seq.phase = .run ∧ s.BlocksReady := by
  simp [State.StageInv, hs]

theorem stageInv_datapath {s : State} (hs : s.seq.stage = .datapath) :
    s.StageInv ↔ s.seq.phase = .run ∧ s.ChecksPassed := by
  simp [State.StageInv, hs]

theorem stageInv_finish {s : State} {r : Result} (hs : s.seq.stage = .finish r) :
    s.StageInv ↔ s.seq.phase = .run ∧ s.ResultLegal r := by
  simp [State.StageInv, hs]

/-- While no command runs SEQ waits for one. -/
theorem State.Inv.stage_waiting {s : State} (h : s.Inv) (hp : s.seq.phase = .idle) : s.seq.stage = .waiting := by
  have hseq := h.seqStage
  cases hs : s.seq.stage with
  | waiting => rfl
  | check => rw [stageInv_check hs, hp] at hseq; cases hseq.1
  | datapath => rw [stageInv_datapath hs, hp] at hseq; cases hseq.1
  | finish r => rw [stageInv_finish hs, hp] at hseq; cases hseq.1

theorem State.Inv.phase_idle {s : State} (h : s.Inv) (hb : s.status.busy = false) : s.seq.phase = .idle := by
  cases hp : s.seq.phase with
  | idle => rfl
  | run => rw [h.busyPhase.mpr hp] at hb; cases hb

/-! ## RC (R151) -/

/-- RC holds a round number while the schedule of the engine uses it. -/
def Engine.RoundInRange (e : Engine) : Prop :=
  e.stage = .rounds ∨ e.stage = .keygen → 1 ≤ e.rc.toNat ∧ e.rc.toNat ≤ 31

theorem roundInRange_of_idle {e : Engine} (h : e.stage = .idle) : e.RoundInRange := by
  intro hs; rw [h] at hs; simp at hs

theorem roundInRange_of_start {e : Engine} (h : e.stage = .start) : e.RoundInRange := by
  intro hs; rw [h] at hs; simp at hs

/-- RC after an advance that is not the last one. -/
theorem nextRc_inRange {rc : BitVec 5} (h : rc ≠ lastRc) : 1 ≤ (nextRc rc).toNat ∧ (nextRc rc).toNat ≤ 31 := by
  obtain ⟨hnext, hlt⟩ := nextRc_toNat h
  omega

/-- START sets RC to 1, each advance counts it, and the last advance leaves the stages that use it. -/
theorem roundInRange_advanceSchedule (d : Direction) (key : Key) (x : Block) (e : Engine) :
    (e.advanceSchedule d key x).RoundInRange := by
  unfold Engine.RoundInRange Engine.advanceSchedule
  cases hs : e.stage with
  | idle => simp [hs]
  | result => simp [hs]
  | final => simp
  | whiten => simp
  | iround i => cases i <;> simp
  | start => cases d <;> simp
  | rounds =>
    by_cases hl : e.rc = lastRc
    · simp [hl]
    · exact fun _ => nextRc_inRange hl
  | keygen =>
    by_cases hl : e.rc = lastRc
    · simp [hl]
    · exact fun _ => nextRc_inRange hl

theorem advanceSchedule_blk (d : Direction) (key : Key) (x : Block) (e : Engine) :
    (e.advanceSchedule d key x).blk = e.blk := by
  unfold Engine.advanceSchedule
  cases e.stage with
  | start => cases d <;> rfl
  | idle => rfl
  | rounds => rfl
  | final => rfl
  | keygen => rfl
  | whiten => rfl
  | iround i => rfl
  | result => rfl

/-- An engine is one of the state's, or, beyond the last lane, an idle one. -/
theorem engine_mem (s : State) (l : Nat) : s.engine l ∈ s.engines ∨ s.engine l = Engine.atReset := by
  unfold State.engine
  by_cases h : l < s.engines.length
  · rw [List.getD_eq_getElem _ _ h]; exact .inl (List.getElem_mem h)
  · rw [List.getD_eq_default _ _ (Nat.le_of_not_lt h)]; exact .inr rfl

theorem engine_roundInRange {s : State} (h : ∀ e ∈ s.engines, e.RoundInRange) (l : Nat) :
    (s.engine l).RoundInRange := by
  rcases engine_mem s l with hm | he
  · exact h _ hm
  · rw [he]; exact roundInRange_of_idle rfl

/-- A property of every engine holds after one engine is replaced by another that has it. -/
theorem forall_mem_setEngine {P : Engine → Prop} {s : State} (h : ∀ e ∈ s.engines, P e) (l : Nat) {e : Engine}
    (he : P e) : ∀ e' ∈ (s.setEngine l e).engines, P e' := by
  intro e' hm
  rcases List.mem_or_eq_of_mem_set hm with hm | rfl
  · exact h e' hm
  · exact he

/-! ## Buffer memory (R73, R181) -/

/-- A block of a message that fits the buffer has its place within OUT_BUF. -/
theorem outBlock_inRange {s : State} (hfit : s.len.toNat ≤ s.cfg.bufBytes) {j : Nat} (hj : j < s.blockCount) :
    8 * j + 8 ≤ s.cfg.bufBytes := by
  rw [blockCount_eq] at hj
  have := (bufBytes_le s.cfg).2
  omega

/-- Writing a block of the message lists only bytes of OUT_BUF. -/
theorem writeBlock_range {s : State} (hfit : s.len.toNat ≤ s.cfg.bufBytes) {m : Memory}
    (hm : ∀ c ∈ m, bufferAddress s.cfg c.1) {j : Nat} (hj : j < s.blockCount) (b : Vector Byte 8) :
    ∀ c ∈ writeBlock m j b, bufferAddress s.cfg c.1 := by
  intro c hc
  have hend := outBlock_inRange hfit hj
  rcases Memory.mem_setBytes hc with ⟨hlo, hhi⟩ | hc
  · right
    simp only [blockBytes, Vector.length_toList] at hlo hhi
    omega
  · exact hm c hc

theorem mapBlocks_range {s : State} (hfit : s.len.toNat ≤ s.cfg.bufBytes)
    (hm : ∀ c ∈ s.mem, bufferAddress s.cfg c.1) (d : Direction) {order : List Nat}
    (ho : ∀ j ∈ order, j < s.blockCount) : ∀ c ∈ s.mapBlocks d order, bufferAddress s.cfg c.1 := by
  unfold State.mapBlocks
  generalize s.mem = m at hm
  induction order generalizing m with
  | nil => exact hm
  | cons j js ih =>
    exact ih (fun k hk => ho k (List.mem_cons_of_mem _ hk)) _
      (writeBlock_range hfit hm (ho j List.mem_cons_self) _)

/-! ## ECB commands (R175 to R180) -/

theorem isEcb_cases {i : Instr} (he : isEcb i = true) : i = .ecbe ∨ i = .ecbd ∨ i = .pecbe ∨ i = .pecbd := by
  revert he; cases i <;> decide

theorem not_isEcb_cases {i : Instr} (he : isEcb i = false) : i = .nop ∨ i = .loadkey ∨ i = .encb ∨ i = .decb := by
  revert he; cases i <;> decide

/-- OUT_LEN of a successful ECB command (R183, R193). -/
def State.ecbLength (i : Instr) (s : State) : BitVec 32 :=
  match i with
  | .ecbe => s.encryptLength
  | .pecbe => s.encryptLength
  | _ => s.len

/-- The length checks of an ECB command: LEN fits the buffer, and is a whole number of blocks for a decryption
(R205, R206). -/
def State.EcbFits (i : Instr) (s : State) : Prop :=
  s.len.toNat ≤ s.cfg.bufBytes ∧ (i = .ecbd ∨ i = .pecbd → s.len.toNat % 8 = 0)

theorem ecbLength_congr {s t : State} (hlen : t.len = s.len) (i : Instr) : t.ecbLength i = s.ecbLength i := by
  simp only [State.ecbLength, State.encryptLength, hlen]

theorem ecbFits_congr {s t : State} (hcfg : t.cfg = s.cfg) (hlen : t.len = s.len) (i : Instr) :
    t.EcbFits i ↔ s.EcbFits i := by
  simp only [State.EcbFits, hcfg, hlen]

theorem checkEcbEncrypt_none {s : State} (h : s.checkEcbEncrypt = none) : s.len.toNat ≤ s.cfg.bufBytes := by
  unfold State.checkEcbEncrypt at h
  split at h
  · cases h
  · split at h
    · cases h
    · exact Nat.le_of_not_lt ‹_›

theorem checkEcbDecrypt_none {s : State} (h : s.checkEcbDecrypt = none) :
    s.len.toNat ≤ s.cfg.bufBytes ∧ s.len.toNat % 8 = 0 := by
  unfold State.checkEcbDecrypt at h
  split at h
  · cases h
  · split at h
    · cases h
    · split at h
      · cases h
      · rename_i hlen hmod
        exact ⟨Nat.le_of_not_lt hlen, not_not.mp hmod⟩

theorem check_ecb_none {i : Instr} {s : State} (he : isEcb i = true) (hc : s.check i = none) : s.EcbFits i := by
  rcases isEcb_cases he with rfl | rfl | rfl | rfl
  · exact ⟨checkEcbEncrypt_none hc, by simp⟩
  · exact ⟨(checkEcbDecrypt_none hc).1, fun _ => (checkEcbDecrypt_none hc).2⟩
  · exact ⟨checkEcbEncrypt_none hc, by simp⟩
  · exact ⟨(checkEcbDecrypt_none hc).1, fun _ => (checkEcbDecrypt_none hc).2⟩

theorem checksPassed_ecb {i : Instr} {s : State} (hd : decode s.seq.op = .ok i) (he : isEcb i = true) :
    s.ChecksPassed ↔ s.EcbFits i ∧ s.BlocksInRange := by
  unfold State.ChecksPassed State.EcbFits
  rw [hd]
  rcases isEcb_cases he with rfl | rfl | rfl | rfl
  · simp
  · simp [and_assoc]
  · simp
  · simp [and_assoc]

theorem checksPassed_of_not_ecb {i : Instr} {s : State} (hd : decode s.seq.op = .ok i) (he : isEcb i = false) :
    s.ChecksPassed := by
  unfold State.ChecksPassed
  rw [hd]
  rcases not_isEcb_cases he with rfl | rfl | rfl | rfl <;> trivial

theorem encryptLength_toNat {s : State} (hfit : s.len.toNat ≤ s.cfg.bufBytes) :
    s.encryptLength.toNat = padLen s.len.toNat := by
  have hpad := padLen_le hfit
  have hbuf := (bufBytes_le s.cfg).1
  rw [State.encryptLength, BitVec.toNat_ofNat]
  exact Nat.mod_eq_of_lt (by omega)

/-- OUT_LEN of an ECB command whose checks pass is a whole number of blocks within the buffer (R183). -/
theorem resultLegal_ecbLength {i : Instr} {s : State} (hd : decode s.seq.op = .ok i) (he : isEcb i = true)
    (hf : s.EcbFits i) : s.ResultLegal (.length (s.ecbLength i)) := by
  obtain ⟨hfit, hmod⟩ := hf
  have henc : s.encryptLength.toNat ≤ s.cfg.bufBytes ∧ s.encryptLength.toNat % 8 = 0 := by
    rw [encryptLength_toNat hfit]; exact ⟨padLen_le hfit, padLen_mod _⟩
  refine ⟨⟨i, hd, he⟩, ?_⟩
  rcases isEcb_cases he with rfl | rfl | rfl | rfl
  · exact henc
  · exact ⟨hfit, hmod (.inl rfl)⟩
  · exact henc
  · exact ⟨hfit, hmod (.inr rfl)⟩

theorem begin_ecb {i : Instr} (s : State) (he : isEcb i = true) : s.begin i = s.beginMapper (s.ecbLength i) := by
  rcases isEcb_cases he with rfl | rfl | rfl | rfl <;> rfl

theorem datapathStep_ecb {i : Instr} (s : State) (he : isEcb i = true) (lane pick : Nat) :
    ∃ m d l p, s.datapathStep i lane pick = s.mapperStep m d l p (s.ecbLength i) := by
  rcases isEcb_cases he with rfl | rfl | rfl | rfl
  · exact ⟨.sequential, .enc, 0, 0, rfl⟩
  · exact ⟨.sequential, .dec, 0, 0, rfl⟩
  · exact ⟨.parallel, .enc, lane % s.cfg.nLanes, pick, rfl⟩
  · exact ⟨.parallel, .dec, lane % s.cfg.nLanes, pick, rfl⟩

theorem committed_ecb {i : Instr} (s : State) (he : isEcb i = true) :
    ∃ d order, (∀ j ∈ order, j < s.blockCount)
      ∧ s.committed i = (s.runMapper d order).complete (.length (s.ecbLength i)) := by
  rcases isEcb_cases he with rfl | rfl | rfl | rfl
  · exact ⟨_, _, fun j hj => (mem_sequentialOrder s j).mp hj, rfl⟩
  · exact ⟨_, _, fun j hj => (mem_sequentialOrder s j).mp hj, rfl⟩
  · exact ⟨_, _, fun j hj => (mem_parallelOrder s j).mp hj, rfl⟩
  · exact ⟨_, _, fun j hj => (mem_parallelOrder s j).mp hj, rfl⟩

end Sys2Proof.Machine
end

section
/-! SUPPORT. What each kind of event keeps of the invariant: reset, host transactions and completions. -/

namespace Sys2Proof.Machine

/-! ## Reset and host transactions -/

/-- Settles O45: every clause is read off the reset values of R46; every engine is idle. -/
theorem invariantHoldsAtReset : Obligations.InvariantHoldsAtReset := by
  intro c
  exact {
    memWf := by simp [Memory.wf, State.resetWith]
    memRange := fun _ h => absurd h List.not_mem_nil
    lanes := List.length_replicate
    busyPhase := by simp [State.resetWith, Seq.atReset]
    doneIdle := by simp [State.resetWith]
    busyClear := by simp [State.resetWith]
    errTable := Nat.zero_le 6
    errfErr := by simp [State.resetWith]
    noKey := fun _ => rfl
    outLen := ⟨Nat.zero_le _, rfl⟩
    rounds := by
      intro e he
      rw [List.eq_of_mem_replicate he]
      exact roundInRange_of_idle rfl
    seqStage := (stageInv_waiting rfl).mpr rfl }

/-- The invariant does not speak of IE, the pins, the record of the first reset, the draws or the agenda. -/
theorem State.Inv.outside {s : State} (h : s.Inv) (ie rst : Bool) (rdata : Byte) (seen : Bool) (draws : Nat)
    (agenda : List Event) :
    ({ s with ie := ie, rst := rst, rdata := rdata, resetSeen := seen, draws := draws, agenda := agenda } :
      State).Inv :=
  ⟨h.memWf, h.memRange, h.lanes, h.busyPhase, h.doneIdle, h.busyClear, h.errTable, h.errfErr, h.noKey, h.outLen,
    h.rounds, h.seqStage⟩

/-- Reset puts the core into a state of the invariant from any state (R230). -/
theorem inv_resetTo (s : State) : s.resetTo.Inv :=
  (invariantHoldsAtReset s.cfg).outside false true 0 true s.draws s.agenda

theorem inv_inReset (e : Event) (s : State) : (s.inReset e).Inv := by
  cases e with
  | rst level =>
    cases level with
    | true => exact inv_resetTo s
    | false => exact (invariantHoldsAtReset s.cfg).outside false false 0 true s.draws s.agenda
  | write a w => exact inv_resetTo s
  | read a => exact inv_resetTo s
  | core lane pick => exact inv_resetTo s
  | run => exact inv_resetTo s

theorem inv_accept {s : State} (h : s.Inv) (w : Byte) : (s.accept w).Inv where
  memWf := h.memWf
  memRange := h.memRange
  lanes := h.lanes
  busyPhase := by simp
  doneIdle := by simp
  busyClear := by simp
  errTable := Nat.zero_le 6
  errfErr := by simp
  noKey := h.noKey
  outLen := h.outLen
  rounds := h.rounds
  seqStage := (stageInv_check rfl).mpr ⟨rfl, accept_blocksReady w s⟩

theorem inv_clearSticky {s : State} (h : s.Inv) (w : Byte) : (s.clearSticky w).Inv where
  memWf := h.memWf
  memRange := h.memRange
  lanes := h.lanes
  busyPhase := h.busyPhase
  doneIdle := fun ⟨hd, hb⟩ => h.doneIdle ⟨(Bool.and_eq_true_iff.mp hd).1, hb⟩
  busyClear := fun hb => ⟨(h.busyClear hb).1, by simp [(h.busyClear hb).2]⟩
  errTable := h.errTable
  errfErr := fun hf => h.errfErr (Bool.and_eq_true_iff.mp hf).1
  noKey := h.noKey
  outLen := h.outLen
  rounds := h.rounds
  seqStage := h.seqStage

theorem inv_dropWrite {s : State} (h : s.Inv) : s.dropWrite.Inv :=
  ⟨h.memWf, h.memRange, h.lanes, h.busyPhase, h.doneIdle, h.busyClear, h.errTable, h.errfErr, h.noKey, h.outLen,
    h.rounds, h.seqStage⟩

/-- Operands may change while no command runs: nothing but the buffers' form is said of them then. -/
theorem State.OperandsTo.inv {s t : State} (ho : s.OperandsTo t) (h : s.Inv) (hb : s.status.busy = false) : t.Inv := by
  have hp := h.phase_idle hb
  obtain ⟨hsame, hwf, hrange⟩ := ho
  rw [hsame]
  refine ⟨hwf h.memWf, hrange h.memRange, h.lanes, h.busyPhase, h.doneIdle, h.busyClear, h.errTable, h.errfErr, h.noKey,
    h.outLen, h.rounds, ?_⟩
  rw [stageInv_waiting (by exact h.stage_waiting hp)]
  exact hp

theorem State.WriteEffect.inv {l : Location} {w : Byte} {s t : State} (he : s.WriteEffect l w t) (h : s.Inv) :
    t.Inv := by
  cases he with
  | accepted _ _ => exact inv_accept h w
  | cleared _ => exact inv_clearSticky h w
  | dropped _ => exact inv_dropWrite h
  | stored hb ho => exact ho.inv h hb
  | enabled b => exact h.outside b s.rst s.rdata s.resetSeen s.draws s.agenda

/-! ## Completion (R193) -/

theorem statusAfter_busy (r : Result) (f : Status) : (r.statusAfter f).busy = false := by cases r <;> rfl

theorem statusAfter_done (r : Result) (f : Status) : (r.statusAfter f).done = true := by cases r <;> rfl

theorem statusAfter_ovr (r : Result) (f : Status) : (r.statusAfter f).ovr = f.ovr := by cases r <;> rfl

theorem errAfter_le (r : Result) : r.errAfter.toNat ≤ 6 := by
  cases r with
  | error c => cases c <;> decide
  | nothing => decide
  | key k => exact Nat.zero_le 6
  | block b => exact Nat.zero_le 6
  | length n => exact Nat.zero_le 6

/-- A completion sets ERRF only with a nonzero ERR. -/
theorem statusAfter_errf {r : Result} {f : Status} (hf : f.errf = false) (h : (r.statusAfter f).errf = true) :
    r.errAfter ≠ 0 := by
  cases r with
  | error c => cases c <;> decide
  | nothing => simp [hf] at h
  | key k => simp [hf] at h
  | block b => simp [hf] at h
  | length n => simp [hf] at h

end Sys2Proof.Machine
end

section
/-! SUPPORT. A completion, merged or not, ends in a state of the invariant (44_control.md R192, R193). -/

namespace Sys2Proof.Machine

/-- What a completion relies on besides its result. -/
structure State.Completable (s : State) : Prop where
  memWf : Memory.wf s.mem
  memRange : ∀ c ∈ s.mem, bufferAddress s.cfg c.1
  errf : s.status.errf = false
  noKey : s.status.keyv = false → s.key = 0
  outLen : s.outLen.toNat ≤ s.cfg.bufBytes ∧ s.outLen.toNat % 8 = 0

theorem keyAfter_of_keyv {r : Result} {s : State} (h : s.status.keyv = false → s.key = 0)
    (hv : (r.statusAfter s.status).keyv = false) : r.keyAfter s.key = 0 := by
  cases r with
  | key k => cases hv
  | nothing => exact h hv
  | block b => exact h hv
  | length n => exact h hv
  | error c => exact h hv

theorem inv_complete {s : State} (h : s.Completable) {r : Result} (hr : s.ResultLegal r) : (s.complete r).Inv where
  memWf := by rw [State.complete_mem]; exact h.memWf
  memRange := by rw [State.complete_mem, State.complete_cfg]; exact h.memRange
  lanes := by simp
  busyPhase := by rw [State.complete_status, statusAfter_busy, State.complete_seq]; simp
  doneIdle := by rw [State.complete_status, statusAfter_busy]; simp
  busyClear := by rw [State.complete_status, statusAfter_busy]; simp
  errTable := by rw [State.complete_err]; exact errAfter_le r
  errfErr := by rw [State.complete_status, State.complete_err]; exact statusAfter_errf h.errf
  noKey := by rw [State.complete_status, State.complete_key]; exact keyAfter_of_keyv h.noKey
  outLen := by
    rw [State.complete_outLen, State.complete_cfg]
    cases r with
    | length n => exact hr.2
    | nothing => exact h.outLen
    | key k => exact h.outLen
    | block b => exact h.outLen
    | error c => exact h.outLen
  rounds := by
    intro e he
    rw [State.complete_engines, List.mem_map] at he
    obtain ⟨l, -, rfl⟩ := he
    exact roundInRange_of_idle rfl
  seqStage := by rw [stageInv_waiting (by rw [State.complete_seq]), State.complete_seq]

/-- The state in which the merged step completes: the command's blocks are written, and the mapper's sets and the draws
have moved on. -/
structure State.MergedTo (s u : State) : Prop where
  same : u = { s with mem := u.mem, seq := u.seq, draws := u.draws }
  op : u.seq.op = s.seq.op
  memWf : Memory.wf u.mem
  memRange : ∀ c ∈ u.mem, bufferAddress s.cfg c.1

theorem State.Inv.mergedTo_self {s : State} (h : s.Inv) : s.MergedTo s := ⟨rfl, rfl, h.memWf, h.memRange⟩

theorem mergedTo_runMapper {s : State} (h : s.Inv) (hfit : s.len.toNat ≤ s.cfg.bufBytes) (d : Direction)
    {order : List Nat} (ho : ∀ j ∈ order, j < s.blockCount) : s.MergedTo (s.runMapper d order) :=
  ⟨rfl, rfl, mapBlocks_wf h.memWf d order, mapBlocks_range hfit h.memRange d ho⟩

theorem State.MergedTo.completable {s u : State} (hm : s.MergedTo u) (h : s.Inv) (hb : s.status.busy = true) :
    u.Completable := by
  obtain ⟨hsame, -, hwf, hrange⟩ := hm
  rw [hsame]
  exact ⟨hwf, hrange, (h.busyClear hb).2, h.noKey, h.outLen⟩

theorem State.MergedTo.resultLegal {s u : State} (hm : s.MergedTo u) {r : Result} (hr : s.ResultLegal r) :
    u.ResultLegal r := by
  have hcfg : u.cfg = s.cfg := by rw [hm.same]
  cases r with
  | nothing => trivial
  | error c => trivial
  | key k => unfold State.ResultLegal; rw [hm.op]; exact hr
  | block b => unfold State.ResultLegal; rw [hm.op]; exact hr
  | length n => unfold State.ResultLegal; rw [hm.op, hcfg]; exact hr

/-- A command just accepted completes in one merged step with a legal result (R191 to R193, R195). -/
theorem runCommand_completes {s : State} (h : s.Inv) (hp : s.seq.phase = .run) (hs : s.seq.stage = .check) :
    ∃ u r, s.runCommand = .next (u.complete r) ∧ s.MergedTo u ∧ s.ResultLegal r := by
  rw [runCommand_check hp hs]
  cases hd : decode s.seq.op with
  | error e => exact ⟨s, .error .illegalCmd, rfl, h.mergedTo_self, trivial⟩
  | ok i =>
    dsimp only
    rw [exec_eq]
    cases hc : s.check i with
    | some c => exact ⟨s, .error c, rfl, h.mergedTo_self, trivial⟩
    | none =>
      cases he : isEcb i with
      | true =>
        have hf := check_ecb_none he hc
        obtain ⟨d, order, ho, hcommit⟩ := committed_ecb s he
        exact ⟨s.runMapper d order, .length (s.ecbLength i), congrArg _ hcommit, mergedTo_runMapper h hf.1 d ho,
          resultLegal_ecbLength hd he hf⟩
      | false =>
        rcases not_isEcb_cases he with rfl | rfl | rfl | rfl
        · exact ⟨s, .nothing, rfl, h.mergedTo_self, trivial⟩
        · cases hk : s.keyOperand with
          | ok k => exact ⟨s, .key k, by simp [State.committed, hk], h.mergedTo_self, hd⟩
          | error c => simp [State.check, State.checkLoadkey, hk] at hc
        · exact ⟨s, .block _, rfl, h.mergedTo_self, .inl hd⟩
        · exact ⟨s, .block _, rfl, h.mergedTo_self, .inr hd⟩

end Sys2Proof.Machine
end

section
/-! SUPPORT. The internal steps short of completion keep the invariant, one lemma per step (44_control.md R191, R192;
42_block_cipher.md R165, R166; 43_ecb.md R179, R180), and with them every step. -/

namespace Sys2Proof.Machine

/-! ## The mapper (R179 to R181) -/

/-- What holds while the mapper of an ECB command with OUT_LEN `n` runs: memory stays within the buffers, RC is a round
number, the mapper stays among the blocks of the message, and what comes next is another datapath step or the completion
with `n`. -/
structure State.MapperInv (n : BitVec 32) (s : State) : Prop where
  memRange : ∀ c ∈ s.mem, bufferAddress s.cfg c.1
  rounds : ∀ e ∈ s.engines, e.RoundInRange
  blocks : s.BlocksInRange
  stage : s.seq.stage = .datapath ∨ s.seq.stage = .finish (.length n)

/-- The block an engine holds is a block of the message. -/
theorem engine_blk_lt {s : State} (h : s.BlocksInRange) {l j : Nat} (hj : (s.engine l).blk = some j) :
    j < s.blockCount := by
  rcases engine_mem s l with hm | he
  · exact h.2 _ hm j hj
  · rw [he] at hj; cases hj

/-- An engine may be replaced by one with a round number and a block of the message. -/
theorem State.MapperInv.setEngine {n : BitVec 32} {s : State} (h : s.MapperInv n) (l : Nat) {e : Engine}
    (hr : e.RoundInRange) (hb : ∀ j, e.blk = some j → j < s.blockCount) : (s.setEngine l e).MapperInv n where
  memRange := h.memRange
  rounds := forall_mem_setEngine h.rounds l hr
  blocks := ⟨h.blocks.1, forall_mem_setEngine h.blocks.2 l hb⟩
  stage := h.stage

/-- The steps of the schedules keep the engine's block, and RC a round number. -/
theorem State.MapperInv.advance {n : BitVec 32} {s : State} (h : s.MapperInv n) (d : Direction) (l : Nat) (x : Block) :
    (s.setEngine l ((s.engine l).advanceSchedule d s.key x)).MapperInv n := by
  refine h.setEngine l (roundInRange_advanceSchedule d s.key x _) fun j hj => ?_
  rw [advanceSchedule_blk] at hj
  exact engine_blk_lt h.blocks hj

theorem State.MapperInv.takeBlock {n : BitVec 32} {s : State} (h : s.MapperInv n) (l pick : Nat) :
    (s.takeBlock l pick).MapperInv n := by
  unfold State.takeBlock
  split
  · exact h
  · rename_i j js htodo
    dsimp only
    have hlt : pick % (js.length + 1) < (j :: js).length := Nat.mod_lt _ (Nat.succ_pos _)
    have hmem : (j :: js).getD (pick % (js.length + 1)) j ∈ s.seq.todo := by
      rw [List.getD_eq_getElem _ _ hlt, htodo]
      exact List.getElem_mem _
    have hset := h.setEngine l (e := { s.engine l with
        blk := some ((j :: js).getD (pick % (js.length + 1)) j), stage := .start })
      (roundInRange_of_start rfl) (fun k hk => Option.some.inj hk ▸ h.blocks.1 _ hmem)
    exact ⟨hset.memRange, hset.rounds, ⟨fun k hk => h.blocks.1 k (List.mem_of_mem_erase hk), hset.blocks.2⟩, h.stage⟩

theorem State.MapperInv.writeResult {n : BitVec 32} {s : State} (h : s.MapperInv n)
    (hfit : s.len.toNat ≤ s.cfg.bufBytes) (m : Mapper) (l : Nat) {j : Nat} (hj : j < s.blockCount) :
    (s.writeResult m l j n).MapperInv n := by
  have hblk : ∀ last k, m.blkAfter last j = some k → k < s.blockCount := by
    intro last k hk
    cases m with
    | parallel => cases hk
    | sequential =>
      cases last with
      | true => cases hk
      | false => cases hk; exact hj
  have hset := h.setEngine l (e := { s.engine l with
      blk := m.blkAfter (decide (insertIndex j s.seq.written = List.range s.blockCount)) j, stage := .idle })
    (roundInRange_of_idle rfl) (hblk _)
  refine ⟨writeBlock_range hfit h.memRange hj _, hset.rounds, hset.blocks, ?_⟩
  simp only [State.writeResult]
  split
  · exact .inr rfl
  · exact .inl rfl

theorem State.MapperInv.mapperStep {n : BitVec 32} {s : State} (h : s.MapperInv n)
    (hfit : s.len.toNat ≤ s.cfg.bufBytes) (m : Mapper) (d : Direction) (l pick : Nat) :
    (s.mapperStep m d l pick n).MapperInv n := by
  unfold State.mapperStep
  split
  · exact h.takeBlock l pick
  · rename_i j hj
    split
    · cases m with
      | sequential => exact h.takeBlock l pick
      | parallel => exact h
    · exact h.writeResult hfit m l (engine_blk_lt h.blocks hj)
    · have hset := h.advance d l (bytesToState (s.messageBlock s.draws j))
      exact ⟨hset.memRange, hset.rounds, hset.blocks, hset.stage⟩
    · exact h.advance d l 0

/-! ## What a step short of completion owes the invariant -/

/-- The clauses of the invariant that an internal step short of completion could break. -/
structure State.Sound (s : State) : Prop where
  memRange : ∀ c ∈ s.mem, bufferAddress s.cfg c.1
  rounds : ∀ e ∈ s.engines, e.RoundInRange
  stage : s.StageInv

theorem inv_of_internal {s t : State} (h : s.Inv) (hi : s.InternalTo t) (ht : t.Sound) : t.Inv := by
  have hcfg : t.cfg = s.cfg := by rw [hi.same]
  have hstatus : t.status = s.status := by rw [hi.same]
  have herr : t.err = s.err := by rw [hi.same]
  have hkey : t.key = s.key := by rw [hi.same]
  have hout : t.outLen = s.outLen := by rw [hi.same]
  exact {
    memWf := hi.wf h.memWf
    memRange := ht.memRange
    lanes := by rw [hi.lanes, hcfg]; exact h.lanes
    busyPhase := by rw [hstatus, hi.phase]; exact h.busyPhase
    doneIdle := by rw [hstatus]; exact h.doneIdle
    busyClear := by rw [hstatus, herr]; exact h.busyClear
    errTable := by rw [herr]; exact h.errTable
    errfErr := by rw [hstatus, herr]; exact h.errfErr
    noKey := by rw [hstatus, hkey]; exact h.noKey
    outLen := by rw [hout, hcfg]; exact h.outLen
    rounds := ht.rounds
    seqStage := ht.stage }

theorem sound_finishWith {s : State} (h : s.Inv) (hp : s.seq.phase = .run) {r : Result} (hr : s.ResultLegal r) :
    (s.finishWith r).Sound :=
  ⟨h.memRange, h.rounds, (stageInv_finish rfl).mpr ⟨hp, by cases r <;> exact hr⟩⟩

/-- The mapper's clauses give those of the invariant while the checks of its command hold. -/
theorem sound_of_mapperInv {s : State} {i : Instr} (hp : s.seq.phase = .run) (hd : decode s.seq.op = .ok i)
    (he : isEcb i = true) (hf : s.EcbFits i) (h : s.MapperInv (s.ecbLength i)) : s.Sound := by
  refine ⟨h.memRange, h.rounds, ?_⟩
  rcases h.stage with hs | hs
  · exact (stageInv_datapath hs).mpr ⟨hp, (checksPassed_ecb hd he).mpr ⟨hf, h.blocks⟩⟩
  · exact (stageInv_finish hs).mpr ⟨hp, resultLegal_ecbLength hd he hf⟩

theorem sound_beginBlock {s : State} {i : Instr} (h : s.Inv) (hp : s.seq.phase = .run) (hd : decode s.seq.op = .ok i)
    (he : isEcb i = false) : s.beginBlock.Sound :=
  ⟨h.memRange, forall_mem_setEngine h.rounds 0 (roundInRange_of_start rfl),
    (stageInv_datapath rfl).mpr ⟨hp, checksPassed_of_not_ecb hd he⟩⟩

/-- With no engine at work and TODO as acceptance set it, the mapper begins among the blocks of the message (R180). -/
theorem mapperInv_beginMapper {s : State} {i : Instr} (h : s.Inv) (hd : decode s.seq.op = .ok i) (he : isEcb i = true)
    (hc : s.check i = none) (hb : s.BlocksReady) (n : BitVec 32) : (s.beginMapper n).MapperInv n where
  memRange := h.memRange
  rounds := by
    intro e hm
    obtain ⟨e', -, rfl⟩ := List.mem_map.mp hm
    exact roundInRange_of_idle rfl
  blocks := by
    obtain ⟨htodo, -⟩ := hb _ (mapperBlocks_eq_some.mpr ⟨i, hd, he, hc, rfl⟩)
    refine ⟨fun j hj => ?_, fun e hm j hj => ?_⟩
    · rw [show (s.beginMapper n).seq.todo = List.range s.blockCount from htodo] at hj
      exact List.mem_range.mp hj
    · obtain ⟨e', -, rfl⟩ := List.mem_map.mp hm
      cases hj
  stage := by
    simp only [State.beginMapper]
    split
    · exact .inr rfl
    · exact .inl rfl

theorem sound_begin {s : State} {i : Instr} (h : s.Inv) (hp : s.seq.phase = .run) (hd : decode s.seq.op = .ok i)
    (hc : s.check i = none) (hb : s.BlocksReady) : (s.begin i).Sound := by
  cases he : isEcb i with
  | true =>
    rw [begin_ecb s he]
    exact sound_of_mapperInv (i := i) hp hd he (check_ecb_none he hc) (mapperInv_beginMapper h hd he hc hb _)
  | false =>
    rcases not_isEcb_cases he with rfl | rfl | rfl | rfl
    · exact sound_finishWith h hp trivial
    · exact ⟨h.memRange, h.rounds, (stageInv_datapath rfl).mpr ⟨hp, checksPassed_of_not_ecb hd he⟩⟩
    · exact sound_beginBlock h hp hd he
    · exact sound_beginBlock h hp hd he

theorem sound_checkStep {s : State} (h : s.Inv) (hp : s.seq.phase = .run) (hb : s.BlocksReady) : s.checkStep.Sound := by
  unfold State.checkStep
  split
  · exact sound_finishWith h hp trivial
  · split
    · exact sound_finishWith h hp trivial
    · exact sound_begin h hp ‹_› ‹_› hb

theorem sound_keyStep {s : State} (h : s.Inv) (hp : s.seq.phase = .run) (hd : decode s.seq.op = .ok .loadkey) :
    s.keyStep.Sound := by
  unfold State.keyStep
  split
  · exact sound_finishWith h hp hd
  · exact sound_finishWith h hp trivial

theorem sound_blockStep {s : State} (h : s.Inv) (hp : s.seq.phase = .run) (hs : s.seq.stage = .datapath)
    (hd : decode s.seq.op = .ok .encb ∨ decode s.seq.op = .ok .decb) (d : Direction) : (s.blockStep d).Sound := by
  have hr := forall_mem_setEngine h.rounds 0 (roundInRange_advanceSchedule d s.key s.blockOperand (s.engine 0))
  have hpassed : (s.setEngine 0 ((s.engine 0).advanceSchedule d s.key s.blockOperand)).ChecksPassed := by
    rcases hd with hd | hd <;> exact checksPassed_of_not_ecb hd rfl
  unfold State.blockStep
  dsimp only
  split
  · refine ⟨h.memRange, hr, (stageInv_finish rfl).mpr ⟨hp, ?_⟩⟩
    exact hd
  · exact ⟨h.memRange, hr, (stageInv_datapath (by exact hs)).mpr ⟨hp, hpassed⟩⟩

theorem sound_datapathStep {s : State} {i : Instr} (h : s.Inv) (hp : s.seq.phase = .run)
    (hs : s.seq.stage = .datapath) (hd : decode s.seq.op = .ok i) (hc : s.ChecksPassed) (lane pick : Nat) :
    (s.datapathStep i lane pick).Sound := by
  cases he : isEcb i with
  | true =>
    obtain ⟨hf, hblocks⟩ := (checksPassed_ecb hd he).mp hc
    obtain ⟨m, d, l, p, hstep⟩ := datapathStep_ecb s he lane pick
    have hi := internal_mapperStep m d l p (s.ecbLength i) s
    have hm : s.MapperInv (s.ecbLength i) := ⟨h.memRange, h.rounds, hblocks, .inl hs⟩
    have hcfg : (s.mapperStep m d l p (s.ecbLength i)).cfg = s.cfg := by rw [hi.same]
    have hlen : (s.mapperStep m d l p (s.ecbLength i)).len = s.len := by rw [hi.same]
    rw [hstep]
    refine sound_of_mapperInv (i := i) (hi.phase.trans hp) (hi.op ▸ hd) he ?_ ?_
    · exact (ecbFits_congr hcfg hlen i).mpr hf
    · rw [ecbLength_congr hlen i]; exact hm.mapperStep hf.1 m d l p
  | false =>
    rcases not_isEcb_cases he with rfl | rfl | rfl | rfl
    · exact sound_finishWith h hp trivial
    · exact sound_keyStep h hp hd
    · exact sound_blockStep h hp hs (.inl hd) .enc
    · exact sound_blockStep h hp hs (.inr hd) .dec

/-! ## Every step -/

theorem State.Inv.sound {s : State} (h : s.Inv) : s.Sound := ⟨h.memRange, h.rounds, h.seqStage⟩

/-- An internal step that is no completion owes the invariant nothing. -/
theorem sound_coreStep {s : State} (h : s.Inv) (hf : ∀ r, s.seq.stage ≠ .finish r) (lane pick : Nat) :
    (s.coreStep lane pick).Sound := by
  have hstage := h.seqStage
  unfold State.coreStep
  cases hs : s.seq.stage with
  | waiting => exact h.sound
  | check =>
    obtain ⟨hp, hb⟩ := (stageInv_check hs).mp hstage
    exact sound_checkStep h hp hb
  | datapath =>
    obtain ⟨hp, hc⟩ := (stageInv_datapath hs).mp hstage
    dsimp only
    split
    · exact sound_finishWith h hp trivial
    · exact sound_datapathStep h hp hs ‹_› hc lane pick
  | finish r => exact absurd hs (hf r)

/-- A result waits only while a command runs, and is legal. -/
theorem State.Inv.finish {s : State} (h : s.Inv) {r : Result} (hs : s.seq.stage = .finish r) :
    s.status.busy = true ∧ s.ResultLegal r := by
  obtain ⟨hp, hr⟩ := (stageInv_finish hs).mp h.seqStage
  exact ⟨h.busyPhase.mpr hp, hr⟩

theorem inv_coreStep {s : State} (h : s.Inv) (lane pick : Nat) : (s.coreStep lane pick).Inv := by
  by_cases hf : ∃ r, s.seq.stage = .finish r
  · obtain ⟨r, hs⟩ := hf
    obtain ⟨hb, hr⟩ := h.finish hs
    have hstep : s.coreStep lane pick = s.complete r := by unfold State.coreStep; rw [hs]
    rw [hstep]
    exact inv_complete (h.mergedTo_self.completable h hb) hr
  · rcases coreStep_cases lane pick s with ⟨r, hs, -⟩ | hi
    · exact absurd ⟨r, hs⟩ hf
    · exact inv_of_internal h hi (sound_coreStep h (fun r hs => hf ⟨r, hs⟩) lane pick)

theorem inv_runCommand {s t : State} (h : s.Inv) (hrun : s.runCommand = .next t) : t.Inv := by
  cases hp : s.seq.phase with
  | idle =>
    rw [runCommand_idle hp] at hrun
    cases hrun
    exact h
  | run =>
    by_cases hs : s.seq.stage = .check
    · obtain ⟨u, r, hcomplete, hm, hr⟩ := runCommand_completes h hp hs
      rw [hcomplete] at hrun
      cases hrun
      exact inv_complete (hm.completable h (h.busyPhase.mpr hp)) (hm.resultLegal hr)
    · rw [runCommand_under_way hp hs] at hrun
      cases hrun
      obtain ⟨cs, hsteps⟩ := finishCommand_steps s
      rw [hsteps]
      exact coreSteps_induct (P := State.Inv) (fun u l p hu => inv_coreStep hu l p) cs s h

theorem inv_perform {s t : State} {e : Event} (h : s.Inv) (hstep : s.perform e = .next t) : t.Inv := by
  rcases perform_cases hstep with ⟨-, rfl⟩ | ⟨-, -, rfl⟩ | ⟨-, -, rfl⟩ | ⟨a, w, -, -, rfl⟩ | ⟨a, -, -, rfl⟩
    | ⟨l, p, -, -, rfl⟩ | ⟨-, -, hrun⟩
  · exact inv_inReset e s
  · exact inv_resetTo s
  · exact h
  · exact (writeLocation_effect (locate a) w s).inv h
  · exact h.outside s.ie s.rst (s.readValue a) s.resetSeen (s.draws + 1) s.agenda
  · exact inv_coreStep h l p
  · exact inv_runCommand h hrun

/-- Settles O46: a step performs one event (`inv_perform`), the first of the agenda or, when none is left, `run`; the
agenda itself is no matter of the invariant. -/
theorem stepKeepsInvariant : Obligations.StepKeepsInvariant := by
  intro s t h hstep
  cases ha : s.agenda with
  | nil =>
    rw [step_quiet ha] at hstep
    exact inv_perform h hstep
  | cons e rest =>
    rw [step_cons ha] at hstep
    exact inv_perform (h.outside s.ie s.rst s.rdata s.resetSeen s.draws rest) hstep

end Sys2Proof.Machine
end

section
/-! SUPPORT. What one event outside reset can do to STATUS and to the results a host reads (10_state.md R25, R32, R35, R37,
R44). -/

namespace Sys2Proof.Machine

/-! ## Opcodes -/

/-- A byte that decodes to a command is its opcode (R102). -/
theorem eq_encode_of_decode {w : Byte} {i : Instr} (h : decode w = .ok i) : w = encode i := by
  unfold decode at h
  split at h <;> cases h <;> exact BitVec.eq_of_toNat_eq ‹_›

theorem ecb_opcode_range {i : Instr} (he : isEcb i = true) : 4 ≤ (encode i).toNat ∧ (encode i).toNat ≤ 7 := by
  rcases isEcb_cases he with rfl | rfl | rfl | rfl <;> decide

/-! ## A running command -/

/-- The results a host reads are as before. -/
structure State.SameResults (s t : State) : Prop where
  key : t.key = s.key
  blockOut : t.blockOut = s.blockOut
  outLen : t.outLen = s.outLen

theorem sameResults_refl (s : State) : s.SameResults s := ⟨rfl, rfl, rfl⟩

/-- The running command has committed the result `r` (R193). -/
structure State.CommitTo (r : Result) (s t : State) : Prop where
  busy : s.status.busy = true
  legal : s.ResultLegal r
  status : t.status = r.statusAfter s.status
  err : t.err = r.errAfter
  key : t.key = r.keyAfter s.key
  blockOut : t.blockOut = r.blockOutAfter s.blockOut
  outLen : t.outLen = r.outLenAfter s.outLen

/-- The command has committed nothing yet, if one runs. -/
structure State.Uncommitted (s t : State) : Prop where
  results : s.SameResults t
  status : t.status = s.status
  cfg : t.cfg = s.cfg
  op : t.seq.op = s.seq.op

theorem State.InternalTo.uncommitted {s t : State} (h : s.InternalTo t) : s.Uncommitted t where
  results := ⟨by rw [h.same], by rw [h.same], by rw [h.same]⟩
  status := by rw [h.same]
  cfg := by rw [h.same]
  op := h.op

/-- A completion in the state `u` of a command that runs in `s`. -/
theorem State.Uncommitted.complete {s u : State} (h : s.Uncommitted u) {r : Result} (hb : s.status.busy = true)
    (hr : s.ResultLegal r) : s.CommitTo r (u.complete r) where
  busy := hb
  legal := hr
  status := by rw [State.complete_status, h.status]
  err := State.complete_err r u
  key := by rw [State.complete_key, h.results.key]
  blockOut := by rw [State.complete_blockOut, h.results.blockOut]
  outLen := by rw [State.complete_outLen, h.results.outLen]

theorem State.Uncommitted.resultLegal {s u : State} (h : s.Uncommitted u) {r : Result} :
    u.ResultLegal r ↔ s.ResultLegal r := by
  cases r <;> simp only [State.ResultLegal, h.op, h.cfg]

/-- What internal steps of a command can do to STATUS and the results: nothing, or all that its completion does. -/
def State.CommandTo (s t : State) : Prop := s.Uncommitted t ∨ ∃ r, s.CommitTo r t

theorem uncommitted_refl (s : State) : s.Uncommitted s := ⟨sameResults_refl s, rfl, rfl, rfl⟩

/-- One more internal step: a command that has committed is over, and the idle core takes no step. -/
theorem commandTo_coreStep {s u : State} (hu : u.Inv) (h : s.CommandTo u) (l p : Nat) :
    s.CommandTo (u.coreStep l p) := by
  rcases h with hun | ⟨r, hc⟩
  · rcases coreStep_cases l p u with ⟨r, hs, hstep⟩ | hi
    · obtain ⟨hb, hr⟩ := hu.finish hs
      rw [hstep]
      exact .inr ⟨r, hun.complete (hun.status ▸ hb) (hun.resultLegal.mp hr)⟩
    · have hi := hi.uncommitted
      exact .inl ⟨⟨hi.results.key.trans hun.results.key, hi.results.blockOut.trans hun.results.blockOut,
        hi.results.outLen.trans hun.results.outLen⟩, hi.status.trans hun.status, hi.cfg.trans hun.cfg,
        hi.op.trans hun.op⟩
  · have hidle : u.status.busy = false := by rw [hc.status, statusAfter_busy]
    have hstep : u.coreStep l p = u := by
      unfold State.coreStep; rw [hu.stage_waiting (hu.phase_idle hidle)]
    rw [hstep]
    exact .inr ⟨r, hc⟩

theorem commandTo_coreSteps {s : State} (h : s.Inv) (cs : List (Nat × Nat)) : s.CommandTo (s.coreSteps cs) :=
  (coreSteps_induct (P := fun u => u.Inv ∧ s.CommandTo u)
    (fun _ l p ⟨hi, hc⟩ => ⟨inv_coreStep hi l p, commandTo_coreStep hi hc l p⟩) cs s
    ⟨h, .inl (uncommitted_refl s)⟩).2

theorem commandTo_runCommand {s t : State} (h : s.Inv) (hrun : s.runCommand = .next t) : s.CommandTo t := by
  cases hp : s.seq.phase with
  | idle =>
    rw [runCommand_idle hp] at hrun
    cases hrun
    exact .inl (uncommitted_refl s)
  | run =>
    by_cases hs : s.seq.stage = .check
    · obtain ⟨u, r, hcomplete, hm, hr⟩ := runCommand_completes h hp hs
      rw [hcomplete] at hrun
      cases hrun
      have hu : s.Uncommitted u :=
        ⟨⟨by rw [hm.same], by rw [hm.same], by rw [hm.same]⟩, by rw [hm.same], by rw [hm.same], hm.op⟩
      exact .inr ⟨r, hu.complete (h.busyPhase.mpr hp) hr⟩
    · rw [runCommand_under_way hp hs] at hrun
      cases hrun
      obtain ⟨cs, hsteps⟩ := finishCommand_steps s
      rw [hsteps]
      exact commandTo_coreSteps h cs

/-! ## One event -/

/-- The five things an event outside reset can do to STATUS and the results. -/
inductive State.EventEffect (e : Event) (s t : State) : Prop
  | kept (hst : t.status = s.status) (hr : s.SameResults t)
  | accepted (w : Byte) (he : e = .write 0x0000 w) (hb : s.status.busy = false) (hst : t.status = s.status.accepted)
      (hr : s.SameResults t)
  | cleared (w : Byte) (he : e = .write 0x0001 w) (hst : t.status = s.status.clearedBy w) (hr : s.SameResults t)
  | dropped (a : Addr) (w : Byte) (he : e = .write a w) (hb : s.status.busy = true) (hst : t.status = s.status.overrun)
      (hr : s.SameResults t)
  | committed (r : Result) (he : e = .run ∨ ∃ l p, e = .core l p) (hc : s.CommitTo r t)

theorem State.CommandTo.eventEffect {s t : State} (h : s.CommandTo t) {e : Event}
    (he : e = .run ∨ ∃ l p, e = .core l p) : s.EventEffect e t := by
  rcases h with hun | ⟨r, hc⟩
  · exact .kept hun.status hun.results
  · exact .committed r he hc

theorem State.WriteEffect.eventEffect {s t : State} {a : Addr} {w : Byte} (h : s.WriteEffect (locate a) w t) :
    s.EventEffect (.write a w) t := by
  cases h with
  | accepted hl hb => exact .accepted w (by rw [locate_eq_cmd hl]) hb rfl ⟨rfl, rfl, rfl⟩
  | cleared hl => exact .cleared w (by rw [locate_eq_status hl]) rfl ⟨rfl, rfl, rfl⟩
  | dropped hb => exact .dropped a w rfl hb rfl ⟨rfl, rfl, rfl⟩
  | stored hb ho => exact .kept (by rw [ho.same]) ⟨by rw [ho.same], by rw [ho.same], by rw [ho.same]⟩
  | enabled b => exact .kept rfl ⟨rfl, rfl, rfl⟩

theorem step_effect {s t : State} {e : Event} (h : s.Inv) (hs : s.Ready) (he : e ≠ .rst true)
    (hstep : step (s.facing e) = .next t) : s.EventEffect e t := by
  rw [step_facing] at hstep
  rcases perform_cases hstep with ⟨hrst, -⟩ | ⟨-, hrst, -⟩ | ⟨-, -, rfl⟩ | ⟨a, w, -, rfl, rfl⟩ | ⟨a, -, -, rfl⟩
    | ⟨l, p, -, rfl, rfl⟩ | ⟨-, rfl, hrun⟩
  · rw [hs.rstLow] at hrst; cases hrst
  · exact absurd hrst he
  · exact .kept rfl (sameResults_refl _)
  · exact (writeLocation_effect (locate a) w s).eventEffect
  · exact .kept rfl ⟨rfl, rfl, rfl⟩
  · exact (commandTo_coreStep h (.inl (uncommitted_refl s)) l p).eventEffect (.inr ⟨l, p, rfl⟩)
  · exact (commandTo_runCommand h hrun).eventEffect (.inl rfl)

/-! ## Results (R32, R35, R37) -/

/-- The only result whose commit touches KEY or KEYV is a key (R142). -/
theorem commit_key {r : Result} {s t : State} (hc : s.CommitTo r t)
    (h : t.key ≠ s.key ∨ t.status.keyv ≠ s.status.keyv) : t.status.keyv = true ∧ s.seq.op = 0x01 := by
  obtain ⟨-, hlegal, hstatus, -, hkey, -, -⟩ := hc
  rw [hstatus, hkey] at h
  rw [hstatus]
  cases r with
  | key k => exact ⟨rfl, eq_encode_of_decode hlegal⟩
  | nothing => simp at h
  | block b => simp at h
  | length n => simp at h
  | error c => simp at h

/-- The only result whose commit touches BLOCK_OUT is a block (R163, R164). -/
theorem commit_blockOut {r : Result} {s t : State} (hc : s.CommitTo r t) (h : t.blockOut ≠ s.blockOut) :
    s.seq.op = 0x02 ∨ s.seq.op = 0x03 := by
  obtain ⟨-, hlegal, -, -, -, hblock, -⟩ := hc
  rw [hblock] at h
  cases r with
  | block b => exact hlegal.imp eq_encode_of_decode eq_encode_of_decode
  | nothing => exact absurd rfl h
  | key k => exact absurd rfl h
  | length n => exact absurd rfl h
  | error c => exact absurd rfl h

/-- The only result whose commit touches OUT_LEN is a length (R183). -/
theorem commit_outLen {r : Result} {s t : State} (hc : s.CommitTo r t) (h : t.outLen ≠ s.outLen) :
    4 ≤ s.seq.op.toNat ∧ s.seq.op.toNat ≤ 7 := by
  obtain ⟨-, hlegal, -, -, -, -, hlen⟩ := hc
  rw [hlen] at h
  cases r with
  | length n =>
    obtain ⟨⟨i, hd, he⟩, -⟩ := hlegal
    rw [eq_encode_of_decode hd]
    exact ecb_opcode_range he
  | nothing => exact absurd rfl h
  | key k => exact absurd rfl h
  | block b => exact absurd rfl h
  | error c => exact absurd rfl h

/-- A result has changed only if a command has committed. -/
theorem committed_of_changed {s t : State} {e : Event} (he : s.EventEffect e t)
    (h : ¬(s.SameResults t ∧ t.status.keyv = s.status.keyv)) : ∃ r, s.CommitTo r t := by
  cases he with
  | kept hst hr => exact absurd ⟨hr, by rw [hst]⟩ h
  | accepted w _ _ hst hr => exact absurd ⟨hr, by rw [hst]; rfl⟩ h
  | cleared w _ hst hr => exact absurd ⟨hr, by rw [hst]; rfl⟩ h
  | dropped a w _ _ hst hr => exact absurd ⟨hr, by rw [hst]; rfl⟩ h
  | committed r _ hc => exact ⟨r, hc⟩

theorem State.CommitTo.idle_after {r : Result} {s t : State} (hc : s.CommitTo r t) : t.status.busy = false := by
  rw [hc.status, statusAfter_busy]

/-- Settles O48: of the five things an event can do only a commit touches a result (`committed_of_changed`), and which one
it touches tells its command. -/
theorem resultsChangeOnlyAtTheirCompletion : Obligations.ResultsChangeOnlyAtTheirCompletion := by
  intro s t e h hs he hstep
  have heffect := step_effect h hs he hstep
  refine ⟨fun hk => ?_, fun hb => ?_, fun hl => ?_⟩
  · obtain ⟨r, hc⟩ := committed_of_changed heffect fun ⟨hr, hv⟩ => hk.elim (absurd hr.key) (absurd hv)
    obtain ⟨hv, hop⟩ := commit_key hc hk
    exact ⟨hc.busy, hc.idle_after, hv, hop⟩
  · obtain ⟨r, hc⟩ := committed_of_changed heffect fun ⟨hr, _⟩ => hb hr.blockOut
    exact ⟨hc.busy, hc.idle_after, commit_blockOut hc hb⟩
  · obtain ⟨r, hc⟩ := committed_of_changed heffect fun ⟨hr, _⟩ => hl hr.outLen
    exact ⟨hc.busy, hc.idle_after, commit_outLen hc hl⟩

/-! ## Flags (R44) -/

theorem statusAfter_errf_of_set {f : Status} (r : Result) (h : f.errf = true) : (r.statusAfter f).errf = true := by
  cases r with
  | error c => rfl
  | nothing => exact h
  | key k => exact h
  | block b => exact h
  | length n => exact h

theorem statusAfter_keyv_of_set {f : Status} (r : Result) (h : f.keyv = true) : (r.statusAfter f).keyv = true := by
  cases r with
  | key k => rfl
  | nothing => exact h
  | block b => exact h
  | length n => exact h
  | error c => exact h

/-- Settles O49: each of the five things an event can do says what becomes of every flag. -/
theorem flagsChangeOnlyAsTheRulesSay : Obligations.FlagsChangeOnlyAsTheRulesSay := by
  intro s t e h hs he hstep
  cases step_effect h hs he hstep with
  | kept hst _ => simp +contextual [hst]
  | accepted w he hb hst _ => simp +contextual [hst, he, hb]
  | cleared w he hst _ => simp +contextual [hst, he]
  | dropped a w he hb hst _ => simp +contextual [hst, he, hb]
  | committed r he hc =>
    have hnot : ¬s.status.done = true := fun hd => h.doneIdle ⟨hd, hc.busy⟩
    have herr : t.status.errf = true → t.err ≠ 0 := by
      rw [hc.status, hc.err]; exact statusAfter_errf (h.busyClear hc.busy).2
    refine ⟨fun hb => ?_, fun _ _ => ?_, fun _ _ => ⟨hc.busy, hc.idle_after⟩, fun hd => absurd hd hnot,
      fun _ hf => ⟨hc.busy, hc.idle_after, herr hf⟩, fun hf hf' => ?_, fun ho ho' => ?_, fun ho ho' => ?_, fun hv => ?_⟩
    · rw [hc.busy] at hb; cases hb
    · exact ⟨by rw [hc.status, statusAfter_done], he⟩
    · rw [hc.status, statusAfter_errf_of_set r hf] at hf'; cases hf'
    · rw [hc.status, statusAfter_ovr, ho] at ho'; cases ho'
    · rw [hc.status, statusAfter_ovr, ho] at ho'; cases ho'
    · rw [hc.status]; exact statusAfter_keyv_of_set r hv

end Sys2Proof.Machine
end

section
/-! SUPPORT. The bus map as a whole: which writes a running command drops, which are always ignored, what a read of a
buffer window returns, and which opcodes make OUT_BUF read as any value (20_memory.md R72 to R75, R82). -/

namespace Sys2Proof.Machine

/-! ## Writes by address -/

/-- While a command runs a write to an operand is dropped (R74). -/
theorem writeLocation_operand_busy {s : State} {n : Nat} (hb : s.status.busy = true) (h : operandAddress s.cfg n)
    (w : Byte) : s.writeLocation (locateNat n) w = s.dropWrite := by
  have hbuf := (bufBytes_le s.cfg).1
  have hn : n = 0 ∨ n = 4 ∨ n = 5 ∨ (0x0008 ≤ n ∧ n < 0x000C) ∨ (0x0010 ≤ n ∧ n < 0x0020)
      ∨ (0x0020 ≤ n ∧ n < 0x0028) ∨ (0x1000 ≤ n ∧ n < 0x1000 + s.cfg.bufBytes) := by
    unfold operandAddress at h; omega
  rcases hn with rfl | rfl | rfl | h | h | h | h
  · exact if_pos hb
  · exact operandWrite_busy hb
  · exact operandWrite_busy hb
  · rw [locateNat_len h]; exact operandWrite_busy hb
  · rw [locateNat_keyIn h]; exact operandWrite_busy hb
  · rw [locateNat_blockIn h]; exact operandWrite_busy hb
  · rw [locateNat_inBuf (by omega), State.writeLocation, if_pos (Nat.sub_lt_left_of_lt_add h.1 h.2)]
    exact operandWrite_busy hb

/-- A write to an address that is no operand, nor STATUS, nor CTRL is ignored, whether or not a command runs
(R72, R73). -/
theorem step_write_ignored {s : State} (hs : s.Ready) {a : Addr} (h : ¬operandAddress s.cfg a.toNat)
    (hstatus : a.toNat ≠ 0x0001) (hctrl : a.toNat ≠ 0x0003) (w : Byte) : step (s.facing (.write a w)) = .next s := by
  rw [step_write hs, locate]
  generalize a.toNat = n at h hstatus hctrl ⊢
  have hn : n = 2 ∨ (0x000C ≤ n ∧ n < 0x0010) ∨ (0x0028 ≤ n ∧ n < 0x0030) ∨ (0x1000 + s.cfg.bufBytes ≤ n ∧ n < 0x2000)
      ∨ (0x2000 ≤ n ∧ n < 0x3000) ∨ (n = 6 ∨ n = 7 ∨ (0x0030 ≤ n ∧ n < 0x1000) ∨ 0x3000 ≤ n) := by
    unfold operandAddress at h; omega
  rcases hn with rfl | h | h | h | h | h
  · rfl
  · rw [locateNat_outLen h]; rfl
  · rw [locateNat_blockOut h]; rfl
  · rw [locateNat_inBuf (by omega), State.writeLocation, if_neg (Nat.not_lt.mpr (Nat.le_sub_of_add_le' h.1))]
  · rw [locateNat_outBuf h]; rfl
  · rw [locateNat_reserved h]; rfl

theorem locate_inBuf {i : Nat} (h : i < 4096) : locate (BitVec.ofNat 14 (0x1000 + i)) = .inBuf ⟨i, h⟩ := by
  rw [locate, toNat_addr (by omega), locateNat_inBuf (by omega)]
  simp

/-- While no command runs a write to IN_BUF below BUF_BYTES stores the byte (R73). -/
theorem step_write_inBuf {s : State} (hs : s.Ready) (hb : s.status.busy = false) {i : Nat} (hi : i < s.cfg.bufBytes)
    (w : Byte) : step (s.facing (.write (BitVec.ofNat 14 (0x1000 + i)) w))
      = .next { s with mem := Memory.set s.mem (0x1000 + i) w } := by
  rw [step_write hs, locate_inBuf (hi.trans_le (bufBytes_le s.cfg).1), State.writeLocation, if_pos hi]
  exact congrArg _ (operandWrite_idle hb)

/-! ## Reads of the buffer windows -/

/-- An IN_BUF read: the byte last written, or any value; 0x00 at or above BUF_BYTES (R73, R75). -/
theorem readValue_inBuf (s : State) {a : Addr} (h : 0x1000 ≤ a.toNat ∧ a.toNat < 0x2000) :
    s.readValue a = if a.toNat < 0x1000 + s.cfg.bufBytes then s.bufByte s.draws a.toNat else 0x00 := by
  have haddr : inBase + (a.toNat - 0x1000) = a.toNat := Nat.add_sub_cancel' h.1
  have hoff : a.toNat - 0x1000 < s.cfg.bufBytes ↔ a.toNat < 0x1000 + s.cfg.bufBytes := by omega
  rw [State.readValue, locate, locateNat_inBuf h]
  simp only [State.readLocation, haddr, hoff]

/-- An OUT_BUF read: as IN_BUF, but any value while an ECB command runs (R73, R75). -/
theorem readValue_outBuf (s : State) {a : Addr} (h : 0x2000 ≤ a.toNat ∧ a.toNat < 0x3000) :
    s.readValue a = if a.toNat < 0x2000 + s.cfg.bufBytes then
      (if s.ecbRunning then Config.freeByte s.draws a.toNat else s.bufByte s.draws a.toNat) else 0x00 := by
  have haddr : outBase + (a.toNat - 0x2000) = a.toNat := Nat.add_sub_cancel' h.1
  have hoff : a.toNat - 0x2000 < s.cfg.bufBytes ↔ a.toNat < 0x2000 + s.cfg.bufBytes := by omega
  rw [State.readValue, locate, locateNat_outBuf h]
  simp only [State.readLocation, haddr, hoff]

theorem readValue_inBuf_written {s : State} {i : Nat} {w : Byte} (hw : Memory.get? s.mem (0x1000 + i) = some w)
    (hi : i < s.cfg.bufBytes) : s.readValue (BitVec.ofNat 14 (0x1000 + i)) = w := by
  have hbuf := (bufBytes_le s.cfg).1
  have haddr : (BitVec.ofNat 14 (0x1000 + i)).toNat = 0x1000 + i := toNat_addr (by omega)
  rw [readValue_inBuf s (by omega), haddr, if_pos (Nat.add_lt_add_left hi _), State.bufByte, hw]; rfl

/-! ## The ECB opcodes -/

theorem decode_encode (i : Instr) : decode (encode i) = .ok i := by cases i <;> rfl

/-- The opcodes of the ECB commands are 0x04 to 0x07 (R102). -/
theorem decodes_ecb_iff (w : Byte) : (∃ i, decode w = .ok i ∧ isEcb i = true) ↔ 4 ≤ w.toNat ∧ w.toNat ≤ 7 := by
  constructor
  · rintro ⟨i, hd, he⟩
    rw [eq_encode_of_decode hd]
    exact ecb_opcode_range he
  · intro h
    have hw : w = encode .ecbe ∨ w = encode .ecbd ∨ w = encode .pecbe ∨ w = encode .pecbd := by
      simp only [← BitVec.toNat_inj]
      show w.toNat = 4 ∨ w.toNat = 5 ∨ w.toNat = 6 ∨ w.toNat = 7
      omega
    rcases hw with rfl | rfl | rfl | rfl
    · exact ⟨.ecbe, decode_encode _, rfl⟩
    · exact ⟨.ecbd, decode_encode _, rfl⟩
    · exact ⟨.pecbe, decode_encode _, rfl⟩
    · exact ⟨.pecbd, decode_encode _, rfl⟩

theorem ecbRunning_iff (s : State) :
    s.ecbRunning = true ↔ s.status.busy = true ∧ ∃ i, decode s.seq.op = .ok i ∧ isEcb i = true := by
  rw [State.ecbRunning, Bool.and_eq_true]
  cases decode s.seq.op <;> simp

end Sys2Proof.Machine
end

section
/-! SUPPORT. Host writes and reads over the whole address map: obligations O10, O11 and O17 to O19. -/

namespace Sys2Proof.Machine

/-- Settles O10: an operand write is `State.dropWrite`, STATUS and CTRL do not look at BUSY, and every other write is
ignored. -/
theorem operandWritesWhileBusyAreDropped : Obligations.OperandWritesWhileBusyAreDropped := by
  intro s a w hs hb
  refine ⟨fun h => ?_, ?_, ?_, fun h hstatus hctrl => ?_⟩
  · exact (step_write hs a w).trans (congrArg _ (writeLocation_operand_busy hb h w))
  · rintro rfl; exact step_write hs 0x0001 w
  · rintro rfl; exact step_write hs 0x0003 w
  · rw [Ne, ← BitVec.toNat_inj] at hstatus hctrl
    exact step_write_ignored hs h hstatus hctrl w

/-- Settles O11: none of the addresses listed is an operand, STATUS or CTRL. -/
theorem readOnlyAndReservedWritesAreIgnored : Obligations.ReadOnlyAndReservedWritesAreIgnored := by
  intro s a w hs h
  have hbuf := (bufBytes_le s.cfg).1
  have hop : ¬operandAddress s.cfg a.toNat := by unfold operandAddress; omega
  exact step_write_ignored hs hop (by omega) (by omega) w

/-- Settles O17: the write is `Memory.set` at that address, so the laws of `Memory.set` say what memory reads as. -/
theorem inBufWriteReadsBack : Obligations.InBufWriteReadsBack := by
  intro s i w hs hb hi
  have ht : ({ s with mem := Memory.set s.mem (0x1000 + i) w } : State).Ready := ⟨hs.rstLow, hs.resetSeen⟩
  refine ⟨_, step_write_inBuf hs hb hi w, rfl, Memory.get?_set_self _ _ _, fun a ha => Memory.get?_set_other _ _ _ _ ha,
    fun hm => Memory.set_wf hm _ _, step_read ht _ ?_⟩
  exact readValue_inBuf_written (Memory.get?_set_self _ _ _) hi

/-- Settles O18: the value is `State.readValue`, looked up in one part of the address map after the other. -/
theorem readsReturnWhatTheAddressNames : Obligations.ReadsReturnWhatTheAddressNames := by
  intro s a hs
  have hbuf := (bufBytes_le s.cfg).1
  have hat {n : Nat} (h : a.toNat = n) : s.readValue a = s.readLocation (locateNat n) := by rw [← h]; rfl
  refine ⟨s.readValue a, step_read hs a rfl, hat, hat, hat, hat, hat, hat, fun k hk h => ?len, fun k hk h => ?outLen,
    fun n hn h => ?keyIn, fun n hn h => ?blockIn, fun n hn h => ?blockOut, fun h => ?inBuf, fun h => ?outBuf,
    fun h => ?reserved⟩
  case len => rw [hat h, locateNat_len (by omega)]; simp [State.readLocation, bytesBe]
  case outLen => rw [hat h, locateNat_outLen (by omega)]; simp [State.readLocation, bytesBe]
  case keyIn => rw [hat h, locateNat_keyIn (by omega)]; simp [State.readLocation]
  case blockIn => rw [hat h, locateNat_blockIn (by omega)]; simp [State.readLocation]
  case blockOut => rw [hat h, locateNat_blockOut (by omega)]; simp [State.readLocation]
  case inBuf => rw [readValue_inBuf s (by omega), if_pos h.2]; rfl
  case outBuf => rw [readValue_outBuf s (by omega), if_pos h.2]; rfl
  case reserved =>
    have hcases : (a.toNat = 6 ∨ a.toNat = 7 ∨ (0x0030 ≤ a.toNat ∧ a.toNat < 0x1000) ∨ 0x3000 ≤ a.toNat)
        ∨ (0x1000 + s.cfg.bufBytes ≤ a.toNat ∧ a.toNat < 0x2000)
        ∨ (0x2000 + s.cfg.bufBytes ≤ a.toNat ∧ a.toNat < 0x3000) := by omega
    rcases hcases with h | h | h
    · rw [State.readValue, locate, locateNat_reserved h]; rfl
    · rw [readValue_inBuf s (by omega), if_neg (by omega)]
    · rw [readValue_outBuf s (by omega), if_neg (by omega)]

/-- Settles O19: SEQ.OP decodes to an ECB command exactly from 0x04 to 0x07. -/
theorem ecbRunningMeansAnEcbOpcode : Obligations.EcbRunningMeansAnEcbOpcode := fun s =>
  (ecbRunning_iff s).trans (and_congr_right fun _ => decodes_ecb_iff s.seq.op)

end Sys2Proof.Machine
end

section
/-! SUPPORT. The opcode map (30_encoding.md R102, R103): obligations O5 and O6. -/

namespace Sys2Proof.Machine

theorem encode_lt (i : Instr) : (encode i).toNat < 8 := by cases i <;> decide

/-- The map has no gap below 0x08 (R102). -/
theorem exists_encode_of_lt {w : Byte} (h : w.toNat < 8) : ∃ i, encode i = w := by
  simp only [← BitVec.toNat_inj]
  interval_cases w.toNat
  exacts [⟨.nop, rfl⟩, ⟨.loadkey, rfl⟩, ⟨.encb, rfl⟩, ⟨.decb, rfl⟩, ⟨.ecbe, rfl⟩, ⟨.ecbd, rfl⟩, ⟨.pecbe, rfl⟩,
    ⟨.pecbd, rfl⟩]

theorem decode_ok_iff (w : Byte) (i : Instr) : decode w = .ok i ↔ encode i = w :=
  ⟨fun h => (eq_encode_of_decode h).symm, by rintro rfl; exact decode_encode i⟩

/-- A reserved byte is refused by name (R103). -/
theorem decode_of_ge {w : Byte} (h : 8 ≤ w.toNat) : decode w = .error (.reservedOpcode w) := by
  unfold decode
  split
  case h_9 => rfl
  all_goals omega

/-- Settles O5: below 0x08 every byte is an opcode, and `decode` inverts `encode`; from 0x08 on every byte is refused. -/
theorem opcodeMapIsExact : Obligations.OpcodeMapIsExact := by
  refine fun w => ⟨decode_ok_iff w, fun ⟨e, he⟩ => ?_, fun h => ⟨_, decode_of_ge h⟩⟩
  by_contra hlt
  obtain ⟨i, hi⟩ := exists_encode_of_lt (Nat.lt_of_not_le hlt)
  rw [(decode_ok_iff w i).mpr hi] at he
  cases he

/-- Settles O6: the first eight bytes are the opcodes of the table, the last three are reserved. -/
theorem opcodeWordsDecode : Obligations.OpcodeWordsDecode :=
  ⟨decode_encode .nop, decode_encode .loadkey, decode_encode .encb, decode_encode .decb, decode_encode .ecbe,
    decode_encode .ecbd, decode_encode .pecbe, decode_encode .pecbd, decode_of_ge (by decide), decode_of_ge (by decide),
    decode_of_ge (by decide)⟩

end Sys2Proof.Machine
end

section
/-! SUPPORT. The transactions of WR32 LEN and ACK, performed on the core as they are and as turns of a host (30_encoding.md
R110): obligation O60. -/

namespace Sys2Proof.Machine

/-- Writing the four bytes of `v` to LEN, first to last, leaves nothing of its old value (R31, R77). -/
theorem lenWithByte_all (l v : BitVec 32) :
    lenWithByte (lenWithByte (lenWithByte (lenWithByte l 0 (bytesBe v 4 0)) 1 (bytesBe v 4 1)) 2 (bytesBe v 4 2)) 3
      (bytesBe v 4 3) = v := by
  rw [eq_append_bytesBe (lenWithByte _ 3 _)]
  simp only [bytesBe_lenWithByte, Nat.reduceLT, Nat.reduceEqDiff, reduceIte]
  exact (eq_append_bytesBe v).symm

/-- The byte `v[lo+7:lo]` that WR32 takes of a host variable holding `v` is byte `k` of `v` (R14, R110). -/
theorem ofNat_shiftRight_eq_bytesBe (v : BitVec 32) (k : Nat) :
    BitVec.ofNat 8 (v.toNat >>> (8 * (3 - k))) = bytesBe v 4 k := rfl

/-- A write to one byte of LEN of an idle core, whatever LEN holds. -/
theorem perform_write_len {s : State} (hs : s.Ready) (hb : s.status.busy = false) (l : BitVec 32) {k : Nat} (hk : k < 4)
    (w : Byte) : State.perform (.write (Loc.addr (.elem .len k)) w) { s with len := l }
      = .next { s with len := lenWithByte l k w } := by
  have ht : ({ s with len := l } : State).Ready := ⟨hs.rstLow, hs.resetSeen⟩
  have hw := step_write ht (BitVec.ofNat 14 (0x0008 + k)) w
  rw [step_facing, locate_len hk] at hw
  exact hw.trans (congrArg _ (operandWrite_idle hb))

theorem performAll_singleton {e : Event} {s t : State} (h : s.perform e = .next t) : s.performAll [e] = .next t := by
  rw [State.performAll, h]; rfl

/-- A turn of a host at a WR statement whose byte is defined performs the write and moves the host on (R109). -/
theorem systemTurn_wr {h : HostRun} {s t : State} {l : Loc} {b : ByteSrc} {w : Byte} (hp : h.prog[h.pc]? = some (.wr l b))
    (hb : h.byteOf b = some w) (ht : s.perform (.write (Loc.addr l) w) = .next t) :
    systemTurn .host h s = .next ({ h with pc := h.pc + 1 }, t) := by
  simp [systemTurn, Turn.act, Turn.hostAfter, HostRun.txn, HostRun.after, Act.events, Txn.events, State.performAll, hp, hb,
    ht]

/-- Turn `k` of `WR32 LEN, x` writes byte `k` of the variable. -/
theorem systemTurn_wr32Len {h : HostRun} {s : State} {x : String} {v : BitVec 32} (hs : s.Ready)
    (hb : s.status.busy = false) (hp : h.prog = Stmt.expand 0 (.wr32Len (.var x)))
    (hx : h.lookup ⟨x, none⟩ = some v.toNat) (l : BitVec 32) {k : Nat} (hk : k < 4) :
    systemTurn .host { h with pc := k } { s with len := l }
      = .next ({ h with pc := k + 1 }, { s with len := lenWithByte l k (bytesBe v 4 k) }) := by
  have hstmt : h.prog[k]? = some (.wr (.elem .len k) (.slice ⟨x, none⟩ (8 * (3 - k)))) := by
    rw [hp, Stmt.expand, List.getElem?_map, List.getElem?_range hk]; rfl
  have hbyte : ({ h with pc := k } : HostRun).byteOf (.slice ⟨x, none⟩ (8 * (3 - k))) = some (bytesBe v 4 k) := by
    rw [← ofNat_shiftRight_eq_bytesBe]
    exact congrArg (Option.map _) hx
  exact systemTurn_wr hstmt hbyte (perform_write_len hs hb l hk _)

theorem performAll_wr32Len {s : State} (hs : s.Ready) (hb : s.status.busy = false) (v : BitVec 32) :
    s.performAll ((List.range 4).map fun k => .write (Loc.addr (.elem .len k)) (bytesBe v 4 k))
      = .next { s with len := v } := by
  have hwrite := fun l {k} (hk : k < 4) => perform_write_len hs hb l hk (bytesBe v 4 k)
  show State.performAll [_, _, _, _] { s with len := s.len } = _
  simp only [State.performAll, hwrite, Nat.reduceLT, lenWithByte_all]

theorem systemTurns_wr32Len {h : HostRun} {s : State} {x : String} {v : BitVec 32} (hs : s.Ready)
    (hb : s.status.busy = false) (hp : h.prog = Stmt.expand 0 (.wr32Len (.var x))) (hpc : h.pc = 0)
    (hx : h.lookup ⟨x, none⟩ = some v.toNat) :
    systemTurns [.host, .host, .host, .host] h s = .next ({ h with pc := 4 }, { s with len := v }) := by
  have hturn := fun l {k} (hk : k < 4) => systemTurn_wr32Len hs hb hp hx l hk
  have hh : h = { h with pc := 0 } := by rw [← hpc]
  rw [hh]
  show systemTurns _ _ { s with len := s.len } = _
  simp only [systemTurns, hturn, Nat.reduceLT, Nat.reduceAdd, lenWithByte_all]

/-- ACK is the STATUS write of 0x0E, which marks DONE, ERRF and OVR (R26). -/
theorem perform_ack {s : State} (hs : s.Ready) :
    s.perform (.write (Loc.addr (.reg .status)) 0x0E)
      = .next { s with status := { s.status with done := false, errf := false, ovr := false } } := by
  have hstatus : s.status.clearedBy 0x0E = { s.status with done := false, errf := false, ovr := false } := by
    simp [Status.clearedBy]
  have hw : s.perform (.write (Loc.addr (.reg .status)) 0x0E) = .next (s.clearSticky 0x0E) := step_write hs 0x0001 0x0E
  rw [hw, State.clearSticky, hstatus]

/-- Settles O60: four writes to LEN, issued from a literal or by a host from its variable, and one write to STATUS. -/
theorem pseudoInstructionsSetTheirRegisters : Obligations.PseudoInstructionsSetTheirRegisters := by
  intro s v hs
  refine ⟨fun hb => ?_, fun h x hb hp hpc hx => ?_, ?_⟩
  · exact performAll_wr32Len hs hb v
  · exact systemTurns_wr32Len hs hb hp hpc hx
  · exact performAll_singleton (perform_ack hs)

end Sys2Proof.Machine
end

section
/-! SUPPORT. The layers and the converters bit by bit and nibble by nibble (40_bit_layer.md R121 to R133): obligations O51,
O52 and O53. -/

namespace Sys2Proof.Machine

/-! ## Each layer undoes its inverse -/

@[simp] theorem inverseSubstitute_substitute (x : Block) : inverseSubstitute (substitute x) = x :=
  eq_of_nib_eq fun n hn => by rw [nib_inverseSubstitute _ n hn, nib_substitute x n hn, sboxInv_sbox]

@[simp] theorem substitute_inverseSubstitute (x : Block) : substitute (inverseSubstitute x) = x :=
  eq_of_nib_eq fun n hn => by rw [nib_substitute _ n hn, nib_inverseSubstitute x n hn, sbox_sboxInv]

@[simp] theorem inversePermute_permute (x : Block) : inversePermute (permute x) = x :=
  BitVec.eq_of_getLsbD_eq fun i hi => by
    rw [getLsbD_inversePermute _ i hi, getLsbD_permute x _ (pTable_lt i hi), pInvTable_pTable i hi]

@[simp] theorem permute_inversePermute (x : Block) : permute (inversePermute x) = x :=
  BitVec.eq_of_getLsbD_eq fun j hj => by
    rw [getLsbD_permute _ j hj, getLsbD_inversePermute x _ (pInvTable_lt j hj), pTable_pInvTable j hj]

@[simp] theorem whiten_whiten (x k : Block) : whiten (whiten x k) k = x := by simp [whiten]

/-- Bit `i` comes back from byte `7 - i / 8`, where R130 has put it. -/
@[simp] theorem bytesToState_stateToBytes (x : Block) : bytesToState (stateToBytes x) = x := by
  apply BitVec.eq_of_getLsbD_eq
  intro i hi
  have hpos : 8 * (8 - 1 - (7 - i / 8)) + i % 8 = i := by omega
  have hbit : i % 8 < 8 := by omega
  rw [getLsbD_bytesToState _ i hi, stateToBytes_getElem, getLsbD_bytesBe, hpos]
  simp [hbit]

/-- Byte `t` comes back from bits `8(7-t) + 7` to `8(7-t)`, where R129 has put it. -/
@[simp] theorem stateToBytes_bytesToState (b : Vector Byte 8) : stateToBytes (bytesToState b) = b := by
  apply Vector.ext
  intro t ht
  apply BitVec.eq_of_getLsbD_eq
  intro i hi
  have hbyte : 7 - (8 * (8 - 1 - t) + i) / 8 = t := by omega
  have hbit : (8 * (8 - 1 - t) + i) % 8 = i := by omega
  rw [stateToBytes_getElem _ t ht, getLsbD_bytesBe, getLsbD_bytesToState b _ (by omega)]
  simp only [hbyte, hbit, hi, decide_true, Bool.true_and]

/-- Settles O51: the S-layer by lanes through its two tables, the P-layer by bits through `pTable` and `pInvTable`, the
converters by the place of each bit. -/
theorem layersHaveInverses : Obligations.LayersHaveInverses :=
  ⟨fun x => ⟨inverseSubstitute_substitute x, substitute_inverseSubstitute x, inversePermute_permute x,
    permute_inversePermute x, bytesToState_stateToBytes x⟩, whiten_whiten, stateToBytes_bytesToState⟩

/-! ## The P table -/

/-- The closed form of R124: a quarter of the word by `i mod 4`, the place within it by `i / 4`. -/
theorem pTable_eq {i : Nat} (h : i < 64) : pTable i = 16 * (i % 4) + i / 4 := by
  unfold pTable; split <;> omega

/-- Bit `u` of nibble `m` goes to bit `m` of quarter `u` (R132). -/
theorem pTable_nibbleBit {m u : Nat} (hm : m < 16) (hu : u < 4) : pTable (4 * m + u) = 16 * u + m := by
  rw [pTable_eq (by omega)]; omega

/-- The table read from the other end of the word is the same table (R133). -/
theorem pTable_mirror {i : Nat} (h : i < 64) : 63 - pTable (63 - i) = pTable i := by
  rw [pTable_eq h, pTable_eq (by omega)]; omega

/-! ## The P-layer by nibbles -/

/-- `y[P[i]] = x[i]`, the rule of R125 itself. -/
theorem getLsbD_permute_pTable (x : Block) {i : Nat} (h : i < 64) :
    (permute x).getLsbD (pTable i) = x.getLsbD i := by
  rw [getLsbD_permute x _ (pTable_lt i h), pInvTable_pTable i h]

/-- Output nibble `m` gathers bit `m / 4` of four neighbouring input nibbles (R132). -/
theorem getLsbD_nib_permute (x : Block) {m u : Nat} (hm : m < 16) (hu : u < 4) :
    (nib (permute x) m).getLsbD u = (nib x (4 * (m % 4) + u)).getLsbD (m / 4) := by
  have hsource : pInvTable (4 * m + u) = 4 * (4 * (m % 4) + u) + m / 4 := by unfold pInvTable; omega
  have hbit : m / 4 < 4 := by omega
  rw [getLsbD_nib, getLsbD_nib, getLsbD_permute x _ (by omega), hsource]
  simp [hu, hbit]

/-- Bit `u` of input nibble `m` lands at position `16 u + m` (R132). -/
theorem getLsbD_permute_nibbleBit (x : Block) {m u : Nat} (hm : m < 16) (hu : u < 4) :
    (permute x).getLsbD (16 * u + m) = (nib x m).getLsbD u := by
  rw [← pTable_nibbleBit hm hu, getLsbD_permute_pTable x (by omega), getLsbD_nib]
  simp [hu]

/-- Settles O52: the S-layer is one table in every lane, the P-layer is followed bit by bit in both directions. -/
theorem layersActOnNibbles : Obligations.LayersActOnNibbles := fun x m hm =>
  ⟨nib_substitute x m hm, nib_inverseSubstitute x m hm, fun _ hu =>
    ⟨pTable_nibbleBit hm hu, getLsbD_nib_permute x hm hu, getLsbD_permute_nibbleBit x hm hu⟩⟩

/-- Every output bit is one input bit, so XOR passes through (R125). -/
theorem permute_xor (a b : Block) : permute (a ^^^ b) = permute a ^^^ permute b :=
  BitVec.eq_of_getLsbD_eq fun j hj => by
    simp only [BitVec.getLsbD_xor, getLsbD_permute _ j hj]

/-- Settles O53: linearity bit by bit, the symmetry and the closed form from the table's arithmetic. -/
theorem permuteIsLinearAndSymmetric : Obligations.PermuteIsLinearAndSymmetric :=
  ⟨permute_xor, fun _ hi => ⟨pTable_mirror hi, pTable_eq hi⟩⟩

end Sys2Proof.Machine
end

section
/-! SUPPORT. Where a completion ends and what it leaves as it was, whatever its result (44_control.md R193, R167). -/

namespace Sys2Proof.Machine

theorem completed_complete (r : Result) (s : State) : (s.complete r).Completed where
  phase := by simp
  stage := by simp
  released := by
    intro e he
    rw [State.complete_engines, List.mem_map] at he
    obtain ⟨_, _, rfl⟩ := he
    rfl

theorem commandFrame_complete (r : Result) (s : State) : s.CommandFrame (s.complete r) where
  cfg := State.complete_cfg r s
  ovr := by rw [State.complete_status, statusAfter_ovr]
  ie := State.complete_ie r s
  keylen := State.complete_keylen r s
  variant := State.complete_variant r s
  len := State.complete_len r s
  keyIn := State.complete_keyIn r s
  blockIn := State.complete_blockIn r s
  op := by rw [State.complete_seq]
  rst := State.complete_rst r s
  rdata := State.complete_rdata r s
  resetSeen := State.complete_resetSeen r s
  agenda := State.complete_agenda r s

end Sys2Proof.Machine
end

section
/-! SUPPORT. The key operand and the key register (41_key_schedule.md R141 to R150): obligations O24, O54, O55 and O56. -/

namespace Sys2Proof.Machine

/-! ## The key operand (R105, R141) -/

/-- Byte `m` of `be(b)`, least significant first, is the byte that lies `m` bytes from the end (R14). -/
theorem extractLsb'_be {w m : Nat} (bs : List Byte) (hm : 8 * m + 8 ≤ w) :
    (be w bs).extractLsb' (8 * m) 8 = bs.reverse.getD m 0 := by
  apply BitVec.eq_of_getLsbD_eq
  intro i hi
  have hbyte : (8 * m + i) / 8 = m := by omega
  have hbit : (8 * m + i) % 8 = i := by omega
  have hw : 8 * m + i < w := by omega
  simp only [BitVec.getLsbD_extractLsb', getLsbD_be, hbyte, hbit, hi, hw, decide_true, Bool.true_and]

theorem keyOperandBytes_length (kin : Vector Byte 16) (n : Nat) : (keyOperandBytes kin n).length = 10 := by
  simp [keyOperandBytes]

theorem keyOperandBytes_getElem (kin : Vector Byte 16) (len : Nat) {n : Nat} (hn : n < 10) :
    (keyOperandBytes kin len)[n]'(by rw [keyOperandBytes_length]; exact hn) =
      if n < min len 10 then kin[n] else 0x00 := by
  simp [keyOperandBytes, show n < 16 by omega]

/-- Byte `n` of the key, most significant first, is the key byte of index `n` (R141). -/
theorem extractLsb'_be_keyOperandBytes (kin : Vector Byte 16) (len : Nat) {n : Nat} (hn : n < 10) :
    (be 80 (keyOperandBytes kin len)).extractLsb' (8 * (9 - n)) 8 = if n < min len 10 then kin[n] else 0x00 := by
  have hlen := keyOperandBytes_length kin len
  have hrev : 9 - n < (keyOperandBytes kin len).reverse.length := by rw [List.length_reverse, hlen]; omega
  have hidx : (keyOperandBytes kin len).length - 1 - (9 - n) = n := by omega
  rw [extractLsb'_be _ (by omega), List.getD_eq_getElem _ _ hrev, List.getElem_reverse]
  simp only [hidx]
  exact keyOperandBytes_getElem kin len hn

/-- Neither the variant nor the byte count is refused: the key bytes are the key. -/
theorem keyOperand_ok {s : State} (hv : s.variant = false) (hp : s.cfg.keyPolicy = .padTruncate ∨ s.keylen = 10) :
    s.keyOperand = .ok (be 80 (keyOperandBytes s.keyIn s.keylen.toNat)) := by
  have hcount : ¬(s.cfg.keyPolicy = .strict ∧ s.keylen.toNat ≠ keyBytes) := by
    rcases hp with hp | hp <;> simp [hp]
  rw [State.keyOperand, keyFromBytes, hv, if_neg (by decide), if_neg hcount]

theorem exec_loadkey_ok {s : State} {k : Key} (h : s.keyOperand = .ok k) :
    exec .loadkey s = .next (s.complete (.key k)) := by
  rw [exec_eq]
  simp only [State.check, State.checkLoadkey, State.committed, h]

/-- Settles O24: the policy takes the operand, and LOADKEY completes with it. -/
theorem loadkeyBuildsKey : Obligations.LoadkeyBuildsKey := by
  intro s hv hp
  have hexec := exec_loadkey_ok (keyOperand_ok hv hp)
  exact ⟨_, hexec, completed_complete _ s, commandFrame_complete _ s,
    fun _ hn => extractLsb'_be_keyOperandBytes s.keyIn _ hn, rfl, rfl, rfl, rfl, rfl⟩

/-! ## The update of the key register (R144 to R147) -/

/-- The rotation brings bits 18..15 to the top. -/
theorem extractLsb'_rotateKr_top (kr : Key) : (rotateKr kr).extractLsb' 76 4 = kr.extractLsb' 15 4 := by
  apply BitVec.eq_of_getLsbD_eq
  intro i hi
  have hsource : (76 + i + 19) % 80 = 15 + i := by omega
  rw [BitVec.getLsbD_extractLsb', BitVec.getLsbD_extractLsb', getLsbD_rotateKr kr _ (by omega), hsource]

/-- The places of the S-box and of the counter do not overlap, so each bit is changed by one of the steps at most. -/
theorem getLsbD_advance (kr : Key) (rc : BitVec 5) {i : Nat} (hi : i < 80) :
    (advance kr rc).getLsbD i =
      if 76 ≤ i then (sbox (kr.extractLsb' 15 4)).getLsbD (i - 76)
      else if 15 ≤ i ∧ i ≤ 19 then kr.getLsbD (i + 19) ^^ rc.getLsbD (i - 15)
      else kr.getLsbD ((i + 19) % 80) := by
  rw [advance, getLsbD_mixCounter _ rc i hi, getLsbD_substituteTop _ i hi, getLsbD_rotateKr kr i hi,
    extractLsb'_rotateKr_top]
  by_cases htop : 76 ≤ i
  · rw [if_neg (by omega), if_pos htop, if_pos htop]
  · by_cases hcounter : 15 ≤ i ∧ i ≤ 19
    · have hsource : (i + 19) % 80 = i + 19 := by omega
      rw [if_pos (by omega), if_neg htop, if_neg htop, if_pos hcounter, hsource]
    · rw [if_neg (by omega), if_neg htop, if_neg htop, if_neg hcounter]

/-- Settles O54: each step has its lemma, and `getLsbD_advance` runs the three in order. -/
theorem advanceStepsBitByBit : Obligations.AdvanceStepsBitByBit := by
  intro kr rc i hi
  refine ⟨getLsbD_rotateKr kr i hi, getLsbD_substituteTop kr i hi, ?_, rfl, getLsbD_advance kr rc hi⟩
  rw [getLsbD_mixCounter kr rc i hi]
  simp only [Nat.lt_succ_iff]

/-! ## The round keys (R148, R149) -/

theorem roundKeysFrom_length (kr : Key) (r n : Nat) : (roundKeysFrom kr r n).length = n := by
  induction n generalizing kr r with
  | zero => rfl
  | succ n ih => rw [roundKeysFrom, List.length_cons, ih]

theorem roundKeyList_getElem? (k : Key) {r : Nat} (hr : r < 32) :
    (roundKeyList k)[r]? = some (roundKey (krAt k r)) :=
  (roundKeysFrom_getElem? k 0 32 r hr).trans (by rw [Nat.zero_add])

/-- Settles O55: the list is generated from the key on, and the loop of R160 advances the same register. -/
theorem roundKeysFollowAdvance : Obligations.RoundKeysFollowAdvance := fun k =>
  ⟨roundKeysFrom_length k 1 32, rfl, fun _ => rfl, fun _ hr => roundKeyList_getElem? k hr,
    fun x n => encryptRounds_snd x k n⟩

/-! ## The two words (R150) -/

/-- A slice within a slice is the slice counted from the bottom of the whole. -/
theorem extractLsb'_extractLsb' {w lo len start n : Nat} (x : BitVec w) (h : start + n ≤ len) :
    (x.extractLsb' lo len).extractLsb' start n = x.extractLsb' (lo + start) n := by
  apply BitVec.eq_of_getLsbD_eq
  intro i hi
  have hlen : start + i < len := by omega
  simp [BitVec.getLsbD_extractLsb', hlen, Nat.add_assoc]

theorem extractLsb'_krWordB_low (kr : Key) : (krWordB kr).extractLsb' 0 48 = 0 := BitVec.extractLsb'_append_eq_right

theorem krOfWords_krWords (kr : Key) : krOfWords (krWordA kr) (krWordB kr) = kr := by
  have hb : (krWordB kr).extractLsb' 48 16 = kr.extractLsb' 0 16 := BitVec.extractLsb'_append_eq_left
  rw [krOfWords, hb]
  exact BitVec.extractLsb'_append_extractLsb'

/-- The counter field is bits 19..16 of the register, held in the word `a`, and bit 15, the top bit of the word `b`. -/
theorem counterField_eq_append (kr : Key) : kr.extractLsb' 15 5
    = ((krWordA kr).extractLsb' 0 4 ++ (krWordB kr).extractLsb' 63 1 : BitVec 5) := by
  have ha : (krWordA kr).extractLsb' 0 4 = kr.extractLsb' 16 4 := extractLsb'_extractLsb' kr (by decide)
  have hb : (krWordB kr).extractLsb' 63 1 = kr.extractLsb' 15 1 :=
    (BitVec.extractLsb'_append_eq_of_le (by decide)).trans (extractLsb'_extractLsb' kr (by decide))
  have hadjacent : 16 = 15 + 1 := rfl
  rw [ha, hb, BitVec.extractLsb'_append_extractLsb'_eq_extractLsb' hadjacent]

/-- Settles O56: the low word by its two halves, the register and the counter field by where their bits are held. -/
theorem twoWordsHoldKeyRegister : Obligations.TwoWordsHoldKeyRegister := fun kr =>
  ⟨krOfWords_krWords kr, extractLsb'_krWordB_low kr, counterField_eq_append kr, rfl⟩

end Sys2Proof.Machine
end

section
/-! SUPPORT. Decryption runs the rounds of encryption backwards, with the same round keys (42_block_cipher.md R160 to R162):
obligation O57. -/

namespace Sys2Proof.Machine

/-! ## One round of each direction, with its round key `KR_n[79:16]` (R149) -/

theorem encryptRounds_fst_succ (x : Block) (k : Key) (n : Nat) :
    (encryptRounds x k (n + 1)).1 = permute (substitute (whiten (encryptRounds x k n).1 (roundKey (krAt k n)))) := by
  rw [encryptRounds, encryptRounds_snd]

theorem decryptRounds_succ (y : Block) (k : Key) {n : Nat} (h : n < 32) :
    decryptRounds (roundKeyList k) (n + 1) y
      = decryptRounds (roundKeyList k) n (whiten (inverseSubstitute (inversePermute y)) (roundKey (krAt k n))) := by
  rw [decryptRounds, roundKeyList_getD k n h]

theorem encrypt_eq (x : Block) (k : Key) :
    encrypt x k = whiten (encryptRounds x k fullRounds).1 (roundKey (krAt k fullRounds)) := by
  simp only [encrypt, encryptRounds_snd]

theorem decrypt_eq (y : Block) (k : Key) :
    decrypt y k = decryptRounds (roundKeyList k) fullRounds (whiten y (roundKey (krAt k fullRounds))) := by
  simp only [decrypt, roundKeyList_getD k fullRounds (by decide)]

/-! ## The loops undo each other -/

/-- The first inverse round undoes the last round, and the rest follows by induction. -/
theorem decryptRounds_encryptRounds (x : Block) (k : Key) {n : Nat} (h : n ≤ 32) :
    decryptRounds (roundKeyList k) n (encryptRounds x k n).1 = x := by
  induction n with
  | zero => rfl
  | succ n ih =>
    rw [decryptRounds_succ _ k h, encryptRounds_fst_succ, inversePermute_permute, inverseSubstitute_substitute,
      whiten_whiten]
    exact ih (Nat.le_of_succ_le h)

/-- The first rounds undo all inverse rounds but the first, for any block those begin with; the last round undoes that
one. -/
theorem encryptRounds_decryptRounds (y : Block) (k : Key) {n : Nat} (h : n ≤ 32) :
    (encryptRounds (decryptRounds (roundKeyList k) n y) k n).1 = y := by
  induction n generalizing y with
  | zero => rfl
  | succ n ih =>
    rw [encryptRounds_fst_succ, decryptRounds_succ y k h, ih _ (Nat.le_of_succ_le h), whiten_whiten,
      substitute_inverseSubstitute, permute_inversePermute]

/-! ## The block functions -/

theorem decrypt_encrypt (x : Block) (k : Key) : decrypt (encrypt x k) k = x := by
  rw [decrypt_eq, encrypt_eq, whiten_whiten, decryptRounds_encryptRounds x k (by decide)]

theorem encrypt_decrypt (y : Block) (k : Key) : encrypt (decrypt y k) k = y := by
  rw [encrypt_eq, decrypt_eq, encryptRounds_decryptRounds _ k (by decide), whiten_whiten]

/-- Settles O57: the two whitenings with round key 31 cancel, and the loops undo each other round by round. -/
theorem decryptInvertsEncrypt : Obligations.DecryptInvertsEncrypt := fun x k =>
  ⟨decrypt_encrypt x k, encrypt_decrypt x k⟩

end Sys2Proof.Machine
end

section
/-! SUPPORT. ENCB and DECB with a key, as one command with a direction (42_block_cipher.md R163, R164): obligations O27, O28
and O29. -/

namespace Sys2Proof.Machine

/-- The single-block command of a direction: ENCB encrypts (R163), DECB decrypts (R164). -/
def Direction.blockInstr : Direction → Instr
  | .enc => .encb
  | .dec => .decb

def Direction.opposite : Direction → Direction
  | .enc => .dec
  | .dec => .enc

theorem blockCipher_opposite (d : Direction) (x : Block) (k : Key) :
    blockCipher d.opposite (blockCipher d x k) k = x := by
  cases d with
  | enc => exact decrypt_encrypt x k
  | dec => exact encrypt_decrypt x k

theorem checkBlock_keyed {s : State} (hk : s.status.keyv = true) : s.checkBlock = none := by
  rw [State.checkBlock, if_pos hk]

/-- With a key the only check of a block command passes, and it completes with its block function of BLOCK_IN. -/
theorem exec_blockInstr (d : Direction) {s : State} (hk : s.status.keyv = true) :
    exec d.blockInstr s = .next (s.complete (.block (stateToBytes (blockCipher d (bytesToState s.blockIn) s.key)))) := by
  rw [exec_eq]
  cases d with
  | enc => simp only [Direction.blockInstr, State.check, checkBlock_keyed hk]; rfl
  | dec => simp only [Direction.blockInstr, State.check, checkBlock_keyed hk]; rfl

theorem blockInstr_writesResult (d : Direction) (s : State) (hk : s.status.keyv = true) :
    ∃ t, exec d.blockInstr s = .next t ∧ t.Completed ∧ s.CommandFrame t
      ∧ t.blockOut = stateToBytes (blockCipher d (bytesToState s.blockIn) s.key)
      ∧ t.status = { s.status with busy := false, done := true } ∧ t.err = 0x00
      ∧ t.key = s.key ∧ t.outLen = s.outLen ∧ t.mem = s.mem :=
  ⟨_, exec_blockInstr d hk, completed_complete _ s, commandFrame_complete _ s, rfl, rfl, rfl, rfl, rfl, rfl⟩

/-- The first command keeps KEYV and KEY, so the second undoes it under the same key. -/
theorem blockInstr_roundTrip (d : Direction) (s : State) (hk : s.status.keyv = true) :
    ∃ t u, exec d.blockInstr s = .next t
      ∧ exec d.opposite.blockInstr { t with blockIn := t.blockOut } = .next u ∧ u.blockOut = s.blockIn := by
  obtain ⟨t, hfirst, -, -, hout, hstatus, -, hkey, -⟩ := blockInstr_writesResult d s hk
  have hkt : t.status.keyv = true := by rw [hstatus]; exact hk
  obtain ⟨u, hsecond, -, -, hback, -⟩ :=
    blockInstr_writesResult d.opposite { t with blockIn := t.blockOut } hkt
  refine ⟨t, u, hfirst, hsecond, ?_⟩
  rw [hback]
  simp only [hout, hkey, bytesToState_stateToBytes, blockCipher_opposite, stateToBytes_bytesToState]

/-- Settles O27: ENCB is the block command that encrypts. -/
theorem encbWritesCiphertext : Obligations.EncbWritesCiphertext := blockInstr_writesResult .enc

/-- Settles O28: DECB is the block command that decrypts. -/
theorem decbWritesPlaintext : Obligations.DecbWritesPlaintext := blockInstr_writesResult .dec

/-- Settles O29: either block command is undone by the other, through BLOCK_OUT and BLOCK_IN. -/
theorem encbThenDecbRestoresBlock : Obligations.EncbThenDecbRestoresBlock := fun s hk =>
  ⟨blockInstr_roundTrip .enc s hk, blockInstr_roundTrip .dec s hk⟩

end Sys2Proof.Machine
end

section
/-! SUPPORT. Padding and chunking (43_ecb.md R170 to R172), and the blocks of the message that the mapper reads (R173, R174,
R184): obligations O59 and O34. -/

namespace Sys2Proof.Machine

/-! ## The padded length (R170) -/

theorem padLen_least {n m : Nat} (hm : m % 8 = 0) (h : n ≤ m) : padLen n ≤ m := by
  rw [padLen_eq]; omega

/-- Rounding down to a multiple of 8 clears the low three bits. -/
theorem ofNat_eight_mul_div (w m : Nat) : BitVec.ofNat w (8 * (m / 8)) = BitVec.ofNat w m &&& ~~~BitVec.ofNat w 7 := by
  apply BitVec.eq_of_getLsbD_eq
  intro i hi
  have hseven : Nat.testBit 7 i = decide (i < 3) := Nat.testBit_two_pow_sub_one 3 i
  have hround : Nat.testBit (8 * (m / 8)) i = (decide (3 ≤ i) && m.testBit i) := by
    rw [show 8 * (m / 8) = 2 ^ 3 * (m / 2 ^ 3) from rfl, Nat.testBit_two_pow_mul, Nat.testBit_div_two_pow]
    by_cases h : 3 ≤ i
    · rw [Nat.sub_add_cancel h]
    · simp [h]
  simp only [BitVec.getLsbD_and, BitVec.getLsbD_not, BitVec.getLsbD_ofNat, hi, hseven, hround, decide_true, Bool.true_and,
    ← decide_not, Nat.not_lt]
  rw [Bool.and_comm]

theorem ofNat_padLen (n : Nat) : BitVec.ofNat 32 (padLen n) = (BitVec.ofNat 32 n + 7) &&& ~~~(7 : BitVec 32) := by
  rw [padLen_eq, ofNat_eight_mul_div, BitVec.ofNat_add]; rfl

/-! ## Padding (R171) -/

theorem pad_length (d : List Byte) : (pad d).length = padLen d.length := by
  have := le_padLen d.length
  simp only [pad, List.length_append, List.length_replicate]; omega

theorem pad_of_mod {d : List Byte} (h : d.length % 8 = 0) : pad d = d := by
  simp [pad, padLen_of_mod h]

theorem pad_getElem?_lt {d : List Byte} {k : Nat} (h : k < d.length) : (pad d)[k]? = d[k]? :=
  List.getElem?_append_left h

theorem pad_getElem?_ge {d : List Byte} {k : Nat} (h : d.length ≤ k) (hk : k < padLen d.length) :
    (pad d)[k]? = some 0x00 := by
  rw [pad, List.getElem?_append_right h, List.getElem?_replicate, if_pos (by omega)]

/-- Settles O59: the padded length is the length rounded up to a multiple of 8, which on 32 bits is a mask, and a padded
message is as long as it needs to be. -/
theorem paddingLaws : Obligations.PaddingLaws := by
  refine ⟨fun n => ⟨padLen_mod n, le_padLen n, fun m hm h => padLen_least hm h⟩, fun n _ => ofNat_padLen n,
    fun c n h => padLen_le h, fun d => ?_⟩
  have hwhole : (pad d).length % 8 = 0 := by rw [pad_length]; exact padLen_mod _
  exact ⟨pad_of_mod hwhole, pad_length d, List.take_left, fun k h hk => pad_getElem?_ge h hk⟩

/-! ## Chunks (R172) -/

theorem chunk_getElem? {d : List Byte} {j : Nat} (h : j < d.length / 8) :
    (chunk d)[j]? = some ((d.drop (8 * j)).take 8) := by
  rw [chunk, List.getElem?_map, List.getElem?_range h]; rfl

/-- Byte `k` of a concatenation of blocks is byte `k mod 8` of block `k / 8`. -/
theorem flatMap_block_getElem? {α : Type} (f : α → Vector Byte 8) (l : List α) (k : Nat) :
    (l.flatMap fun a => (f a).toList)[k]? = l[k / 8]?.bind fun a => (f a).toList[k % 8]? := by
  induction l generalizing k with
  | nil => rfl
  | cons a l ih =>
    rw [List.flatMap_cons]
    by_cases h : k < 8
    · rw [List.getElem?_append_left (by simpa using h), Nat.div_eq_of_lt h, Nat.mod_eq_of_lt h]; rfl
    · have hdiv : k / 8 = (k - 8) / 8 + 1 := by omega
      have hmod : (k - 8) % 8 = k % 8 := by omega
      rw [List.getElem?_append_right (by simpa using h), Vector.length_toList, ih, hdiv, hmod, List.getElem?_cons_succ]

/-! ## The blocks of the message (R173, R174) -/

@[simp] theorem messageBlock_getElem (s : State) (draw j : Nat) {n : Nat} (h : n < 8) :
    (s.messageBlock draw j)[n] = s.messageByte draw j n := by
  simp [State.messageBlock]

theorem messageByte_lt {s : State} {j n : Nat} (h : 8 * j + n < s.len.toNat) (draw : Nat) :
    s.messageByte draw j n = s.bufByte draw (inBase + (8 * j + n)) := if_pos h

theorem messageByte_ge {s : State} {j n : Nat} (h : s.len.toNat ≤ 8 * j + n) (draw : Nat) :
    s.messageByte draw j n = 0x00 := if_neg (Nat.not_lt.mpr h)

theorem messageByte_written {s : State} {j n : Nat} {b : Byte} (h : 8 * j + n < s.len.toNat)
    (hb : Memory.get? s.mem (inBase + (8 * j + n)) = some b) (draw : Nat) : s.messageByte draw j n = b := by
  rw [messageByte_lt h, State.bufByte, hb]; rfl

/-- Settles O34: a byte below LEN is read from IN_BUF, one from LEN on is the core's zero, and a written block never takes
a free value. -/
theorem messageBlockIsPaddedInput : Obligations.MessageBlockIsPaddedInput := fun s j =>
  ⟨fun draw n hn =>
    ⟨fun h => by rw [messageBlock_getElem _ _ _ hn, messageByte_lt h]; rfl,
      fun h => by rw [messageBlock_getElem _ _ _ hn, messageByte_ge h]⟩,
    blockWritten_iff s j, messageBlock_written⟩

/-- Blocks of two messages, or of two draws, are equal when their bytes are. -/
theorem messageBlock_congr {s s' : State} {draw draw' j j' : Nat}
    (h : ∀ n, n < 8 → s.messageByte draw j n = s'.messageByte draw' j' n) :
    s.messageBlock draw j = s'.messageBlock draw' j' := by
  apply Vector.ext
  intro n hn
  rw [messageBlock_getElem _ _ _ hn, messageBlock_getElem _ _ _ hn, h n hn]

end Sys2Proof.Machine
end

section
/-! SUPPORT. The four ECB commands as one command with a mapper and a direction (43_ecb.md R175 to R185): obligations O30 to
O33, O36, O37 and O38. -/

namespace Sys2Proof.Machine

/-! ## Mappers and directions -/

/-- The ECB command of a mapper and a direction (R175 to R178). -/
def Mapper.ecbInstr : Mapper → Direction → Instr
  | .sequential, .enc => .ecbe
  | .sequential, .dec => .ecbd
  | .parallel, .enc => .pecbe
  | .parallel, .dec => .pecbd

/-- The order in which the merged step of a mapper's commands writes the blocks (R179, R180). -/
def Mapper.order : Mapper → State → List Nat
  | .sequential, s => s.sequentialOrder
  | .parallel, s => s.parallelOrder

theorem exists_ecbInstr {i : Instr} (he : isEcb i = true) : ∃ m d, i = Mapper.ecbInstr m d := by
  rcases isEcb_cases he with rfl | rfl | rfl | rfl
  · exact ⟨.sequential, .enc, rfl⟩
  · exact ⟨.sequential, .dec, rfl⟩
  · exact ⟨.parallel, .enc, rfl⟩
  · exact ⟨.parallel, .dec, rfl⟩

theorem exists_ecbInstr_enc {i : Instr} (h : i ∈ [Instr.ecbe, .pecbe]) : ∃ m, i = Mapper.ecbInstr m .enc := by
  rcases List.mem_pair.mp h with rfl | rfl
  · exact ⟨.sequential, rfl⟩
  · exact ⟨.parallel, rfl⟩

theorem exists_ecbInstr_dec {i : Instr} (h : i ∈ [Instr.ecbd, .pecbd]) : ∃ m, i = Mapper.ecbInstr m .dec := by
  rcases List.mem_pair.mp h with rfl | rfl
  · exact ⟨.sequential, rfl⟩
  · exact ⟨.parallel, rfl⟩

theorem mem_order (m : Mapper) (s : State) (j : Nat) : j ∈ m.order s ↔ j < s.blockCount := by
  cases m with
  | sequential => exact mem_sequentialOrder s j
  | parallel => exact mem_parallelOrder s j

theorem lt_blockCount_iff (s : State) (j : Nat) : j < s.blockCount ↔ 8 * j < s.len.toNat := by
  rw [blockCount_eq]; omega

theorem committed_ecbInstr (m : Mapper) (d : Direction) (s : State) :
    s.committed (m.ecbInstr d) = (s.runMapper d (m.order s)).complete (.length (s.ecbLength (m.ecbInstr d))) := by
  cases m <;> cases d <;> rfl

/-! ## The checks (R204 to R206) -/

theorem ecbFits_enc (m : Mapper) {s : State} (hfit : s.len.toNat ≤ s.cfg.bufBytes) : s.EcbFits (m.ecbInstr .enc) :=
  ⟨hfit, by cases m <;> simp [Mapper.ecbInstr]⟩

theorem ecbFits_dec (m : Mapper) {s : State} (hfit : s.len.toNat ≤ s.cfg.bufBytes) (hmod : s.len.toNat % 8 = 0) :
    s.EcbFits (m.ecbInstr .dec) := ⟨hfit, fun _ => hmod⟩

theorem checkEcbEncrypt_passes {s : State} (hk : s.status.keyv = true) (hfit : s.len.toNat ≤ s.cfg.bufBytes) :
    s.checkEcbEncrypt = none := by
  rw [State.checkEcbEncrypt, if_neg (by simp [hk]), if_neg (Nat.not_lt.mpr hfit)]

theorem checkEcbDecrypt_passes {s : State} (hk : s.status.keyv = true) (hfit : s.len.toNat ≤ s.cfg.bufBytes)
    (hmod : s.len.toNat % 8 = 0) : s.checkEcbDecrypt = none := by
  rw [State.checkEcbDecrypt, if_neg (by simp [hk]), if_neg (Nat.not_lt.mpr hfit), if_neg (not_not.mpr hmod)]

theorem check_ecbInstr_passes (m : Mapper) (d : Direction) {s : State} (hk : s.status.keyv = true)
    (hf : s.EcbFits (m.ecbInstr d)) : s.check (m.ecbInstr d) = none := by
  obtain ⟨hfit, hmod⟩ := hf
  cases d with
  | enc => cases m <;> exact checkEcbEncrypt_passes hk hfit
  | dec =>
    cases m with
    | sequential => exact checkEcbDecrypt_passes hk hfit (hmod (.inl rfl))
    | parallel => exact checkEcbDecrypt_passes hk hfit (hmod (.inr rfl))

theorem exec_ecbInstr (m : Mapper) (d : Direction) {s : State} (hk : s.status.keyv = true)
    (hf : s.EcbFits (m.ecbInstr d)) : exec (m.ecbInstr d) s =
      .next ((s.runMapper d (m.order s)).complete (.length (s.ecbLength (m.ecbInstr d)))) := by
  rw [exec_eq, check_ecbInstr_passes m d hk hf, committed_ecbInstr]

/-- OUT_LEN of an ECB command whose checks pass is the length of its blocks (R183). -/
theorem ecbLength_toNat {m : Mapper} {d : Direction} {s : State} (hf : s.EcbFits (m.ecbInstr d)) :
    (s.ecbLength (m.ecbInstr d)).toNat = 8 * s.blockCount := by
  obtain ⟨hfit, hmod⟩ := hf
  rw [blockCount_eq]
  cases d with
  | enc =>
    have henc : (s.ecbLength (m.ecbInstr .enc)).toNat = padLen s.len.toNat := by
      cases m <;> exact encryptLength_toNat hfit
    exact henc.trans (padLen_eq _)
  | dec =>
    have hdec : s.ecbLength (m.ecbInstr .dec) = s.len := by cases m <;> rfl
    have hwhole : s.len.toNat % 8 = 0 := hmod (by cases m <;> simp [Mapper.ecbInstr])
    rw [hdec]; omega

/-! ## What the mapper writes (R181) -/

theorem resultBlock_written {s : State} {j : Nat} (h : s.blockWritten j = true) (d : Direction) (draw : Nat) :
    s.resultBlock d j = stateToBytes (blockCipher d (bytesToState (s.messageBlock draw j)) s.key) := by
  rw [State.resultBlock, outputBlock_written h, messageBlock_written h _ draw]

theorem resultBlock_unwritten {s : State} {j : Nat} (h : s.blockWritten j = false) (d : Direction) :
    s.resultBlock d j = freeBlock (s.draws + 2 * j + 1) j := outputBlock_unwritten h _ _

theorem outBlockIs_of_mapBlocks {s t : State} {d : Direction} {order : List Nat} (hmem : t.mem = s.mapBlocks d order)
    {j : Nat} (hj : j ∈ order) : t.OutBlockIs j (s.resultBlock d j) := by
  intro n hn
  have hdiv : (outBase + 8 * j + n - outBase) / 8 = j := by omega
  have hmod : (outBase + 8 * j + n - outBase) % 8 = n := by omega
  rw [hmem, get?_mapBlocks, if_pos ⟨by omega, hdiv.symm ▸ hj⟩, hdiv, hmod]
  simp [hn]

/-- The mapper's memory depends on which blocks it writes, not on their order (R182). -/
theorem mapBlocks_congr {s : State} (hwf : Memory.wf s.mem) (d : Direction) {order order' : List Nat}
    (h : ∀ j, j ∈ order ↔ j ∈ order') : s.mapBlocks d order = s.mapBlocks d order' :=
  Memory.ext (mapBlocks_wf hwf d order) (mapBlocks_wf hwf d order') fun a => by simp only [get?_mapBlocks, h]

theorem runMapper_parallel {s : State} (hwf : Memory.wf s.mem) (d : Direction) :
    s.runMapper d s.parallelOrder = s.runMapper d s.sequentialOrder := by
  have hmem : s.mapBlocks d s.parallelOrder = s.mapBlocks d s.sequentialOrder :=
    mapBlocks_congr hwf d fun j => (mem_parallelOrder s j).trans (mem_sequentialOrder s j).symm
  rw [State.runMapper, State.runMapper, hmem]

/-- Settles O37: both mappers write every block once, and the checks and the completion are the same. -/
theorem parallelLeavesSequentialState : Obligations.ParallelLeavesSequentialState := by
  intro s hwf
  simp only [exec_eq, State.committed, runMapper_parallel hwf]
  exact ⟨rfl, rfl⟩

/-! ## An ECB command that completes -/

/-- `t` is where an ECB command in the direction `d` leaves `s`: every block of the message mapped to its place, and nothing
else changed but what a completion changes (R181, R183, R193). -/
structure State.EcbMapped (d : Direction) (s t : State) : Prop where
  completed : t.Completed
  frame : s.CommandFrame t
  written : ∀ j draw, 8 * j < s.len.toNat → s.blockWritten j = true →
    t.OutBlockIs j (stateToBytes (blockCipher d (bytesToState (s.messageBlock draw j)) s.key))
  unwritten : ∀ j, 8 * j < s.len.toNat → s.blockWritten j = false → t.OutBlockIs j (freeBlock (s.draws + 2 * j + 1) j)
  outside : s.OnlyOutBufChanged t (8 * s.blockCount)
  status : t.status = { s.status with busy := false, done := true }
  err : t.err = 0x00
  key : t.key = s.key
  blockOut : t.blockOut = s.blockOut

theorem ecbMapped_complete (m : Mapper) (d : Direction) (s : State) (n : BitVec 32) :
    s.EcbMapped d ((s.runMapper d (m.order s)).complete (.length n)) := by
  have hmem : ((s.runMapper d (m.order s)).complete (.length n)).mem = s.mapBlocks d (m.order s) := rfl
  have hblock : ∀ j, 8 * j < s.len.toNat →
      ((s.runMapper d (m.order s)).complete (.length n)).OutBlockIs j (s.resultBlock d j) := fun j hj =>
    outBlockIs_of_mapBlocks hmem ((mem_order m s j).mpr ((lt_blockCount_iff s j).mpr hj))
  constructor
  case completed => exact completed_complete _ _
  case frame => constructor <;> rfl
  case written => exact fun j draw hj hw => resultBlock_written hw d draw ▸ hblock j hj
  case unwritten => exact fun j hj hw => resultBlock_unwritten hw d ▸ hblock j hj
  case outside =>
    intro a ha
    rw [hmem, get?_mapBlocks, if_neg]
    rw [mem_order]; omega
  all_goals rfl

/-- An ECB command with a key and a message that passes its checks maps the message. -/
theorem ecbInstr_maps (m : Mapper) (d : Direction) {s : State} (hk : s.status.keyv = true)
    (hf : s.EcbFits (m.ecbInstr d)) :
    ∃ t, exec (m.ecbInstr d) s = .next t ∧ s.EcbMapped d t ∧ t.outLen = s.ecbLength (m.ecbInstr d) :=
  ⟨_, exec_ecbInstr m d hk hf, ecbMapped_complete m d s _, rfl⟩

theorem ecbInstr_encryptsMessage (m : Mapper) (s : State) (hk : s.status.keyv = true)
    (hfit : s.len.toNat ≤ s.cfg.bufBytes) :
    ∃ t, exec (m.ecbInstr .enc) s = .next t ∧ t.Completed ∧ s.CommandFrame t
      ∧ (∀ j draw, 8 * j < s.len.toNat → s.blockWritten j = true →
          t.OutBlockIs j (stateToBytes (encrypt (bytesToState (s.messageBlock draw j)) s.key)))
      ∧ (∀ j, 8 * j < s.len.toNat → s.blockWritten j = false → t.OutBlockIs j (freeBlock (s.draws + 2 * j + 1) j))
      ∧ s.OnlyOutBufChanged t (8 * ((s.len.toNat + 7) / 8)) ∧ t.outLen.toNat = 8 * ((s.len.toNat + 7) / 8)
      ∧ t.status = { s.status with busy := false, done := true } ∧ t.err = 0x00
      ∧ t.key = s.key ∧ t.blockOut = s.blockOut := by
  have hf := ecbFits_enc m hfit
  obtain ⟨t, hexec, hmap, hlen⟩ := ecbInstr_maps m .enc hk hf
  rw [← blockCount_eq]
  exact ⟨t, hexec, hmap.completed, hmap.frame, hmap.written, hmap.unwritten, hmap.outside,
    (congrArg BitVec.toNat hlen).trans (ecbLength_toNat hf), hmap.status, hmap.err, hmap.key, hmap.blockOut⟩

theorem ecbInstr_decryptsMessage (m : Mapper) (s : State) (hk : s.status.keyv = true)
    (hfit : s.len.toNat ≤ s.cfg.bufBytes) (hmod : s.len.toNat % 8 = 0) :
    ∃ t, exec (m.ecbInstr .dec) s = .next t ∧ t.Completed ∧ s.CommandFrame t
      ∧ (∀ j draw, 8 * j < s.len.toNat → s.blockWritten j = true →
          t.OutBlockIs j (stateToBytes (decrypt (bytesToState (s.messageBlock draw j)) s.key)))
      ∧ (∀ j, 8 * j < s.len.toNat → s.blockWritten j = false → t.OutBlockIs j (freeBlock (s.draws + 2 * j + 1) j))
      ∧ s.OnlyOutBufChanged t s.len.toNat ∧ t.outLen = s.len
      ∧ t.status = { s.status with busy := false, done := true } ∧ t.err = 0x00
      ∧ t.key = s.key ∧ t.blockOut = s.blockOut := by
  obtain ⟨t, hexec, hmap, hlen⟩ := ecbInstr_maps m .dec hk (ecbFits_dec m hfit hmod)
  have hwhole : 8 * s.blockCount = s.len.toNat := by rw [blockCount_eq]; omega
  exact ⟨t, hexec, hmap.completed, hmap.frame, hmap.written, hmap.unwritten, hwhole ▸ hmap.outside,
    hlen.trans (by cases m <;> rfl), hmap.status, hmap.err, hmap.key, hmap.blockOut⟩

/-- Settles O30: ECBE is the sequential mapper's encryption. -/
theorem ecbeEncryptsMessage : Obligations.EcbeEncryptsMessage := ecbInstr_encryptsMessage .sequential

/-- Settles O31: ECBD is the sequential mapper's decryption. -/
theorem ecbdDecryptsMessage : Obligations.EcbdDecryptsMessage := ecbInstr_decryptsMessage .sequential

/-- Settles O32: PECBE is the parallel mapper's encryption. -/
theorem pecbeEncryptsMessage : Obligations.PecbeEncryptsMessage := ecbInstr_encryptsMessage .parallel

/-- Settles O33: PECBD is the parallel mapper's decryption. -/
theorem pecbdDecryptsMessage : Obligations.PecbdDecryptsMessage := ecbInstr_decryptsMessage .parallel

/-! ## Equal blocks (R185) -/

/-- Two whole written blocks of equal bytes, in any two states, are equal blocks of their messages. -/
theorem messageBlock_eq_of_equal_bytes {s s' : State} {j j' : Nat} (hj : 8 * j + 8 ≤ s.len.toNat)
    (hj' : 8 * j' + 8 ≤ s'.len.toNat)
    (h : ∀ n, n < 8 → ∃ b, Memory.get? s.mem (inBase + 8 * j + n) = some b
      ∧ Memory.get? s'.mem (inBase + 8 * j' + n) = some b) (draw draw' : Nat) :
    s.messageBlock draw j = s'.messageBlock draw' j' := by
  apply messageBlock_congr
  intro n hn
  obtain ⟨b, hb, hb'⟩ := h n hn
  rw [Nat.add_assoc] at hb hb'
  rw [messageByte_written (by omega) hb, messageByte_written (by omega) hb']

theorem blockWritten_of_bytes {s : State} {j : Nat}
    (h : ∀ n, n < 8 → ∃ b, Memory.get? s.mem (inBase + 8 * j + n) = some b) : s.blockWritten j = true := by
  rw [blockWritten_iff]
  intro n hn _
  rw [← Nat.add_assoc]
  exact Option.isSome_iff_exists.mpr (h n hn)

/-- Two ECB commands of one direction under one key give equal blocks where they read equal blocks. -/
theorem ecbInstr_equal_blocks {m m' : Mapper} {d : Direction} {s s' : State} {j j' : Nat} (hk : s.status.keyv = true)
    (hk' : s'.status.keyv = true) (hkey : s.key = s'.key) (hf : s.EcbFits (m.ecbInstr d))
    (hf' : s'.EcbFits (m'.ecbInstr d)) (hj : 8 * j + 8 ≤ s.len.toNat) (hj' : 8 * j' + 8 ≤ s'.len.toNat)
    (h : ∀ n, n < 8 → ∃ b, Memory.get? s.mem (inBase + 8 * j + n) = some b
      ∧ Memory.get? s'.mem (inBase + 8 * j' + n) = some b) :
    ∃ t t' b, exec (m.ecbInstr d) s = .next t ∧ exec (m'.ecbInstr d) s' = .next t'
      ∧ t.OutBlockIs j b ∧ t'.OutBlockIs j' b := by
  obtain ⟨t, hexec, hmap, -⟩ := ecbInstr_maps m d hk hf
  obtain ⟨t', hexec', hmap', -⟩ := ecbInstr_maps m' d hk' hf'
  have hw : s.blockWritten j = true := blockWritten_of_bytes fun n hn => (h n hn).imp fun _ hb => hb.1
  have hw' : s'.blockWritten j' = true := blockWritten_of_bytes fun n hn => (h n hn).imp fun _ hb => hb.2
  have hout := hmap.written j 0 (by omega) hw
  rw [messageBlock_eq_of_equal_bytes hj hj' h 0 0, hkey] at hout
  exact ⟨t, t', _, hexec, hexec', hout, hmap'.written j' 0 (by omega) hw'⟩

/-- Settles O36: whatever the two mappers, `ecbInstr_equal_blocks` for either direction. -/
theorem equalBlocksGiveEqualBlocks : Obligations.EqualBlocksGiveEqualBlocks := by
  intro s s' j j' hk hk' hkey hfit hfit' hj hj' h
  constructor
  · intro i hi i' hi'
    obtain ⟨m, rfl⟩ := exists_ecbInstr_enc hi
    obtain ⟨m', rfl⟩ := exists_ecbInstr_enc hi'
    exact ecbInstr_equal_blocks hk hk' hkey (ecbFits_enc m hfit) (ecbFits_enc m' hfit') hj hj' h
  · intro hmod hmod' i hi i' hi'
    obtain ⟨m, rfl⟩ := exists_ecbInstr_dec hi
    obtain ⟨m', rfl⟩ := exists_ecbInstr_dec hi'
    exact ecbInstr_equal_blocks hk hk' hkey (ecbFits_dec m hfit hmod) (ecbFits_dec m' hfit' hmod') hj hj' h

/-! ## Pad, chunk, map, concatenate (R173) -/

/-- `s` holds the message `data`: LEN is its length and IN_BUF its bytes. -/
structure State.HoldsMessage (s : State) (data : List Byte) : Prop where
  length : data.length = s.len.toNat
  bytes : ∀ k, k < data.length → Memory.get? s.mem (inBase + k) = data[k]?

theorem State.HoldsMessage.some_messageByte {s : State} {data : List Byte} (h : s.HoldsMessage data) {j n : Nat}
    (hj : 8 * j < s.len.toNat) (hn : n < 8) (draw : Nat) :
    some (s.messageByte draw j n) = (pad data)[8 * j + n]? := by
  by_cases hlt : 8 * j + n < data.length
  · have hb : Memory.get? s.mem (inBase + (8 * j + n)) = some data[8 * j + n] := by
      rw [h.bytes _ hlt, List.getElem?_eq_getElem hlt]
    rw [messageByte_written (h.length ▸ hlt) hb, pad_getElem?_lt hlt, List.getElem?_eq_getElem hlt]
  · have hend : 8 * j + n < padLen data.length := by rw [padLen_eq, h.length]; omega
    rw [messageByte_ge (by have := h.length; omega), pad_getElem?_ge (by omega) hend]

/-- Block `j` of the message that the mapper reads is chunk `j` of the padded message (R172, R173). -/
theorem State.HoldsMessage.chunk_pad {s : State} {data : List Byte} (h : s.HoldsMessage data) {j : Nat}
    (hj : 8 * j < s.len.toNat) (draw : Nat) :
    (chunk (pad data))[j]? = some (s.messageBlock draw j).toList := by
  have hcount : j < (pad data).length / 8 := by rw [pad_length, padLen_eq, h.length]; omega
  rw [chunk_getElem? hcount]
  congr 1
  apply List.ext_getElem?
  intro n
  by_cases hn : n < 8
  · rw [List.getElem?_take_of_lt hn, List.getElem?_drop, ← h.some_messageByte hj hn draw]
    simp [hn]
  · rw [List.getElem?_eq_none (by simp; omega), List.getElem?_eq_none (by simp; omega)]

theorem State.HoldsMessage.blockWritten {s : State} {data : List Byte} (h : s.HoldsMessage data) (j : Nat) :
    s.blockWritten j = true := by
  rw [blockWritten_iff]
  intro n _ hlt
  have hlt' : 8 * j + n < data.length := h.length ▸ hlt
  rw [h.bytes _ hlt', List.getElem?_eq_getElem hlt']; rfl

/-- An ECB command on a message that IN_BUF holds: pad, chunk, apply the block function, concatenate. -/
theorem ecbInstr_pad_chunk_map (m : Mapper) (d : Direction) {s : State} {data : List Byte} (hk : s.status.keyv = true)
    (hf : s.EcbFits (m.ecbInstr d)) (h : s.HoldsMessage data) :
    ∃ t, exec (m.ecbInstr d) s = .next t
      ∧ ∀ k, k < t.outLen.toNat → Memory.get? t.mem (outBase + k) =
          ((chunk (pad data)).flatMap fun b => (stateToBytes (blockCipher d (be 64 b) s.key)).toList)[k]? := by
  obtain ⟨t, hexec, hmap, hlen⟩ := ecbInstr_maps m d hk hf
  refine ⟨t, hexec, fun k hlt => ?_⟩
  have hj : 8 * (k / 8) < s.len.toNat := by
    rw [hlen, ecbLength_toNat hf] at hlt
    exact (lt_blockCount_iff s _).mp (by omega)
  have hn : k % 8 < 8 := Nat.mod_lt _ (by decide)
  have haddr : outBase + 8 * (k / 8) + k % 8 = outBase + k := by omega
  have hout := hmap.written (k / 8) 0 hj (h.blockWritten _) (k % 8) hn
  rw [haddr] at hout
  rw [hout, flatMap_block_getElem?, h.chunk_pad hj 0]
  simp [bytesToState, hn]

/-- Settles O38: the sequential encryption of a message that IN_BUF holds. -/
theorem ecbeIsPadChunkEncryptConcat : Obligations.EcbeIsPadChunkEncryptConcat :=
  fun _ _ hk hfit hlen hbytes => ecbInstr_pad_chunk_map .sequential .enc hk (ecbFits_enc .sequential hfit) ⟨hlen, hbytes⟩

end Sys2Proof.Machine
end

section
/-! SUPPORT. Commands on two states that differ in one byte of IN_BUF at or above LEN (43_ecb.md R184): obligation O35. -/

namespace Sys2Proof.Machine

/-- `s'` is `s` but for memory, and memory differs at most at the address `x`. -/
def State.DiffersAt (x : Nat) (s s' : State) : Prop :=
  ∃ m, s' = { s with mem := m } ∧ ∀ a, a ≠ x → Memory.get? m a = Memory.get? s.mem a

theorem differsAt_set (s : State) (x : Nat) (w : Byte) : s.DiffersAt x { s with mem := Memory.set s.mem x w } :=
  ⟨_, rfl, fun a ha => Memory.get?_set_other s.mem x w a ha⟩

theorem State.DiffersAt.len {x : Nat} {s s' : State} (h : s.DiffersAt x s') : s'.len = s.len := by
  obtain ⟨m, rfl, -⟩ := h; rfl

theorem State.DiffersAt.mem {x : Nat} {s s' : State} (h : s.DiffersAt x s') {a : Nat} (ha : a ≠ x) :
    Memory.get? s'.mem a = Memory.get? s.mem a := by
  obtain ⟨m, rfl, hm⟩ := h; exact hm a ha

/-- A completion commits no memory. -/
theorem State.DiffersAt.complete {x : Nat} {s s' : State} (h : s.DiffersAt x s') (r : Result) :
    (s.complete r).DiffersAt x (s'.complete r) := by
  obtain ⟨m, rfl, hm⟩ := h
  refine ⟨m, ?_, by rw [State.complete_mem]; exact hm⟩
  cases r <;> rfl

/-- The checks read no buffer. -/
theorem State.DiffersAt.check {x : Nat} {s s' : State} (h : s.DiffersAt x s') (i : Instr) : s'.check i = s.check i := by
  obtain ⟨m, rfl, -⟩ := h
  cases i <;> rfl

/-! ## Blocks of the message -/

section
variable {s s' : State} {k : Nat} (hk : s.len.toNat ≤ k) (h : s.DiffersAt (inBase + k) s')
include hk h

theorem messageByte_of_differsAt (draw j n : Nat) : s'.messageByte draw j n = s.messageByte draw j n := by
  have hlen := h.len
  by_cases hlt : 8 * j + n < s.len.toNat
  · rw [messageByte_lt (by rwa [hlen]), messageByte_lt hlt, State.bufByte, State.bufByte, h.mem (by omega)]
  · have hge := Nat.le_of_not_lt hlt
    rw [messageByte_ge (by rwa [hlen]), messageByte_ge hge]

theorem blockWritten_of_differsAt (j : Nat) : s'.blockWritten j = s.blockWritten j := by
  rw [Bool.eq_iff_iff, blockWritten_iff, blockWritten_iff, h.len]
  refine forall₃_congr fun n _ hlt => ?_
  rw [h.mem (by omega)]

theorem resultBlock_of_differsAt (d : Direction) (j : Nat) : s'.resultBlock d j = s.resultBlock d j := by
  have hblock : ∀ draw, s'.messageBlock draw j = s.messageBlock draw j := fun draw =>
    messageBlock_congr fun n _ => messageByte_of_differsAt hk h draw j n
  have hwritten := blockWritten_of_differsAt hk h j
  obtain ⟨m, rfl, -⟩ := h
  rw [State.resultBlock, State.resultBlock, State.outputBlock, State.outputBlock, hblock, hwritten]

/-- The mapper writes the same bytes to the same places. -/
theorem runMapper_differsAt (d : Direction) (order : List Nat) :
    (s.runMapper d order).DiffersAt (inBase + k) (s'.runMapper d order) := by
  have hresult := resultBlock_of_differsAt hk h d
  obtain ⟨m, rfl, hm⟩ := h
  refine ⟨_, rfl, fun a ha => ?_⟩
  rw [State.runMapper_mem, get?_mapBlocks, get?_mapBlocks, hresult, hm a ha]

/-! ## Commands -/

theorem committed_differsAt (i : Instr) : (s.committed i).DiffersAt (inBase + k) (s'.committed i) := by
  cases he : isEcb i with
  | true =>
    obtain ⟨m, d, rfl⟩ := exists_ecbInstr he
    have hmapped := runMapper_differsAt hk h d (m.order s)
    obtain ⟨mem, rfl, -⟩ := h
    have horder : m.order { s with mem := mem } = m.order s := by cases m <;> rfl
    rw [committed_ecbInstr, committed_ecbInstr, horder]
    exact hmapped.complete _
  | false =>
    have hcomplete := h.complete
    obtain ⟨mem, rfl, -⟩ := h
    rcases not_isEcb_cases he with rfl | rfl | rfl | rfl
    · exact hcomplete .nothing
    · have hoperand : ({ s with mem := mem } : State).keyOperand = s.keyOperand := rfl
      simp only [State.committed, hoperand]
      cases s.keyOperand with
      | ok key => exact hcomplete (.key key)
      | error c => exact hcomplete (.error c)
    · exact hcomplete (.block _)
    · exact hcomplete (.block _)

theorem exec_differsAt (i : Instr) :
    ∃ t t', exec i s = .next t ∧ exec i s' = .next t' ∧ t.DiffersAt (inBase + k) t' := by
  refine ⟨_, _, exec_eq i s, exec_eq i s', ?_⟩
  rw [h.check]
  cases s.check i with
  | some c => exact h.complete (.error c)
  | none => exact committed_differsAt hk h i

end

/-- Settles O35: a command carries the one differing byte along and reads it nowhere. -/
theorem bytesBeyondLengthNeverMatter : Obligations.BytesBeyondLengthNeverMatter := by
  intro i s k w hk _
  obtain ⟨t, t', ht, ht', m, rfl, hm⟩ := exec_differsAt hk (differsAt_set s (inBase + k) w) i
  exact ⟨t, _, ht, ht', rfl, hm⟩

end Sys2Proof.Machine
end

section
/-! SUPPORT. A command byte from the CMD write to the merged step (44_control.md R190 to R195), and what holds of the
operands in between (R196): obligations O7, O9, O22, O23, O26 and O47. -/

namespace Sys2Proof.Machine

/-! ## Acceptance (R190) -/

/-- While no command runs a write to CMD is accepted, whatever the byte. -/
theorem step_write_cmd {s : State} (hs : s.Ready) (hb : s.status.busy = false) (w : Byte) :
    step (s.facing (.write 0x0000 w)) = .next (s.accept w) :=
  (step_write hs 0x0000 w).trans (congrArg _ (if_neg (by simp [hb])))

theorem accept_ready {s : State} (hs : s.Ready) (w : Byte) : (s.accept w).Ready := ⟨hs.rstLow, hs.resetSeen⟩

/-- A byte that gives the mapper no blocks leaves TODO and WRITTEN as they were (log 11). -/
theorem mapperBlocks_eq_none {w : Byte} {s : State}
    (h : ∀ i, decode w = .ok i → isEcb i = true → s.check i ≠ none) : s.mapperBlocks w = none := by
  cases hm : s.mapperBlocks w with
  | none => rfl
  | some bs =>
    obtain ⟨i, hd, he, hc, -⟩ := mapperBlocks_eq_some.mp hm
    exact absurd hc (h i hd he)

/-- Settles O9: the write is `State.accept`, whose TODO and WRITTEN `State.mapperBlocks` decides. -/
theorem commandWriteIsAccepted : Obligations.CommandWriteIsAccepted := by
  intro s w hs
  refine ⟨fun hb => ⟨s.accept w, step_write_cmd hs hb w, rfl, rfl, fun i hd he hc => ?_, fun h => ?_⟩, fun hb => ?_⟩
  · have hm := mapperBlocks_eq_some.mpr ⟨i, hd, he, hc, rfl⟩
    rw [State.accept_todo, State.accept_written, hm, blockCount_eq]
    exact ⟨rfl, rfl⟩
  · rw [State.accept_todo, State.accept_written, mapperBlocks_eq_none h]
    exact ⟨rfl, rfl⟩
  · exact (step_write hs 0x0000 w).trans (congrArg _ (if_pos hb))

/-! ## The merged step of a command just accepted (R191 to R195) -/

theorem step_run {s : State} (hs : s.Ready) : step (s.facing .run) = s.runCommand := by
  rw [step_facing, perform_ready hs]; rfl

theorem runCommand_decoded {s : State} {i : Instr} (hp : s.seq.phase = .run) (hc : s.seq.stage = .check)
    (hd : decode s.seq.op = .ok i) : s.runCommand = exec i s := by
  rw [runCommand_check hp hc, hd]

theorem runCommand_reserved {s : State} {e : DecodeError} (hp : s.seq.phase = .run) (hc : s.seq.stage = .check)
    (hd : decode s.seq.op = .error e) : s.runCommand = .next (s.complete (.error .illegalCmd)) := by
  rw [runCommand_check hp hc, hd]; rfl

/-- The host's write of a byte, placed by `withFetchWord`, steps to the merged step of the accepted byte (log 15). -/
theorem step_withFetchWord (s : State) (w : Byte) :
    step (s.withFetchWord 8 w.toNat) = (({ s with rst := false, resetSeen := true } : State).accept w).runCommand := by
  have hw : BitVec.ofNat 8 (w.toNat % 2 ^ 8) = w := by
    rw [Nat.mod_eq_of_lt w.isLt, BitVec.ofNat_toNat, BitVec.setWidth_eq]
  rw [State.withFetchWord, hw]
  exact step_run (accept_ready ⟨rfl, rfl⟩ w)

/-- Settles O7: with the check step next `State.runCommand` is `exec` of the decoded command, as the event `run`, as the
step of an empty agenda, and after `withFetchWord`. -/
theorem stepRunsDecodedCommand : Obligations.StepRunsDecodedCommand := by
  refine ⟨fun s i hs hp hc hd => ⟨?_, fun ha => ?_⟩, fun s w i hd => ?_⟩
  · exact (step_run hs).trans (runCommand_decoded hp hc hd)
  · rw [step_quiet ha]
    exact (step_run hs).trans (runCommand_decoded hp hc hd)
  · exact (step_withFetchWord s w).trans (runCommand_decoded rfl rfl hd)

/-- Settles O22: NOP is a completion that commits nothing. -/
theorem nopCompletes : Obligations.NopCompletes := fun s =>
  ⟨s.complete .nothing, rfl, completed_complete _ s, commandFrame_complete _ s, rfl, rfl, rfl, rfl, rfl, rfl⟩

/-- Settles O23: the CMD write is `State.accept`, and the merged step completes with nothing to commit. -/
theorem nopLifeCycle : Obligations.NopLifeCycle := by
  intro s hs hb
  have hrun : step ((s.accept 0x00).facing .run) = .next ((s.accept 0x00).complete .nothing) :=
    (step_run (accept_ready hs 0x00)).trans (runCommand_decoded (i := .nop) rfl rfl (decode_encode .nop))
  exact ⟨_, _, step_write_cmd hs hb 0x00, rfl, rfl, hrun, completed_complete _ _, rfl, rfl, rfl, rfl, rfl, rfl, rfl⟩

/-- Settles O26: a byte from 0x08 on decodes to no command, so its merged step completes with ILLEGAL_CMD. -/
theorem reservedOpcodeReportsIllegalCommand : Obligations.ReservedOpcodeReportsIllegalCommand := by
  intro s w hs hb hw
  have hrun : step ((s.accept w).facing .run) = .next ((s.accept w).complete (.error .illegalCmd)) :=
    (step_run (accept_ready hs w)).trans (runCommand_reserved rfl rfl (decode_of_ge hw))
  exact ⟨_, _, step_write_cmd hs hb w, rfl, rfl, hrun, completed_complete _ _, rfl, rfl, rfl, rfl, rfl, rfl⟩

/-! ## Operands (R196) -/

/-- `t` has every operand of `s`, and KEY too while a command still runs. -/
structure State.HoldsOperands (s t : State) : Prop where
  variant : t.variant = s.variant
  keylen : t.keylen = s.keylen
  keyIn : t.keyIn = s.keyIn
  len : t.len = s.len
  blockIn : t.blockIn = s.blockIn
  inBuf : ∀ a, a < outBase → Memory.get? t.mem a = Memory.get? s.mem a
  key : t.status.busy = true → t.key = s.key

theorem holdsOperands_refl (s : State) : s.HoldsOperands s := ⟨rfl, rfl, rfl, rfl, rfl, fun _ _ => rfl, fun _ => rfl⟩

/-- A completion commits no operand but KEY, and the command is over then. -/
theorem State.HoldsOperands.complete {s u : State} (h : s.HoldsOperands u) (r : Result) :
    s.HoldsOperands (u.complete r) where
  variant := (State.complete_variant r u).trans h.variant
  keylen := (State.complete_keylen r u).trans h.keylen
  keyIn := (State.complete_keyIn r u).trans h.keyIn
  len := (State.complete_len r u).trans h.len
  blockIn := (State.complete_blockIn r u).trans h.blockIn
  inBuf := by rw [State.complete_mem]; exact h.inBuf
  key := by rw [State.complete_status, statusAfter_busy]; simp

theorem State.HoldsOperands.internal {s u v : State} (h : s.HoldsOperands u) (hi : u.InternalTo v) :
    s.HoldsOperands v := by
  have hstatus : v.status = u.status := by rw [hi.same]
  have hkey : v.key = u.key := by rw [hi.same]
  exact {
    variant := by rw [hi.same]; exact h.variant
    keylen := by rw [hi.same]; exact h.keylen
    keyIn := by rw [hi.same]; exact h.keyIn
    len := by rw [hi.same]; exact h.len
    blockIn := by rw [hi.same]; exact h.blockIn
    inBuf := fun a ha => (hi.belowOutBuf a ha).trans (h.inBuf a ha)
    key := by rw [hstatus, hkey]; exact h.key }

theorem State.HoldsOperands.coreStep {s u : State} (h : s.HoldsOperands u) (l p : Nat) :
    s.HoldsOperands (u.coreStep l p) := by
  rcases coreStep_cases l p u with ⟨r, -, hstep⟩ | hi
  · rw [hstep]; exact h.complete r
  · exact h.internal hi

/-- The merged mapper writes only OUT_BUF (R181). -/
theorem holdsOperands_runMapper (d : Direction) (order : List Nat) (s : State) :
    s.HoldsOperands (s.runMapper d order) :=
  ⟨rfl, rfl, rfl, rfl, rfl, fun a ha => by rw [State.runMapper_mem, get?_mapBlocks, if_neg (by omega)], fun _ => rfl⟩

theorem holdsOperands_committed (i : Instr) (s : State) : s.HoldsOperands (s.committed i) := by
  cases he : isEcb i with
  | true =>
    obtain ⟨d, order, -, hcommit⟩ := committed_ecb s he
    rw [hcommit]
    exact (holdsOperands_runMapper d order s).complete _
  | false =>
    have hcomplete := (holdsOperands_refl s).complete
    rcases not_isEcb_cases he with rfl | rfl | rfl | rfl
    · exact hcomplete .nothing
    · unfold State.committed
      dsimp only
      cases s.keyOperand with
      | ok k => exact hcomplete (.key k)
      | error c => exact hcomplete (.error c)
    · exact hcomplete (.block _)
    · exact hcomplete (.block _)

theorem holdsOperands_exec {i : Instr} {s t : State} (h : exec i s = .next t) : s.HoldsOperands t := by
  rw [exec_eq] at h
  cases hc : s.check i with
  | some c => rw [hc] at h; cases h; exact (holdsOperands_refl s).complete (.error c)
  | none => rw [hc] at h; cases h; exact holdsOperands_committed i s

theorem holdsOperands_runCommand {s t : State} (hrun : s.runCommand = .next t) : s.HoldsOperands t := by
  cases hp : s.seq.phase with
  | idle =>
    rw [runCommand_idle hp] at hrun
    cases hrun
    exact holdsOperands_refl s
  | run =>
    by_cases hs : s.seq.stage = .check
    · cases hd : decode s.seq.op with
      | ok i => exact holdsOperands_exec ((runCommand_decoded hp hs hd).symm.trans hrun)
      | error e =>
        rw [runCommand_reserved hp hs hd] at hrun
        cases hrun
        exact (holdsOperands_refl s).complete _
    · rw [runCommand_under_way hp hs] at hrun
      cases hrun
      obtain ⟨cs, hsteps⟩ := finishCommand_steps s
      rw [hsteps]
      exact coreSteps_induct (fun _ l p h => h.coreStep l p) cs s (holdsOperands_refl s)

/-- While a command runs no write reaches an operand (R74). -/
theorem State.WriteEffect.holdsOperands {l : Location} {w : Byte} {s t : State} (h : s.WriteEffect l w t)
    (hb : s.status.busy = true) : s.HoldsOperands t := by
  cases h with
  | accepted _ hidle => rw [hb] at hidle; cases hidle
  | stored hidle _ => rw [hb] at hidle; cases hidle
  | cleared _ => exact ⟨rfl, rfl, rfl, rfl, rfl, fun _ _ => rfl, fun _ => rfl⟩
  | dropped _ => exact ⟨rfl, rfl, rfl, rfl, rfl, fun _ _ => rfl, fun _ => rfl⟩
  | enabled b => exact ⟨rfl, rfl, rfl, rfl, rfl, fun _ _ => rfl, fun _ => rfl⟩

theorem holdsOperands_perform {s t : State} {e : Event} (hs : s.Ready) (he : e ≠ .rst true)
    (hb : s.status.busy = true) (h : s.perform e = .next t) : s.HoldsOperands t := by
  rcases perform_cases h with ⟨hrst, -⟩ | ⟨-, hrst, -⟩ | ⟨-, -, rfl⟩ | ⟨a, w, -, -, rfl⟩ | ⟨a, -, -, rfl⟩
    | ⟨l, p, -, -, rfl⟩ | ⟨-, -, hrun⟩
  · rw [hs.rstLow] at hrst; cases hrst
  · exact absurd hrst he
  · exact holdsOperands_refl _
  · exact (writeLocation_effect (locate a) w s).holdsOperands hb
  · exact ⟨rfl, rfl, rfl, rfl, rfl, fun _ _ => rfl, fun _ => rfl⟩
  · exact (holdsOperands_refl s).coreStep l p
  · exact holdsOperands_runCommand hrun

/-- Settles O47: writes are dropped, and of the internal steps only a completion touches KEY. -/
theorem operandsHoldWhileCommandRuns : Obligations.OperandsHoldWhileCommandRuns := by
  intro s t e hs he hb hstep
  obtain ⟨hvariant, hkeylen, hkeyIn, hlen, hblockIn, hinBuf, hkey⟩ := holdsOperands_perform hs he hb hstep
  exact ⟨hvariant, hkeylen, hkeyIn, hlen, hblockIn, hinBuf, hkey⟩

end Sys2Proof.Machine
end

section
/-! SUPPORT. The bookkeeping of the unmerged mapper: which lane holds which block, and what a step moves (43_ecb.md R179,
R180). -/

namespace Sys2Proof.Machine

/-! ## WRITTEN as a rising list -/

theorem insertIndex_perm {j : Nat} {ks : List Nat} (h : j ∉ ks) : (insertIndex j ks).Perm (j :: ks) := by
  induction ks with
  | nil => exact .refl _
  | cons k ks ih =>
    obtain ⟨hne, hks⟩ := List.ne_and_not_mem_of_not_mem_cons h
    by_cases hlt : j < k
    · rw [insertIndex, if_pos hlt]
    · rw [insertIndex, if_neg hlt, if_neg hne]
      exact ((ih hks).cons k).trans (.swap j k ks)

theorem insertIndex_rising {j : Nat} {ks : List Nat} (h : j ∉ ks) (hr : ks.Pairwise (· < ·)) :
    (insertIndex j ks).Pairwise (· < ·) := by
  induction ks with
  | nil => exact List.pairwise_singleton _ _
  | cons k ks ih =>
    obtain ⟨hne, hks⟩ := List.ne_and_not_mem_of_not_mem_cons h
    obtain ⟨hk, htail⟩ := List.pairwise_cons.mp hr
    by_cases hlt : j < k
    · rw [insertIndex, if_pos hlt]
      refine List.pairwise_cons.mpr ⟨fun b hb => ?_, hr⟩
      rcases List.mem_cons.mp hb with rfl | hb
      · exact hlt
      · exact hlt.trans (hk b hb)
    · rw [insertIndex, if_neg hlt, if_neg hne]
      refine List.pairwise_cons.mpr ⟨fun b hb => ?_, ih hks htail⟩
      rcases List.mem_cons.mp ((insertIndex_perm hks).mem_iff.mp hb) with rfl | hb
      · omega
      · exact hk b hb

/-! ## Sums over the engines -/

/-- The sum of `f` over the engines. -/
def State.total (f : Engine → Nat) (s : State) : Nat := (s.engines.map f).sum

theorem sum_map_set {α : Type} (f : α → Nat) {es : List α} {l : Nat} (h : l < es.length) (e : α) :
    ((es.set l e).map f).sum + f es[l] = (es.map f).sum + f e := by
  obtain ⟨pre, post, hes, -, hset⟩ := List.exists_of_set (a' := e) h
  have hsum : (es.map f).sum = ((pre ++ es[l] :: post).map f).sum := by rw [← hes]
  rw [hset, hsum]
  simp only [List.map_append, List.map_cons, List.sum_append, List.sum_cons]
  omega

theorem engine_eq_getElem {s : State} {l : Nat} (h : l < s.engines.length) : s.engine l = s.engines[l] :=
  List.getD_eq_getElem _ _ h

/-- Replacing engine `l` by `e` changes a sum by the difference of the two. -/
theorem total_set {s t : State} {l : Nat} {e : Engine} (hl : l < s.engines.length) (ht : t.engines = s.engines.set l e)
    (f : Engine → Nat) : t.total f + f (s.engine l) = s.total f + f e := by
  rw [State.total, ht, engine_eq_getElem hl]
  exact sum_map_set f hl e

theorem le_total {s : State} {e : Engine} (h : e ∈ s.engines) (f : Engine → Nat) : f e ≤ s.total f :=
  List.le_sum_of_mem (List.mem_map_of_mem h)

theorem total_eq_zero {s : State} {f : Engine → Nat} (h : ∀ e ∈ s.engines, f e = 0) : s.total f = 0 := by
  refine List.sum_eq_zero fun n hn => ?_
  obtain ⟨e, he, rfl⟩ := List.mem_map.mp hn
  exact h e he

/-- A lane that works is a lane of the core. -/
theorem lt_lanes_of_busy {s : State} {l : Nat} (h : (s.engine l).stage ≠ .idle) : l < s.engines.length := by
  by_contra hge
  exact h (congrArg Engine.stage (List.getD_eq_default _ _ (Nat.le_of_not_lt hge)))

theorem engine_of_set {s t : State} {l k : Nat} {e : Engine} (ht : t.engines = s.engines.set l e) (hk : k ≠ l) :
    t.engine k = s.engine k := by
  rw [State.engine, State.engine, ht, List.getD_eq_getElem?_getD, List.getD_eq_getElem?_getD,
    List.getElem?_set_ne hk.symm]

theorem engine_of_set_self {s t : State} {l : Nat} {e : Engine} (hl : l < s.engines.length)
    (ht : t.engines = s.engines.set l e) : t.engine l = e := by
  rw [State.engine, ht, List.getD_eq_getElem _ _ (by simpa using hl), List.getElem_set_self]

/-! ## What an engine contributes -/

/-- 1 when the engine works on block `j`. Between two blocks of its loop E[0] still names the block it has written
(R179), but its stage is idle. -/
def Engine.holds (j : Nat) (e : Engine) : Nat := if e.stage ≠ .idle ∧ e.blk = some j then 1 else 0

/-- The draws of the block in hand so far: one once START has read it (log 12). -/
def Engine.drawn (e : Engine) : Nat := if e.stage = .idle ∨ e.stage = .start then 0 else 1

/-- The steps left for the block in hand: its schedule and its write. -/
def Engine.work (d : Direction) (e : Engine) : Nat := if e.stage = .idle then 0 else e.stepsLeft d + 1

theorem work_of_idle {d : Direction} {e : Engine} (h : e.stage = .idle) : e.work d = 0 := if_pos h

theorem work_of_busy {d : Direction} {e : Engine} (h : e.stage ≠ .idle) : e.work d = e.stepsLeft d + 1 := if_neg h

theorem holds_of_idle {e : Engine} (h : e.stage = .idle) (j : Nat) : e.holds j = 0 := if_neg fun ⟨hne, _⟩ => hne h

theorem drawn_of_idle {e : Engine} (h : e.stage = .idle) : e.drawn = 0 := if_pos (.inl h)

theorem holds_of_busy {e : Engine} {j : Nat} (h : e.stage ≠ .idle) (hb : e.blk = some j) (k : Nat) :
    e.holds k = if j = k then 1 else 0 := by
  simp [Engine.holds, h, hb]

/-- A schedule has at most 64 steps left (R197, R247). -/
theorem stepsLeft_le {d : Direction} {key : Key} {x : Block} {e : Engine} (h : e.OnSchedule d key x) :
    e.stepsLeft d ≤ 64 := by
  unfold Engine.OnSchedule at h
  unfold Engine.stepsLeft
  cases hs : e.stage with
  | idle => exact Nat.zero_le _
  | start => cases d <;> simp
  | rounds => dsimp only; omega
  | final => simp
  | keygen => exact Nat.sub_le _ _
  | whiten => simp
  | iround i =>
    rw [hs] at h
    obtain ⟨-, hi, -⟩ := h
    dsimp only; omega
  | result => exact Nat.zero_le _

theorem onSchedule_ne_idle {d : Direction} {key : Key} {x : Block} {e : Engine} (h : e.OnSchedule d key x) :
    e.stage ≠ .idle := by
  intro hs
  unfold Engine.OnSchedule at h
  rw [hs] at h
  exact h

theorem onSchedule_start {d : Direction} {key : Key} {e : Engine} (h : e.stage = .start) (x : Block) :
    e.OnSchedule d key x := by
  unfold Engine.OnSchedule; rw [h]; trivial

theorem onSchedule_result {d : Direction} {key : Key} {x : Block} {e : Engine} (h : e.OnSchedule d key x)
    (hs : e.stage = .result) : e.state = blockCipher d x key := by
  unfold Engine.OnSchedule at h
  rwa [hs] at h

/-! ## The four mapper steps, by what the lane holds -/

/-- The block that START reads when it is next (R165, R166). -/
def State.startBlock (l j : Nat) (s : State) : Block :=
  if (s.engine l).stage = .start then bytesToState (s.messageBlock s.draws j) else 0

section
variable {s : State} {l : Nat} (m : Mapper) (d : Direction) (p : Nat) (n : BitVec 32)

/-- A resting lane takes a block. -/
theorem mapperStep_resting (hs : (s.engine l).stage = .idle) (hb : m = .parallel → (s.engine l).blk = none) :
    s.mapperStep m d l p n = s.takeBlock l p := by
  unfold State.mapperStep
  split
  · rfl
  · rename_i j hj
    rw [hs]
    cases m with
    | sequential => rfl
    | parallel => rw [hb rfl] at hj; cases hj

theorem mapperStep_result {j : Nat} (hb : (s.engine l).blk = some j) (hs : (s.engine l).stage = .result) :
    s.mapperStep m d l p n = s.writeResult m l j n := by
  unfold State.mapperStep
  rw [hb, hs]

/-- A lane within its schedule advances it; START takes a draw. -/
theorem mapperStep_schedule {j : Nat} (hb : (s.engine l).blk = some j) (hi : (s.engine l).stage ≠ .idle)
    (hr : (s.engine l).stage ≠ .result) :
    s.mapperStep m d l p n =
      { s.setEngine l ((s.engine l).advanceSchedule d s.key (s.startBlock l j)) with
        draws := s.draws + if (s.engine l).stage = .start then 1 else 0 } := by
  unfold State.mapperStep State.startBlock
  rw [hb]
  cases hs : (s.engine l).stage with
  | idle => exact absurd hs hi
  | result => exact absurd hs hr
  | start => rfl
  | rounds => rfl
  | final => rfl
  | keygen => rfl
  | whiten => rfl
  | iround i => rfl

end

/-- An engine that has taken block `j` (R180). -/
def Engine.given (j : Nat) (e : Engine) : Engine := { e with blk := some j, stage := .start }

/-- The state after lane `l` has taken block `j` out of TODO (R180). -/
def State.afterTake (l j : Nat) (s : State) : State :=
  { s.setEngine l ((s.engine l).given j) with seq := { s.seq with todo := s.seq.todo.erase j } }

/-- With a block in TODO a resting lane takes one of them. -/
theorem takeBlock_cases (l p : Nat) (s : State) :
    (s.seq.todo = [] ∧ s.takeBlock l p = s) ∨ ∃ j ∈ s.seq.todo, s.takeBlock l p = s.afterTake l j := by
  unfold State.takeBlock
  cases htodo : s.seq.todo with
  | nil => exact .inl ⟨rfl, rfl⟩
  | cons j js =>
    have hlt : p % (js.length + 1) < (j :: js).length := Nat.mod_lt _ (Nat.succ_pos _)
    refine .inr ⟨(j :: js).getD (p % (js.length + 1)) j, ?_, by rw [State.afterTake, htodo]; rfl⟩
    rw [List.getD_eq_getElem _ _ hlt]
    exact List.getElem_mem _

/-! ## Internal steps in a row -/

theorem State.InternalTo.trans {s u v : State} (h : s.InternalTo u) (h' : u.InternalTo v) : s.InternalTo v where
  same := by rw [h'.same, h.same]
  phase := h'.phase.trans h.phase
  op := h'.op.trans h.op
  lanes := h'.lanes.trans h.lanes
  belowOutBuf := fun a ha => (h'.belowOutBuf a ha).trans (h.belowOutBuf a ha)
  wf := h'.wf ∘ h.wf

section
variable {s u : State} (h : s.InternalTo u)
include h

theorem State.InternalTo.blockCount : u.blockCount = s.blockCount := by
  rw [State.blockCount, State.blockCount, h.same]

/-- IN_BUF is as before, so the blocks of a message that fits it are. -/
theorem State.InternalTo.messageBlock (hfit : s.len.toNat ≤ 4096) (draw j : Nat) :
    u.messageBlock draw j = s.messageBlock draw j := by
  have hlen : u.len = s.len := by rw [h.same]
  refine messageBlock_congr fun n _ => ?_
  by_cases hlt : 8 * j + n < s.len.toNat
  · have haddr : inBase + (8 * j + n) < outBase := by unfold inBase outBase; omega
    rw [messageByte_lt (hlen ▸ hlt), messageByte_lt hlt, State.bufByte, State.bufByte, h.belowOutBuf _ haddr]
  · have hge := Nat.le_of_not_lt hlt
    rw [messageByte_ge (hlen ▸ hge), messageByte_ge hge]

theorem State.InternalTo.blockWritten (hfit : s.len.toNat ≤ 4096) (j : Nat) : u.blockWritten j = s.blockWritten j := by
  have hlen : u.len = s.len := by rw [h.same]
  rw [Bool.eq_iff_iff, blockWritten_iff, blockWritten_iff, hlen]
  refine forall₃_congr fun n _ hlt => ?_
  have haddr : inBase + (8 * j + n) < outBase := by unfold inBase outBase; omega
  rw [h.belowOutBuf _ haddr]

end

end Sys2Proof.Machine
end

section
/-! SUPPORT. What holds while the unmerged mapper of an accepted ECB command runs, whatever lanes and blocks its steps pick
(43_ecb.md R179 to R181; 42_block_cipher.md R165, R166). -/

namespace Sys2Proof.Machine

/-! ## What a schedule keeps -/

/-- Two memories read alike but for the places in OUT_BUF of the blocks of `s` with an unwritten input byte (R235). -/
def State.AgreeOnWritten (s : State) (mem mem' : Memory) : Prop :=
  ∀ a, (∀ j, j < s.blockCount → outBase + 8 * j ≤ a → a < outBase + 8 * j + 8 → s.blockWritten j = true) →
    Memory.get? mem a = Memory.get? mem' a

/-- Where an engine can stand while the mapper of a command accepted in `s` runs: it rests, or it is on the schedule of a
block, of the message's if that has been written. -/
inductive Engine.OnMapper (m : Mapper) (d : Direction) (s : State) (e : Engine) : Prop
  | resting (hs : e.stage = .idle) (hb : m = .parallel → e.blk = none)
  | working (j : Nat) (x : Block) (hb : e.blk = some j) (hx : e.OnSchedule d s.key x)
      (hw : s.blockWritten j = true → x = bytesToState (s.messageBlock s.draws j))

/-- No lane but lane 0 works. -/
def State.OnlyLane0 (s : State) : Prop := ∀ l, l ≠ 0 → (s.engine l).stage = .idle

/-- `u` is a state of the mapper of the ECB command accepted in `s`, from the check step until its completion step is next:
each block is in TODO, in one engine, or in WRITTEN, and OUT_BUF holds the results of the blocks in WRITTEN. -/
structure State.Mapping (m : Mapper) (d : Direction) (s u : State) : Prop where
  passed : s.check (m.ecbInstr d) = none
  decoded : decode s.seq.op = .ok (m.ecbInstr d)
  internal : s.InternalTo u
  lanes : u.engines.length = u.cfg.nLanes
  engines : ∀ e ∈ u.engines, e.OnMapper m d s
  solo : m = .sequential → u.OnlyLane0
  blocks : ∀ j, u.seq.todo.count j + u.total (Engine.holds j) + u.seq.written.count j = if j < s.blockCount then 1 else 0
  rising : u.seq.written.Pairwise (· < ·)
  stage : u.seq.stage = if u.seq.written = List.range s.blockCount then .finish (.length (s.ecbLength (m.ecbInstr d)))
    else .datapath
  draws : u.draws = s.draws + 2 * u.seq.written.length + u.total Engine.drawn
  mem : s.AgreeOnWritten u.mem (s.mapBlocks d u.seq.written)

/-- The most steps the mapper has left: 66 for each block in TODO, and those of the blocks in hand (R197). -/
def State.mapperLeft (d : Direction) (u : State) : Nat := 66 * u.seq.todo.length + u.total (Engine.work d)

theorem isEcb_ecbInstr (m : Mapper) (d : Direction) : isEcb (m.ecbInstr d) = true := by
  cases m <;> cases d <;> rfl

section
variable {m : Mapper} {d : Direction} {s u : State} (h : s.Mapping m d u)
include h

theorem State.Mapping.fits : s.len.toNat ≤ 4096 :=
  (check_ecb_none (isEcb_ecbInstr m d) h.passed).1.trans (bufBytes_le s.cfg).1

theorem State.Mapping.key : u.key = s.key := by rw [h.internal.same]

theorem State.Mapping.engine_onMapper (l : Nat) : (u.engine l).OnMapper m d s := by
  rcases engine_mem u l with hm | he
  · exact h.engines _ hm
  · rw [he]; exact .resting rfl fun _ => rfl

/-- The block an engine works on is a block of the message that has not been written. -/
theorem State.Mapping.held {e : Engine} (he : e ∈ u.engines) {j : Nat} (hi : e.stage ≠ .idle) (hb : e.blk = some j) :
    j < s.blockCount ∧ j ∉ u.seq.written := by
  have hone : e.holds j = 1 := (holds_of_busy hi hb j).trans (if_pos rfl)
  have hle := le_total he (Engine.holds j)
  have hj := h.blocks j
  split at hj
  · exact ⟨‹_›, fun hw => by have := List.count_pos_iff.mpr hw; omega⟩
  · omega

/-- When WRITTEN is full nothing is left to do (R180). -/
theorem State.Mapping.finished (hw : u.seq.written = List.range s.blockCount) :
    u.seq.todo = [] ∧ ∀ e ∈ u.engines, e.stage = .idle := by
  have hzero : ∀ j, u.seq.todo.count j = 0 ∧ u.total (Engine.holds j) = 0 := fun j => by
    have hj := h.blocks j
    rw [hw, List.count_range] at hj
    omega
  refine ⟨List.eq_nil_iff_forall_not_mem.mpr fun j => List.count_eq_zero.mp (hzero j).1, fun e he => ?_⟩
  by_contra hi
  cases h.engines e he with
  | resting hs _ => exact hi hs
  | working j x hb _ _ =>
    obtain ⟨hlt, hnot⟩ := h.held he hi hb
    exact hnot (hw ▸ List.mem_range.mpr hlt)

/-- With nothing left to do WRITTEN is full. -/
theorem State.Mapping.written_full (ht : u.seq.todo = []) (hi : ∀ e ∈ u.engines, e.stage = .idle) :
    u.seq.written = List.range s.blockCount := by
  refine h.rising.eq_of_mem_iff List.pairwise_lt_range fun j => ?_
  have hheld : u.total (Engine.holds j) = 0 := total_eq_zero fun e he => holds_of_idle (hi e he) j
  have hj := h.blocks j
  rw [ht, hheld, List.count_nil] at hj
  rw [← List.count_pos_iff, List.mem_range]
  split at hj <;> omega

/-! ## One step of the mapper -/

/-- Only engine `l` changes, and what it held goes where it should: a mapper state again. -/
theorem State.Mapping.replace {v : State} {l : Nat} {e : Engine} (hl : l < u.engines.length) (hi : u.InternalTo v)
    (hv : v.engines = u.engines.set l e) (he : e.OnMapper m d s) (hsolo : m = .sequential → l = 0)
    (hblocks : ∀ j, v.seq.todo.count j + e.holds j + v.seq.written.count j
      = u.seq.todo.count j + (u.engine l).holds j + u.seq.written.count j)
    (hrising : v.seq.written.Pairwise (· < ·))
    (hstage : v.seq.stage = if v.seq.written = List.range s.blockCount then
      .finish (.length (s.ecbLength (m.ecbInstr d))) else .datapath)
    (hdraws : v.draws + 2 * u.seq.written.length + (u.engine l).drawn = u.draws + 2 * v.seq.written.length + e.drawn)
    (hmem : s.AgreeOnWritten v.mem (s.mapBlocks d v.seq.written)) : s.Mapping m d v where
  passed := h.passed
  decoded := h.decoded
  internal := h.internal.trans hi
  lanes := by
    have hcfg : v.cfg = u.cfg := by rw [hi.same]
    rw [hi.lanes, hcfg, h.lanes]
  engines := fun e' he' => by
    rw [hv] at he'
    rcases List.mem_or_eq_of_mem_set he' with he' | rfl
    · exact h.engines e' he'
    · exact he
  solo := fun hm k hk => by
    rw [engine_of_set hv (hsolo hm ▸ hk)]
    exact h.solo hm k hk
  blocks := fun j => by
    have htotal := total_set hl hv (Engine.holds j)
    have hold := h.blocks j
    have hnew := hblocks j
    omega
  rising := hrising
  stage := hstage
  draws := by
    have htotal := total_set hl hv Engine.drawn
    have hold := h.draws
    omega
  mem := hmem

/-- A resting lane that takes a block. -/
theorem State.Mapping.take {l j : Nat} (hl : l < u.engines.length) (hsolo : m = .sequential → l = 0)
    (hrest : (u.engine l).stage = .idle) (hj : j ∈ u.seq.todo) :
    s.Mapping m d (u.afterTake l j) := by
  refine h.replace (v := u.afterTake l j) (e := (u.engine l).given j) hl
    (internal_engines _ _ u.draws (by simp) rfl rfl) rfl ?_ hsolo (fun k => ?_) h.rising h.stage ?_ h.mem
  · exact .working j _ rfl (onSchedule_start rfl _) fun _ => rfl
  · have hcount := (List.perm_cons_erase hj).count_eq k
    rw [List.count_cons] at hcount
    simp only [beq_iff_eq] at hcount
    rw [holds_of_idle hrest, holds_of_busy (j := j) (by simp [Engine.given]) rfl k]
    show (u.seq.todo.erase j).count k + _ + u.seq.written.count k = _
    omega
  · simp [Engine.drawn, Engine.given, hrest, State.afterTake]

/-- A lane within the schedule of its block advances it. -/
theorem State.Mapping.schedule {l j : Nat} (hsolo : m = .sequential → l = 0) (hb : (u.engine l).blk = some j)
    (hi : (u.engine l).stage ≠ .idle) (hr : (u.engine l).stage ≠ .result) :
    s.Mapping m d { u.setEngine l ((u.engine l).advanceSchedule d u.key (u.startBlock l j)) with
        draws := u.draws + if (u.engine l).stage = .start then 1 else 0 }
      ∧ ((u.engine l).advanceSchedule d u.key (u.startBlock l j)).work d < (u.engine l).work d := by
  have hl := lt_lanes_of_busy hi
  obtain ⟨x, hx, hw, hstart⟩ : ∃ x, (u.engine l).OnSchedule d s.key x
      ∧ (s.blockWritten j = true → x = bytesToState (s.messageBlock s.draws j))
      ∧ ((u.engine l).stage = .start → u.startBlock l j = x) := by
    cases h.engine_onMapper l with
    | resting hs _ => exact absurd hs hi
    | working j' x hb' hx hw =>
      rw [hb] at hb'
      cases hb'
      by_cases hs : (u.engine l).stage = .start
      · refine ⟨u.startBlock l j, onSchedule_start hs _, fun hwritten => ?_, fun _ => rfl⟩
        rw [State.startBlock, if_pos hs, h.internal.messageBlock h.fits, messageBlock_written hwritten]
      · exact ⟨x, hx, hw, fun hs' => absurd hs' hs⟩
  rw [h.key]
  obtain ⟨hnext, hsteps, hblk, hns, hni⟩ := advanceSchedule_onSchedule hx hr hstart
  refine ⟨h.replace hl (internal_engines _ u.seq _ (by simp) rfl rfl) rfl
    (.working j x (hblk.trans hb) hnext hw) hsolo (fun k => ?_) h.rising h.stage ?_ h.mem, ?_⟩
  · rw [holds_of_busy hi hb, holds_of_busy hni (hblk.trans hb)]
    rfl
  · simp only [State.setEngine_seq, Engine.drawn, hni, hns, hi, false_or, or_self, if_false]
    split <;> omega
  · rw [work_of_busy hi, work_of_busy hni]
    omega

/-- Writing a block adds its result to OUT_BUF (R181). -/
theorem State.Mapping.agree_writeBlock {j : Nat} (hj : j < s.blockCount) (hnew : j ∉ u.seq.written) {b : Vector Byte 8}
    (hb : s.blockWritten j = true → b = s.resultBlock d j) :
    s.AgreeOnWritten (writeBlock u.mem j b) (s.mapBlocks d (insertIndex j u.seq.written)) := by
  intro a ha
  simp only [get?_writeBlock, get?_mapBlocks, (insertIndex_perm hnew).mem_iff, List.mem_cons]
  by_cases hin : outBase + 8 * j ≤ a ∧ a < outBase + 8 * j + 8
  · have hblock : (a - outBase) / 8 = j := by omega
    have hoff : a - (outBase + 8 * j) = (a - outBase) % 8 := by omega
    rw [if_pos hin, if_pos ⟨by omega, .inl hblock⟩, hblock, hoff, hb (ha j hj hin.1 hin.2)]
  · have hsame : outBase ≤ a ∧ ((a - outBase) / 8 = j ∨ (a - outBase) / 8 ∈ u.seq.written)
        ↔ outBase ≤ a ∧ (a - outBase) / 8 ∈ u.seq.written :=
      and_congr_right fun hle => or_iff_right (by omega)
    rw [if_neg hin, h.mem a ha, get?_mapBlocks]
    simp only [hsame]

/-- The result of a lane is its block's, if that block's input has been written (R180, R181). -/
theorem State.Mapping.outputBlock_result {l j : Nat} (hb : (u.engine l).blk = some j)
    (hr : (u.engine l).stage = .result) (hw : s.blockWritten j = true) :
    u.outputBlock u.draws j (u.engine l).state = s.resultBlock d j := by
  cases h.engine_onMapper l with
  | resting hs _ => rw [hr] at hs; cases hs
  | working j' x hb' hx hx' =>
    rw [hb] at hb'
    cases hb'
    rw [outputBlock_written ((h.internal.blockWritten h.fits j).trans hw), resultBlock_written hw d s.draws,
      onSchedule_result hx hr, hx' hw]

/-- A lane with its result writes it. -/
theorem State.Mapping.write {l j : Nat} (hsolo : m = .sequential → l = 0) (hb : (u.engine l).blk = some j)
    (hr : (u.engine l).stage = .result) :
    s.Mapping m d (u.writeResult m l j (s.ecbLength (m.ecbInstr d))) := by
  have hi : (u.engine l).stage ≠ .idle := by rw [hr]; simp
  have hl := lt_lanes_of_busy hi
  have hmem : u.engine l ∈ u.engines := engine_eq_getElem hl ▸ List.getElem_mem hl
  obtain ⟨hj, hnew⟩ := h.held hmem hi hb
  have hperm := insertIndex_perm hnew
  have hinternal := internal_mapperStep m d l 0 (s.ecbLength (m.ecbInstr d)) u
  rw [mapperStep_result m d 0 _ hb hr] at hinternal
  refine h.replace hl hinternal rfl (.resting rfl ?_) hsolo (fun k => ?_) (insertIndex_rising hnew h.rising) ?_ ?_
    (h.agree_writeBlock hj hnew (h.outputBlock_result hb hr))
  · rintro rfl; rfl
  · have hcount := hperm.count_eq k
    rw [List.count_cons] at hcount
    simp only [beq_iff_eq] at hcount
    rw [holds_of_busy hi hb, holds_of_idle rfl]
    show u.seq.todo.count k + 0 + (insertIndex j u.seq.written).count k = _
    omega
  · show (if decide (insertIndex j u.seq.written = List.range u.blockCount) = true then _ else _) = _
    rw [h.internal.blockCount]
    simp only [decide_eq_true_eq]
    rfl
  · have hlen : (insertIndex j u.seq.written).length = u.seq.written.length + 1 := hperm.length_eq
    have hold : (u.engine l).drawn = 1 := by simp [Engine.drawn, hr]
    show u.draws + 1 + _ + _ = _ + 2 * (insertIndex j u.seq.written).length + Engine.drawn _
    rw [hold, hlen, Engine.drawn, if_pos (.inl rfl)]
    omega

/-- A working lane takes one step of its block, and no block changes hands but a written one. -/
theorem State.Mapping.workStep {l : Nat} (p : Nat) (hsolo : m = .sequential → l = 0) (hi : (u.engine l).stage ≠ .idle) :
    s.Mapping m d (u.mapperStep m d l p (s.ecbLength (m.ecbInstr d)))
      ∧ (u.mapperStep m d l p (s.ecbLength (m.ecbInstr d))).seq.todo = u.seq.todo
      ∧ ∃ e, (u.mapperStep m d l p (s.ecbLength (m.ecbInstr d))).engines = u.engines.set l e
        ∧ e.work d < (u.engine l).work d := by
  obtain ⟨j, hb⟩ : ∃ j, (u.engine l).blk = some j := by
    cases h.engine_onMapper l with
    | resting hs _ => exact absurd hs hi
    | working j x hb _ _ => exact ⟨j, hb⟩
  by_cases hr : (u.engine l).stage = .result
  · rw [mapperStep_result m d p _ hb hr]
    refine ⟨h.write hsolo hb hr, rfl, _, rfl, ?_⟩
    rw [work_of_idle rfl, work_of_busy hi]
    exact Nat.succ_pos _
  · rw [mapperStep_schedule m d p _ hb hi hr]
    obtain ⟨hmap, hwork⟩ := h.schedule hsolo hb hi hr
    exact ⟨hmap, rfl, _, rfl, hwork⟩

/-- A step of the mapper on lane `l`: it leaves less to do, or it was not enabled, the lane resting and TODO empty. -/
theorem State.Mapping.step {l : Nat} (p : Nat) (hl : l < u.engines.length) (hsolo : m = .sequential → l = 0) :
    (s.Mapping m d (u.mapperStep m d l p (s.ecbLength (m.ecbInstr d)))
        ∧ (u.mapperStep m d l p (s.ecbLength (m.ecbInstr d))).mapperLeft d < u.mapperLeft d)
      ∨ u.mapperStep m d l p (s.ecbLength (m.ecbInstr d)) = u ∧ (u.engine l).stage = .idle ∧ u.seq.todo = [] := by
  by_cases hi : (u.engine l).stage = .idle
  · have hblk : m = .parallel → (u.engine l).blk = none := by
      cases h.engine_onMapper l with
      | resting _ hb => exact hb
      | working j x _ hx _ => exact absurd hi (onSchedule_ne_idle hx)
    rw [mapperStep_resting m d p _ hi hblk]
    rcases takeBlock_cases l p u with ⟨ht, hstep⟩ | ⟨j, hj, hstep⟩
    · exact .inr ⟨hstep, hi, ht⟩
    · rw [hstep]
      refine .inl ⟨h.take hl hsolo hi hj, ?_⟩
      have htotal := total_set (t := u.afterTake l j) hl rfl (Engine.work d)
      have hlen : u.seq.todo.length = (u.afterTake l j).seq.todo.length + 1 := (List.perm_cons_erase hj).length_eq
      have hgiven : ((u.engine l).given j).work d ≤ 65 := by
        rw [work_of_busy (by simp [Engine.given])]
        exact Nat.succ_le_succ (stepsLeft_le (key := s.key) (x := 0) (onSchedule_start rfl _))
      rw [work_of_idle hi] at htotal
      unfold State.mapperLeft
      omega
  · obtain ⟨hmap, htodo, e, he, hwork⟩ := h.workStep p hsolo hi
    have htotal := total_set hl he (Engine.work d)
    refine .inl ⟨hmap, ?_⟩
    unfold State.mapperLeft
    rw [htodo]
    omega

end

/-- A mapper step touches no engine but its lane's. -/
theorem mapperStep_engine_ne (m : Mapper) (d : Direction) (p : Nat) (n : BitVec 32) (u : State) {l k : Nat}
    (hk : k ≠ l) : (u.mapperStep m d l p n).engine k = u.engine k := by
  have htake : (u.takeBlock l p).engine k = u.engine k := by
    rcases takeBlock_cases l p u with ⟨-, hstep⟩ | ⟨j, -, hstep⟩
    · rw [hstep]
    · rw [hstep]; exact engine_of_set rfl hk
  unfold State.mapperStep
  split
  · exact htake
  · split
    · cases m with
      | sequential => exact htake
      | parallel => rfl
    · exact engine_of_set rfl hk
    · exact engine_of_set rfl hk
    · exact engine_of_set rfl hk

end Sys2Proof.Machine
end

section
/-! SUPPORT. Where the internal steps of an accepted command byte stand between the check step and completion, and how many
are left (44_control.md R191 to R193, R195, R197). -/

namespace Sys2Proof.Machine

/-! ## An internal step by its place in the life cycle -/

theorem coreStep_waiting {s : State} (hs : s.seq.stage = .waiting) (l p : Nat) : s.coreStep l p = s := by
  unfold State.coreStep; rw [hs]

theorem coreStep_check {s : State} (hs : s.seq.stage = .check) (l p : Nat) : s.coreStep l p = s.checkStep := by
  unfold State.coreStep; rw [hs]

theorem coreStep_datapath {s : State} {i : Instr} (hs : s.seq.stage = .datapath) (hd : decode s.seq.op = .ok i)
    (l p : Nat) : s.coreStep l p = s.datapathStep i l p := by
  unfold State.coreStep; rw [hs, hd]

theorem coreStep_finish {s : State} {r : Result} (hs : s.seq.stage = .finish r) (l p : Nat) :
    s.coreStep l p = s.complete r := by
  unfold State.coreStep; rw [hs]

theorem checkStep_reserved {s : State} {e : DecodeError} (hd : decode s.seq.op = .error e) :
    s.checkStep = s.finishWith (.error .illegalCmd) := by
  unfold State.checkStep; rw [hd]

theorem checkStep_failed {s : State} {i : Instr} {c : ErrCode} (hd : decode s.seq.op = .ok i)
    (hc : s.check i = some c) : s.checkStep = s.finishWith (.error c) := by
  unfold State.checkStep; rw [hd]; simp only [hc]

theorem checkStep_passed {s : State} {i : Instr} (hd : decode s.seq.op = .ok i) (hc : s.check i = none) :
    s.checkStep = s.begin i := by
  unfold State.checkStep; rw [hd]; simp only [hc]

/-! ## Completion -/

/-- `s` with the engines `es`, and SEQ at the place `stage` of the life cycle. -/
def State.atStage (es : List Engine) (stage : SeqStage) (s : State) : State :=
  { s with engines := es, seq := { s.seq with stage := stage } }

/-- A completion releases the engines, whatever they hold. -/
theorem complete_atStage (es : List Engine) (stage : SeqStage) (r : Result) (s : State) :
    (s.atStage es stage).complete r = s.complete r := by
  cases r <;> rfl

theorem coreStep_atStage_datapath {s : State} {i : Instr} (hd : decode s.seq.op = .ok i) (es : List Engine)
    (l p : Nat) : (s.atStage es .datapath).coreStep l p = (s.atStage es .datapath).datapathStep i l p :=
  coreStep_datapath (s := s.atStage es .datapath) rfl hd l p

/-- `u` is a completed state of the command byte accepted in `s`, whose merged step ends in `t`: the two are the same but
for the bytes in OUT_BUF of the blocks with an unwritten input byte, and there are none unless an ECB command has passed
its checks (R182, R235). -/
structure State.EndsAs (s t u : State) : Prop where
  merged : s.runCommand = .next t
  completed : t.Completed
  wf : Memory.wf s.mem → Memory.wf t.mem
  same : u = { t with mem := u.mem }
  agree : s.AgreeOnWritten u.mem t.mem
  exact : (∀ i, decode s.seq.op = .ok i → isEcb i = true → s.check i ≠ none) → u = t

theorem endsAs_complete {s : State} {r : Result} (h : s.runCommand = .next (s.complete r)) :
    s.EndsAs (s.complete r) (s.complete r) where
  merged := h
  completed := completed_complete r s
  wf := by rw [State.complete_mem]; exact id
  same := rfl
  agree := fun _ _ => rfl
  exact := fun _ => rfl

section
variable {s t u : State} (h : s.EndsAs t u)
include h

theorem State.EndsAs.seq : u.seq = t.seq := by rw [h.same]

theorem State.EndsAs.phase : u.seq.phase = .idle := h.seq ▸ h.completed.phase

theorem State.EndsAs.stage : u.seq.stage = .waiting := h.seq ▸ h.completed.stage

theorem State.EndsAs.coreStep (l p : Nat) : u.coreStep l p = u := coreStep_waiting h.stage l p

theorem State.EndsAs.coreSteps (cs : List (Nat × Nat)) : u.coreSteps cs = u :=
  coreSteps_induct (P := fun v => v = u) (fun _ l p hv => hv ▸ h.coreStep l p) cs u rfl

end

/-! ## Commands without a mapper -/

/-- `s.Prompt n u`: of a command byte accepted in `s` that the mapper has no part in, or whose mapper is done, `u` is a
state after the check step with at most `n` steps left, each of them enabled whatever lane and block it picks. -/
inductive State.Prompt (s : State) : Nat → State → Prop
  | keyed {k : Key} (hd : decode s.seq.op = .ok .loadkey) (hk : s.keyOperand = .ok k)
      (hrun : s.runCommand = .next (s.complete (.key k))) : Prompt s 2 (s.atStage s.engines .datapath)
  | block {d : Direction} {e : Engine} (hd : decode s.seq.op = .ok d.blockInstr)
      (hrun : s.runCommand = .next (s.complete (.block (stateToBytes (blockCipher d s.blockOperand s.key)))))
      (he : e.OnSchedule d s.key s.blockOperand) (hs : e.stage ≠ .result) :
      Prompt s (e.stepsLeft d + 1) (s.atStage (s.engines.set 0 e) .datapath)
  | finishing {es : List Engine} {r : Result} (hrun : s.runCommand = .next (s.complete r)) :
      Prompt s 1 (s.atStage es (.finish r))
  | ended {t u : State} (h : s.EndsAs t u) : Prompt s 0 u

theorem datapathStep_blockInstr (d : Direction) (s : State) (l p : Nat) :
    s.datapathStep d.blockInstr l p = s.blockStep d := by
  cases d <;> rfl

/-- A step of ENCB or DECB: E[0] advances, and its result is the block to commit (R163, R164). -/
theorem blockStep_atStage {s : State} (h0 : 0 < s.engines.length) (d : Direction) {e e' : Engine}
    (he : e' = e.advanceSchedule d s.key s.blockOperand) :
    (s.atStage (s.engines.set 0 e) .datapath).blockStep d = s.atStage (s.engines.set 0 e')
      (if e'.stage = .result then .finish (.block (stateToBytes e'.state)) else .datapath) := by
  have hengine : (s.atStage (s.engines.set 0 e) .datapath).engine 0 = e := engine_of_set_self h0 rfl
  have hset : (s.engines.set 0 e).set 0 e' = s.engines.set 0 e' := List.set_set e
  have hadvance : ((s.atStage (s.engines.set 0 e) .datapath).engine 0).advanceSchedule d
      (s.atStage (s.engines.set 0 e) .datapath).key (s.atStage (s.engines.set 0 e) .datapath).blockOperand = e' := by
    rw [hengine, he]; rfl
  unfold State.blockStep
  rw [hadvance]
  by_cases hr : e'.stage = .result
  · simp only [if_pos hr, State.setEngine, State.atStage, hset]
  · simp only [if_neg hr, State.setEngine, State.atStage, hset]

/-- Each step of such a command is enabled until it has completed (R197). -/
theorem State.Prompt.step {s u : State} {n : Nat} (ha : s.Accepted) (h : s.Prompt n u) (hn : n ≠ 0) (l p : Nat) :
    ∃ k, k < n ∧ s.Prompt k (u.coreStep l p) := by
  cases h with
  | ended _ => exact absurd rfl hn
  | finishing hrun =>
    rw [coreStep_finish rfl, complete_atStage]
    exact ⟨0, Nat.one_pos, .ended (endsAs_complete hrun)⟩
  | @keyed k hd hk hrun =>
    rw [coreStep_atStage_datapath hd]
    have hstep : (s.atStage s.engines .datapath).datapathStep .loadkey l p = s.atStage s.engines (.finish (.key k)) := by
      show (s.atStage s.engines .datapath).keyStep = _
      unfold State.keyStep
      rw [show (s.atStage s.engines .datapath).keyOperand = _ from hk]; rfl
    rw [hstep]
    exact ⟨1, Nat.one_lt_two, .finishing hrun⟩
  | @block d e hd hrun he hs =>
    have h0 : 0 < s.engines.length := ha.engines ▸ one_le_nLanes s.cfg
    obtain ⟨hnext, hsteps, -⟩ := advanceSchedule_onSchedule he hs fun _ => rfl
    rw [coreStep_atStage_datapath hd, datapathStep_blockInstr, blockStep_atStage h0 d rfl]
    by_cases hr : (e.advanceSchedule d s.key s.blockOperand).stage = .result
    · rw [if_pos hr, onSchedule_result hnext hr]
      exact ⟨1, by omega, .finishing hrun⟩
    · rw [if_neg hr]
      exact ⟨_, by omega, .block hd hrun hnext hr⟩

/-- A block command takes at most 64 steps of its engine (R197). -/
theorem State.Prompt.le {s u : State} {n : Nat} (h : s.Prompt n u) : n ≤ 65 := by
  cases h with
  | block _ _ he _ => exact Nat.succ_le_succ (stepsLeft_le he)
  | keyed _ _ _ => decide
  | finishing _ => decide
  | ended _ => decide

/-- With more than two steps left it is a block command, whose engine works. -/
theorem State.Prompt.busy {s u : State} {n : Nat} (ha : s.Accepted) (h : s.Prompt n u) (hn : 2 < n) :
    (u.engine 0).stage ≠ .idle := by
  cases h with
  | @block d e _ _ he _ =>
    have h0 : 0 < s.engines.length := ha.engines ▸ one_le_nLanes s.cfg
    rw [engine_of_set_self (t := s.atStage (s.engines.set 0 e) .datapath) h0 rfl]
    exact onSchedule_ne_idle he
  | keyed _ _ _ => omega
  | finishing _ => omega
  | ended _ => omega

/-! ## ECB commands -/

/-- The lane a step of the mapper works on, and the place in TODO it takes from (R179, R180). -/
def Mapper.lane (m : Mapper) (c : Config) (l : Nat) : Nat :=
  match m with
  | .sequential => 0
  | .parallel => l % c.nLanes

def Mapper.pick (m : Mapper) (p : Nat) : Nat :=
  match m with
  | .sequential => 0
  | .parallel => p

theorem datapathStep_ecbInstr (m : Mapper) (d : Direction) (s : State) (l p : Nat) :
    s.datapathStep (m.ecbInstr d) l p
      = s.mapperStep m d (m.lane s.cfg l) (m.pick p) (s.ecbLength (m.ecbInstr d)) := by
  cases m <;> cases d <;> rfl

theorem lane_lt (m : Mapper) (c : Config) (l : Nat) : m.lane c l < c.nLanes := by
  cases m with
  | sequential => exact one_le_nLanes c
  | parallel => exact Nat.mod_lt _ (one_le_nLanes c)

theorem lane_zero (m : Mapper) (c : Config) : m.lane c 0 = 0 := by
  cases m with
  | sequential => rfl
  | parallel => exact Nat.zero_mod _

theorem idle_engine {s : State} (h : ∀ e ∈ s.engines, e.stage = .idle) (l : Nat) : (s.engine l).stage = .idle := by
  rcases engine_mem s l with hm | he
  · exact h _ hm
  · rw [he]; rfl

theorem idle_of_engine {s : State} (h : ∀ l, (s.engine l).stage = .idle) : ∀ e ∈ s.engines, e.stage = .idle := by
  intro e he
  obtain ⟨l, hl, rfl⟩ := List.mem_iff_getElem.mp he
  rw [← engine_eq_getElem hl]
  exact h l

/-- After the check step every block of the message is in TODO and every lane rests (R180). -/
theorem mapping_beginMapper {m : Mapper} {d : Direction} {s : State} (ha : s.Accepted)
    (hd : decode s.seq.op = .ok (m.ecbInstr d)) (hc : s.check (m.ecbInstr d) = none) :
    s.Mapping m d (s.beginMapper (s.ecbLength (m.ecbInstr d)))
      ∧ (s.beginMapper (s.ecbLength (m.ecbInstr d))).OnlyLane0
      ∧ (s.beginMapper (s.ecbLength (m.ecbInstr d))).mapperLeft d = 66 * s.blockCount := by
  have he := isEcb_ecbInstr m d
  obtain ⟨htodo, hwritten⟩ : s.seq.todo = List.range s.blockCount ∧ s.seq.written = [] :=
    ha.blocks _ (mapperBlocks_eq_some.mpr ⟨_, hd, he, hc, rfl⟩)
  have hidle : ∀ e ∈ (s.beginMapper (s.ecbLength (m.ecbInstr d))).engines, e.blk = none ∧ e.stage = .idle := by
    intro e hmem
    obtain ⟨e', -, rfl⟩ := List.mem_map.mp hmem
    exact ⟨rfl, rfl⟩
  have hzero : ∀ f : Engine → Nat, (∀ e, e.stage = .idle → f e = 0) →
      (s.beginMapper (s.ecbLength (m.ecbInstr d))).total f = 0 :=
    fun f hf => total_eq_zero fun e hmem => hf e (hidle e hmem).2
  have hlane0 : (s.beginMapper (s.ecbLength (m.ecbInstr d))).OnlyLane0 :=
    fun l _ => idle_engine (fun e hmem => (hidle e hmem).2) l
  refine ⟨⟨hc, hd, begin_ecb s he ▸ internal_begin _ s, ?_, fun e hmem => ?_, fun _ => hlane0, fun j => ?_, ?_, ?_, ?_,
    ?_⟩, hlane0, ?_⟩
  · exact (List.length_map _).trans ha.engines
  · exact .resting (hidle e hmem).2 fun _ => (hidle e hmem).1
  · rw [hzero _ fun e hs => holds_of_idle hs j]
    show s.seq.todo.count j + 0 + s.seq.written.count j = _
    rw [htodo, hwritten, List.count_range]; simp
  · show s.seq.written.Pairwise _
    rw [hwritten]; exact .nil
  · show (if s.blockCount = 0 then _ else _) = if s.seq.written = _ then _ else _
    simp only [hwritten, eq_comm (a := ([] : List Nat)), List.range_eq_nil]
  · rw [hzero _ fun e hs => drawn_of_idle hs]
    show s.draws = s.draws + 2 * s.seq.written.length + 0
    rw [hwritten]; rfl
  · show s.AgreeOnWritten s.mem (s.mapBlocks d s.seq.written)
    rw [hwritten]
    exact fun _ _ => rfl
  · rw [State.mapperLeft, hzero _ fun e hs => work_of_idle hs]
    show 66 * s.seq.todo.length + 0 = _
    rw [htodo, List.length_range]; rfl

section
variable {m : Mapper} {d : Direction} {s u : State} (h : s.Mapping m d u)
include h

theorem State.Mapping.coreStep (hs : u.seq.stage = .datapath) (l p : Nat) :
    u.coreStep l p = u.mapperStep m d (m.lane u.cfg l) (m.pick p) (s.ecbLength (m.ecbInstr d)) := by
  have hlen : u.len = s.len := by rw [h.internal.same]
  rw [coreStep_datapath hs (h.internal.op ▸ h.decoded), datapathStep_ecbInstr, ecbLength_congr hlen]

theorem State.Mapping.stage_cases :
    u.seq.stage = .datapath
      ∨ u.seq.written = List.range s.blockCount ∧ u.seq.stage = .finish (.length (s.ecbLength (m.ecbInstr d))) := by
  have hs := h.stage
  split at hs
  · exact .inr ⟨‹_›, hs⟩
  · exact .inl hs

/-- The mapper is done: the completion ends as the merged step does, whatever the schedule was (R182). -/
theorem State.Mapping.endsAs (ha : s.Accepted) (hw : u.seq.written = List.range s.blockCount)
    (hs : u.seq.stage = .finish (.length (s.ecbLength (m.ecbInstr d)))) :
    s.EndsAs ((s.runMapper d (m.order s)).complete (.length (s.ecbLength (m.ecbInstr d))))
      (u.complete (.length (s.ecbLength (m.ecbInstr d)))) := by
  obtain ⟨htodo, hidle⟩ := h.finished hw
  have hdraws : u.draws = s.draws + 2 * s.blockCount := by
    have hd := h.draws
    rwa [total_eq_zero fun e he => drawn_of_idle (hidle e he), hw, List.length_range] at hd
  have hseq : u.seq = ⟨s.seq.phase, s.seq.op, [], List.range s.blockCount,
      .finish (.length (s.ecbLength (m.ecbInstr d)))⟩ := by
    rw [← h.internal.phase, ← h.internal.op, ← htodo, ← hw, ← hs]
  constructor
  case merged =>
    rw [runCommand_decoded ha.phase ha.stage h.decoded, exec_eq, h.passed, committed_ecbInstr]
  case completed => exact completed_complete _ _
  case wf => exact fun hwf => mapBlocks_wf hwf d _
  case same =>
    rw [h.internal.same, hseq, hdraws]; rfl
  case agree =>
    intro a ha'
    show Memory.get? u.mem a = Memory.get? (s.mapBlocks d (m.order s)) a
    rw [h.mem a ha', get?_mapBlocks, get?_mapBlocks]
    simp only [hw, List.mem_range, mem_order]
  case exact => exact fun hno => absurd h.passed (hno _ h.decoded (isEcb_ecbInstr m d))

end

/-! ## Any command -/

/-- `s.Started n u`: `u` is a state after the check step of the command byte accepted in `s`, with at most `n` steps
left. -/
inductive State.Started (s : State) : Nat → State → Prop
  | prompt {n : Nat} {u : State} (h : s.Prompt n u) : Started s n u
  | mapping {m : Mapper} {d : Direction} {u : State} (h : s.Mapping m d u) : Started s (u.mapperLeft d + 1) u

/-- The same, with no lane but lane 0 at work for the mapper: then the steps of lane 0 are enabled to the end. -/
inductive State.StartedOnLane0 (s : State) : Nat → State → Prop
  | prompt {n : Nat} {u : State} (h : s.Prompt n u) : StartedOnLane0 s n u
  | mapping {m : Mapper} {d : Direction} {u : State} (h : s.Mapping m d u) (hl : u.OnlyLane0) :
      StartedOnLane0 s (u.mapperLeft d + 1) u

theorem State.StartedOnLane0.started {s u : State} {n : Nat} (h : s.StartedOnLane0 n u) : s.Started n u := by
  cases h with
  | prompt h => exact .prompt h
  | mapping h _ => exact .mapping h

theorem stepBound_failed (i : Instr) (n : Nat) : stepBound i true n = 3 := by cases i <;> rfl

theorem stepBound_ecbInstr (m : Mapper) (d : Direction) (n : Nat) : stepBound (m.ecbInstr d) false n = 66 * n + 2 := by
  cases m <;> cases d <;> rfl

theorem keyv_of_checkBlock {s : State} (h : s.checkBlock = none) : s.status.keyv = true := by
  by_contra hk
  rw [State.checkBlock, if_neg hk] at h
  cases h

/-- ENCB or DECB after its check: E[0] is about to START (R165, R166). -/
theorem started_beginBlock {s : State} {d : Direction} (ha : s.Accepted) (hd : decode s.seq.op = .ok d.blockInstr)
    (hc : s.checkBlock = none) : ∃ k, k + 1 ≤ 66 ∧ s.StartedOnLane0 k s.beginBlock := by
  have hrun := (runCommand_decoded ha.phase ha.stage hd).trans (exec_blockInstr d (keyv_of_checkBlock hc))
  have hstart := onSchedule_start (d := d) (key := s.key) (e := { s.engine 0 with blk := none, stage := .start }) rfl
    s.blockOperand
  exact ⟨_, Nat.succ_le_succ (Nat.succ_le_succ (stepsLeft_le hstart)), .prompt (.block hd hrun hstart (by simp))⟩

/-- What a command has left once its checks have passed is within its bound (R197). -/
theorem started_begin {s : State} {i : Instr} (ha : s.Accepted) (hd : decode s.seq.op = .ok i)
    (hc : s.check i = none) : ∃ k, k + 1 ≤ stepBound i false s.blockCount ∧ s.StartedOnLane0 k (s.begin i) := by
  have hrun := (runCommand_decoded ha.phase ha.stage hd).trans (exec_eq i s)
  rw [hc] at hrun
  cases he : isEcb i with
  | true =>
    obtain ⟨m, d, rfl⟩ := exists_ecbInstr he
    obtain ⟨hmap, hlane0, hleft⟩ := mapping_beginMapper ha hd hc
    rw [begin_ecb s he, stepBound_ecbInstr]
    exact ⟨_, by rw [hleft], .mapping hmap hlane0⟩
  | false =>
    rcases not_isEcb_cases he with rfl | rfl | rfl | rfl
    · exact ⟨1, (by decide : 2 ≤ 3), .prompt (.finishing hrun)⟩
    · cases hk : s.keyOperand with
      | error c => simp [State.check, State.checkLoadkey, hk] at hc
      | ok k => exact ⟨2, Nat.le_refl 3, .prompt (.keyed hd hk (by rw [hrun]; simp [State.committed, hk]))⟩
    · exact started_beginBlock (d := .enc) ha hd hc
    · exact started_beginBlock (d := .dec) ha hd hc

/-- The check step of a command byte just accepted: what it then has left is within its bound (R191, R197). -/
theorem started_first {s : State} (ha : s.Accepted) (l p : Nat) :
    ∃ k, k + 1 ≤ s.stepsAllowed ∧ s.StartedOnLane0 k (s.coreStep l p) := by
  rw [coreStep_check ha.stage]
  unfold State.stepsAllowed
  cases hd : decode s.seq.op with
  | error e =>
    rw [checkStep_reserved hd]
    exact ⟨1, (by decide : 2 ≤ 3), .prompt (.finishing (runCommand_reserved ha.phase ha.stage hd))⟩
  | ok i =>
    dsimp only
    cases hc : s.check i with
    | none =>
      rw [checkStep_passed hd hc]
      exact started_begin ha hd hc
    | some c =>
      have hrun := (runCommand_decoded ha.phase ha.stage hd).trans (exec_eq i s)
      rw [hc] at hrun
      rw [checkStep_failed hd hc, Option.isSome_some, stepBound_failed]
      exact ⟨1, by decide, .prompt (.finishing (r := .error c) hrun)⟩

section
variable {s u : State} {n : Nat} (ha : s.Accepted)
include ha

/-- A step leaves less to do, or it was not enabled. -/
theorem State.Started.step (h : s.Started n u) (l p : Nat) :
    u.coreStep l p = u ∨ ∃ k, k < n ∧ s.Started k (u.coreStep l p) := by
  cases h with
  | prompt h =>
    by_cases hn : n = 0
    · subst hn
      cases h with
      | ended h => exact .inl (h.coreStep l p)
    · obtain ⟨k, hk, hnext⟩ := h.step ha hn l p
      exact .inr ⟨k, hk, .prompt hnext⟩
  | @mapping m d _ h =>
    rcases h.stage_cases with hs | ⟨hw, hs⟩
    · rw [h.coreStep hs]
      have hl : m.lane u.cfg l < u.engines.length := h.lanes ▸ lane_lt m u.cfg l
      rcases h.step (m.pick p) hl (by rintro rfl; rfl) with ⟨hmap, hlt⟩ | ⟨hstep, -⟩
      · exact .inr ⟨_, Nat.succ_lt_succ hlt, .mapping hmap⟩
      · exact .inl hstep
    · rw [coreStep_finish hs]
      exact .inr ⟨0, Nat.succ_pos _, .prompt (.ended (h.endsAs ha hw hs))⟩

/-- While only lane 0 works its step is enabled: with TODO empty and every lane at rest the mapper would be done. -/
theorem State.StartedOnLane0.step (h : s.StartedOnLane0 n u) (hn : n ≠ 0) (p : Nat) :
    ∃ k, k < n ∧ s.StartedOnLane0 k (u.coreStep 0 p) := by
  cases h with
  | prompt h =>
    obtain ⟨k, hk, hnext⟩ := h.step ha hn 0 p
    exact ⟨k, hk, .prompt hnext⟩
  | @mapping m d _ h hlane0 =>
    rcases h.stage_cases with hs | ⟨hw, hs⟩
    · rw [h.coreStep hs, lane_zero]
      have hl : 0 < u.engines.length := h.lanes ▸ one_le_nLanes u.cfg
      rcases h.step (m.pick p) hl (fun _ => rfl) with ⟨hmap, hlt⟩ | ⟨-, hrest, htodo⟩
      · refine ⟨_, Nat.succ_lt_succ hlt, .mapping hmap fun l hne => ?_⟩
        rw [mapperStep_engine_ne _ _ _ _ _ hne]
        exact hlane0 l hne
      · have hidle : ∀ l, (u.engine l).stage = .idle := fun l => by
          by_cases hl0 : l = 0
          · rw [hl0]; exact hrest
          · exact hlane0 l hl0
        have hfull := h.written_full htodo (idle_of_engine hidle)
        rw [h.stage, if_pos hfull] at hs
        cases hs
    · rw [coreStep_finish hs]
      exact ⟨0, Nat.succ_pos _, .prompt (.ended (h.endsAs ha hw hs))⟩

/-- PHASE = IDLE means that the command has ended as its merged step does. -/
theorem State.Started.ended (h : s.Started n u) (hp : u.seq.phase = .idle) : ∃ t, s.EndsAs t u := by
  have hrun := ha.phase
  cases h with
  | mapping h => rw [h.internal.phase, hrun] at hp; cases hp
  | prompt h =>
    cases h with
    | ended h => exact ⟨_, h⟩
    | keyed _ _ _ => exact absurd (hrun.symm.trans hp) (by simp)
    | block _ _ _ _ => exact absurd (hrun.symm.trans hp) (by simp)
    | finishing _ => exact absurd (hrun.symm.trans hp) (by simp)

omit ha in
theorem State.Started.ended_of_zero (h : s.Started 0 u) : ∃ t, s.EndsAs t u := by
  cases h with
  | prompt h =>
    cases h with
    | ended h => exact ⟨_, h⟩

omit ha in
theorem State.Started.stage_ne_check (h : s.Started n u) : u.seq.stage ≠ .check := by
  cases h with
  | mapping h => rcases h.stage_cases with hs | ⟨-, hs⟩ <;> rw [hs] <;> simp
  | prompt h =>
    cases h with
    | ended h => rw [h.stage]; simp
    | keyed _ _ _ => simp [State.atStage]
    | block _ _ _ _ => simp [State.atStage]
    | finishing _ => simp [State.atStage]

theorem State.Started.coreSteps (h : s.Started n u) (cs : List (Nat × Nat)) : ∃ k, s.Started k (u.coreSteps cs) := by
  refine coreSteps_induct (P := fun v => ∃ k, s.Started k v) (fun v l p ⟨k, hv⟩ => ?_) cs u ⟨n, h⟩
  rcases hv.step ha l p with hstep | ⟨k', -, hnext⟩
  · rw [hstep]; exact ⟨k, hv⟩
  · exact ⟨k', hnext⟩

end

end Sys2Proof.Machine
end

section
/-! SUPPORT. Schedules of internal steps from acceptance to completion, and the merged step in mid-command (44_control.md
R191, R192, R195, R197): obligations O42, O43 and O44. -/

namespace Sys2Proof.Machine

/-! ## Schedules (R192, R197) -/

section
variable {s : State} (ha : s.Accepted)
include ha

/-- Steps that are all enabled are no more than those left. -/
theorem State.Started.length_le {u : State} {n : Nat} (h : s.Started n u) {cs : List (Nat × Nat)}
    (hcs : ∀ k, k < cs.length → u.coreSteps (cs.take (k + 1)) ≠ u.coreSteps (cs.take k)) : cs.length ≤ n := by
  induction cs generalizing u n with
  | nil => exact Nat.zero_le n
  | cons c cs ih =>
    rcases h.step ha c.1 c.2 with hstep | ⟨k, hk, hnext⟩
    · exact absurd hstep (hcs 0 (Nat.succ_pos _))
    · exact (Nat.succ_le_succ (ih hnext fun j hj => hcs (j + 1) (Nat.succ_lt_succ hj))).trans hk

/-- As many steps as are left, each enabled until PHASE = IDLE, complete the command. -/
theorem State.Started.idle_of_length_le {u : State} {n : Nat} (h : s.Started n u) {cs : List (Nat × Nat)}
    (hcs : ∀ k, k < cs.length → (u.coreSteps (cs.take k)).seq.phase = .idle
      ∨ u.coreSteps (cs.take (k + 1)) ≠ u.coreSteps (cs.take k)) (hn : n ≤ cs.length) :
    (u.coreSteps cs).seq.phase = .idle := by
  induction cs generalizing u n with
  | nil =>
    obtain rfl := Nat.le_zero.mp hn
    obtain ⟨t, ht⟩ := h.ended_of_zero
    exact ht.phase
  | cons c cs ih =>
    rcases hcs 0 (Nat.succ_pos _) with hp | hstep
    · obtain ⟨t, ht⟩ := h.ended ha hp
      rw [ht.coreSteps]
      exact ht.phase
    · rcases h.step ha c.1 c.2 with hsame | ⟨k, hk, hnext⟩
      · exact absurd hsame hstep
      · exact ih hnext (fun j hj => hcs (j + 1) (Nat.succ_lt_succ hj)) (Nat.le_of_lt_succ (hk.trans_le hn))

/-- Steps of lane 0 are enabled as long as no other lane works. -/
theorem State.StartedOnLane0.idle_of_le {u : State} {n f : Nat} (h : s.StartedOnLane0 n u) (hn : n ≤ f) :
    (u.coreSteps (List.replicate f (0, 0))).seq.phase = .idle := by
  induction f generalizing u n with
  | zero =>
    obtain rfl := Nat.le_zero.mp hn
    obtain ⟨t, ht⟩ := h.started.ended_of_zero
    exact ht.phase
  | succ f ih =>
    by_cases h0 : n = 0
    · subst h0
      obtain ⟨t, ht⟩ := h.started.ended_of_zero
      rw [ht.coreSteps]
      exact ht.phase
    · obtain ⟨k, hk, hnext⟩ := h.step ha h0 0
      exact ih hnext (Nat.le_of_lt_succ (hk.trans_le hn))

theorem State.StartedOnLane0.finishOnLane0_idle {u : State} {n f : Nat} (h : s.StartedOnLane0 n u) (hn : n ≤ f) :
    (u.finishOnLane0 f).seq.phase = .idle := by
  induction f generalizing u n with
  | zero =>
    obtain rfl := Nat.le_zero.mp hn
    obtain ⟨t, ht⟩ := h.started.ended_of_zero
    exact ht.phase
  | succ f ih =>
    unfold State.finishOnLane0
    by_cases hp : u.seq.phase = .idle
    · rw [if_pos hp]; exact hp
    · rw [if_neg hp]
      have h0 : n ≠ 0 := by
        rintro rfl
        obtain ⟨t, ht⟩ := h.started.ended_of_zero
        exact hp ht.phase
      obtain ⟨k, hk, hnext⟩ := h.step ha h0 0
      exact ih hnext (Nat.le_of_lt_succ (hk.trans_le hn))

/-- The whole schedule of a command byte: none, or the check step and what comes after it. -/
theorem started_coreSteps {cs : List (Nat × Nat)} (hcs : cs ≠ []) : ∃ n, s.Started n (s.coreSteps cs) := by
  cases cs with
  | nil => exact absurd rfl hcs
  | cons c cs =>
    obtain ⟨k, -, hfirst⟩ := started_first ha c.1 c.2
    exact hfirst.started.coreSteps ha cs

/-! ## The lanes finish the blocks they hold -/

theorem State.Prompt.drainLane {u : State} {n : Nat} (h : s.Prompt n u) (l f : Nat) :
    ∃ k, k ≤ n ∧ s.Prompt k (u.drainLane l f) := by
  induction f generalizing u n with
  | zero => exact ⟨n, Nat.le_refl n, h⟩
  | succ f ih =>
    unfold State.drainLane
    split
    · exact ⟨n, Nat.le_refl n, h⟩
    · by_cases h0 : n = 0
      · subst h0
        cases h with
        | ended ht => rw [ht.coreStep]; exact ih (.ended ht)
      · obtain ⟨k, hk, hnext⟩ := h.step ha h0 l 0
        obtain ⟨k', hk', hend⟩ := ih hnext
        exact ⟨k', hk'.trans hk.le, hend⟩

/-- On lane 0 it finishes the block of ENCB or DECB. -/
theorem State.Prompt.drainLane0 {u : State} {n f : Nat} (h : s.Prompt n u) (hf : n ≤ f + 2) :
    ∃ k, k ≤ 2 ∧ s.Prompt k (u.drainLane 0 f) := by
  induction f generalizing u n with
  | zero => exact ⟨n, hf, h⟩
  | succ f ih =>
    by_cases h2 : n ≤ 2
    · obtain ⟨k, hk, hend⟩ := h.drainLane ha 0 (f + 1)
      exact ⟨k, hk.trans h2, hend⟩
    · unfold State.drainLane
      rw [if_neg (h.busy ha (Nat.lt_of_not_le h2))]
      obtain ⟨k, hk, hnext⟩ := h.step ha (by omega) 0 0
      exact ih hnext (by omega)

theorem State.Prompt.drainList {u : State} {n : Nat} (h : s.Prompt n u) (ls : List Nat) :
    ∃ k, k ≤ n ∧ s.Prompt k (ls.foldl (fun t l => t.drainLane l 65) u) := by
  induction ls generalizing u n with
  | nil => exact ⟨n, Nat.le_refl n, h⟩
  | cons l ls ih =>
    obtain ⟨k, hk, hnext⟩ := h.drainLane ha l 65
    obtain ⟨k', hk', hend⟩ := ih hnext
    exact ⟨k', hk'.trans hk, hend⟩

/-- Lane 0 is the first to finish its block. -/
theorem State.Prompt.drainLanes {u : State} {n : Nat} (h : s.Prompt n u) :
    ∃ k, k ≤ 2 ∧ s.Prompt k u.drainLanes := by
  have hle := h.le
  unfold State.drainLanes Config.nLanes
  rw [List.range_succ_eq_map, List.foldl_cons]
  obtain ⟨k, hk, hnext⟩ := h.drainLane0 ha (f := 65) (by omega)
  obtain ⟨k', hk', hend⟩ := hnext.drainList ha _
  exact ⟨k', hk'.trans hk, hend⟩

omit ha

/-- A lane with at most `f` steps of its block left finishes it in `f` steps, and the other lanes keep theirs. -/
theorem State.Mapping.drainLane {m : Mapper} {d : Direction} {u : State} {l f : Nat} (h : s.Mapping m d u)
    (hf : (u.engine l).work d ≤ f) :
    s.Mapping m d (u.drainLane l f) ∧ ((u.drainLane l f).engine l).stage = .idle
      ∧ ∀ k, k ≠ l → (u.drainLane l f).engine k = u.engine k := by
  induction f generalizing u with
  | zero =>
    refine ⟨h, ?_, fun _ _ => rfl⟩
    by_contra hi
    exact absurd ((work_of_busy hi).symm.trans (Nat.le_zero.mp hf)) (Nat.succ_ne_zero _)
  | succ f ih =>
    unfold State.drainLane
    by_cases hi : (u.engine l).stage = .idle
    · rw [if_pos hi]; exact ⟨h, hi, fun _ _ => rfl⟩
    · have hl := lt_lanes_of_busy hi
      have hsolo : m = .sequential → l = 0 := fun hm => by
        by_contra hne
        exact hi (h.solo hm l hne)
      have hlane : m.lane u.cfg l = l := by
        cases m with
        | sequential => exact (hsolo rfl).symm
        | parallel => exact Nat.mod_eq_of_lt (h.lanes ▸ hl)
      have hstage : u.seq.stage = .datapath := by
        rcases h.stage_cases with hs | ⟨hw, -⟩
        · exact hs
        · exact absurd (idle_engine (h.finished hw).2 l) hi
      rw [if_neg hi, h.coreStep hstage, hlane]
      obtain ⟨hmap, -, e, he, hwork⟩ := h.workStep (m.pick 0) hsolo hi
      have hf' := engine_of_set_self hl he ▸ hwork
      obtain ⟨hend, hidle, hothers⟩ := ih hmap (by omega)
      exact ⟨hend, hidle, fun k hk => (hothers k hk).trans (mapperStep_engine_ne _ _ _ _ _ hk)⟩

theorem State.Mapping.work_le {m : Mapper} {d : Direction} {u : State} (h : s.Mapping m d u) (l : Nat) :
    (u.engine l).work d ≤ 65 := by
  cases h.engine_onMapper l with
  | resting hs _ => rw [work_of_idle hs]; exact Nat.zero_le _
  | working j x _ hx _ =>
    rw [work_of_busy (onSchedule_ne_idle hx)]
    exact Nat.succ_le_succ (stepsLeft_le hx)

/-- Draining a list of lanes leaves them at rest, and those that rested. -/
theorem State.Mapping.drainList {m : Mapper} {d : Direction} {u : State} (h : s.Mapping m d u) (ls : List Nat) :
    s.Mapping m d (ls.foldl (fun t l => t.drainLane l 65) u)
      ∧ ∀ k, k ∈ ls ∨ (u.engine k).stage = .idle →
        ((ls.foldl (fun t l => t.drainLane l 65) u).engine k).stage = .idle := by
  induction ls generalizing u with
  | nil => exact ⟨h, fun k hk => hk.resolve_left List.not_mem_nil⟩
  | cons l ls ih =>
    obtain ⟨hnext, hidle, hothers⟩ := h.drainLane (h.work_le l)
    obtain ⟨hend, hrest⟩ := ih hnext
    refine ⟨hend, fun k hk => hrest k ?_⟩
    by_cases hkl : k = l
    · exact .inr (hkl ▸ hidle)
    · rw [hothers k hkl]
      exact hk.imp_left fun hmem => (List.mem_cons.mp hmem).resolve_left hkl

/-- Lanes beyond the last rest, and the others are drained. -/
theorem State.Mapping.drainLanes {m : Mapper} {d : Direction} {u : State} (h : s.Mapping m d u) :
    s.Mapping m d u.drainLanes ∧ ∀ l, (u.drainLanes.engine l).stage = .idle := by
  obtain ⟨hend, hrest⟩ := h.drainList (List.range u.cfg.nLanes)
  refine ⟨hend, fun l => hrest l ?_⟩
  by_cases hi : (u.engine l).stage = .idle
  · exact .inr hi
  · exact .inl (List.mem_range.mpr (h.lanes ▸ lt_lanes_of_busy hi))

include ha in
/-- The merged step in mid-command completes it (R192, R197). -/
theorem State.Started.finishCommand_idle {u : State} {n : Nat} (h : s.Started n u) :
    u.finishCommand.seq.phase = .idle := by
  unfold State.finishCommand
  cases h with
  | prompt h =>
    obtain ⟨k, hk, hend⟩ := h.drainLanes ha
    exact StartedOnLane0.finishOnLane0_idle ha (.prompt hend) (by omega)
  | @mapping m d _ h =>
    obtain ⟨hend, hrest⟩ := h.drainLanes
    refine StartedOnLane0.finishOnLane0_idle ha (.mapping hend fun l _ => hrest l) ?_
    have hwork : u.drainLanes.total (Engine.work d) = 0 :=
      total_eq_zero fun e he => work_of_idle (idle_of_engine hrest e he)
    unfold State.mapperLeft
    omega

end

/-! ## The events of a schedule -/

theorem ready_coreSteps {s : State} (hs : s.Ready) (cs : List (Nat × Nat)) : (s.coreSteps cs).Ready := by
  refine coreSteps_induct (P := State.Ready) (fun u l p hu => ?_) cs s hs
  rcases coreStep_cases l p u with ⟨r, -, hstep⟩ | hi
  · rw [hstep]
    exact ⟨(State.complete_rst r u).trans hu.rstLow, (State.complete_resetSeen r u).trans hu.resetSeen⟩
  · exact ⟨by rw [hi.same]; exact hu.rstLow, by rw [hi.same]; exact hu.resetSeen⟩

theorem memWf_coreSteps {s : State} (hw : Memory.wf s.mem) (cs : List (Nat × Nat)) :
    Memory.wf (s.coreSteps cs).mem := by
  refine coreSteps_induct (P := fun u => Memory.wf u.mem) (fun u l p hu => ?_) cs s hw
  rcases coreStep_cases l p u with ⟨r, -, hstep⟩ | hi
  · rw [hstep, State.complete_mem]; exact hu
  · exact hi.wf hu

/-- A message whose bytes have all been written has no unwritten block (R235). -/
theorem blockWritten_of_messageWritten {s : State} (h : s.MessageWritten) (j : Nat) : s.blockWritten j = true :=
  (blockWritten_iff s j).mpr fun _ _ hlt => h _ hlt

/-! ## The obligations -/

/-- Settles O42: whatever the choices, the schedule is one of `State.Started`, and such a schedule ends as the merged step
does (`State.EndsAs`). -/
theorem everyScheduleEndsInMergedState : Obligations.EveryScheduleEndsInMergedState := by
  intro s choices hs ha hwf hp
  have hne : choices ≠ [] := by
    rintro rfl
    exact absurd (ha.phase.symm.trans hp) (by simp)
  obtain ⟨n, hstarted⟩ := started_coreSteps ha hne
  obtain ⟨t, ht⟩ := hstarted.ended ha hp
  refine ⟨t, (step_run hs).trans ht.merged, ht.same, ht.agree, fun hwritten => ?_⟩
  by_cases hecb : ∃ i, decode s.seq.op = .ok i ∧ isEcb i = true ∧ s.check i = none
  · obtain ⟨i, hd, he, hc⟩ := hecb
    have hmem : (s.coreSteps choices).mem = t.mem :=
      Memory.ext (memWf_coreSteps hwf choices) (ht.wf hwf) fun a =>
        ht.agree a fun j _ _ _ => blockWritten_of_messageWritten (hwritten i hd he hc) j
    rw [ht.same, hmem]
  · exact ht.exact fun i hd he hc => hecb ⟨i, hd, he, hc⟩

/-- Settles O43: each enabled step leaves one less of the steps that `started_first` counts, a step of lane 0 is enabled
while no other lane works, and in mid-command the lanes first finish their blocks. -/
theorem acceptedCommandCompletesWithinBound : Obligations.AcceptedCommandCompletesWithinBound := by
  intro s ha
  refine ⟨fun choices hcs hlen => ?_, ?_, fun choices hs hne => ?_⟩
  · cases choices with
    | nil =>
      obtain ⟨k, hk, -⟩ := started_first ha 0 0
      exact absurd (hk.trans hlen) (Nat.not_succ_le_zero k)
    | cons c cs =>
      obtain ⟨k, hk, hfirst⟩ := started_first ha c.1 c.2
      exact hfirst.started.idle_of_length_le ha (fun j hj => hcs (j + 1) (Nat.succ_lt_succ hj))
        (Nat.le_of_succ_le_succ (hk.trans hlen))
  · obtain ⟨k, hk, hfirst⟩ := started_first ha 0 0
    obtain ⟨b, hb⟩ : ∃ b, s.stepsAllowed = b + 1 := ⟨s.stepsAllowed - 1, by omega⟩
    rw [hb]
    exact hfirst.idle_of_le ha (by omega)
  · obtain ⟨n, h⟩ := started_coreSteps ha hne
    rw [step_run (ready_coreSteps hs choices)]
    cases hp : (s.coreSteps choices).seq.phase with
    | idle => exact ⟨[], by rw [List.append_nil]; exact runCommand_idle hp, by rw [List.append_nil]; exact hp⟩
    | run =>
      obtain ⟨rest, hrest⟩ := finishCommand_steps (s.coreSteps choices)
      rw [runCommand_under_way hp h.stage_ne_check]
      exact ⟨rest, by rw [coreSteps_append, hrest], by rw [coreSteps_append, ← hrest]; exact h.finishCommand_idle ha⟩

/-- Settles O44: after the check step each enabled step leaves one less. -/
theorem noScheduleExceedsBound : Obligations.NoScheduleExceedsBound := by
  intro s choices ha hcs
  cases choices with
  | nil => exact Nat.zero_le _
  | cons c cs =>
    obtain ⟨k, hk, hfirst⟩ := started_first ha c.1 c.2
    have hle := hfirst.started.length_le ha fun j hj => hcs (j + 1) (Nat.succ_lt_succ hj)
    exact (Nat.succ_le_succ hle).trans hk

end Sys2Proof.Machine
end

section
/-! SUPPORT. An idle core, and the interrupt output (60_exceptions.md R214, R222): obligations O8 and O21. -/

namespace Sys2Proof.Machine

/-! ## The idle core (R222) -/

theorem step_core {s : State} (hs : s.Ready) (lane pick : Nat) :
    step (s.facing (.core lane pick)) = .next (s.coreStep lane pick) := by
  rw [step_facing, perform_ready hs]; rfl

/-- Settles O8: with PHASE = IDLE the merged step has nothing to run, and with SEQ waiting no internal step is enabled. -/
theorem idleCoreKeepsState : Obligations.IdleCoreKeepsState := by
  intro s hs hp hw
  have hrun : step (s.facing .run) = .next s := (step_run hs).trans (runCommand_idle hp)
  refine ⟨hrun, fun lane pick => ?_, fun ha => (step_quiet ha).trans hrun⟩
  rw [step_core hs, coreStep_waiting hw]

/-! ## Reset steps (R230) -/

/-- Asserting reset has a meaning in every state, before the first reset too. -/
theorem step_rst_high (s : State) : step (s.facing (.rst true)) = .next s.resetTo := by
  rw [step_facing, State.perform]
  split
  · rfl
  · split <;> rfl

theorem step_rst_low {s : State} (hr : s.rst = true) :
    step (s.facing (.rst false)) = .next { s.resetTo with rst := false } := by
  rw [step_facing, perform_reset hr]; rfl

/-! ## The interrupt output (R214, R215) -/

theorem irq_iff (s : State) : irq s = true ↔ s.status.done = true ∧ s.ie = true := Bool.and_eq_true_iff

theorem getLsbD_ctrlByte_zero (s : State) : s.ctrlByte.getLsbD 0 = s.ie := getLsbD_bit0Byte s.ie 0

/-- Settles O21: `irq` is read off the two bits, reset clears both, and a write to CTRL or STATUS changes one of them. -/
theorem interruptFollowsDoneAndEnable : Obligations.InterruptFollowsDoneAndEnable := by
  intro s
  obtain ⟨-, hdone, -⟩ := statusByteLayout s.status
  refine ⟨?_, ⟨_, step_rst_high s, rfl⟩, fun hr => ⟨_, step_rst_low hr, rfl⟩, fun hs hd => ⟨?_, ?_, ?_⟩⟩
  · rw [hdone, getLsbD_ctrlByte_zero, irq_iff]
  · exact ⟨{ s with ie := true }, step_write hs 0x0003 0x01, (irq_iff _).mpr ⟨hd, rfl⟩⟩
  · exact ⟨s.clearSticky 0x02, step_write hs 0x0001 0x02, by simp [irq]⟩
  · exact ⟨{ s with ie := false }, step_write hs 0x0003 0x00, Bool.and_false _, hd⟩

end Sys2Proof.Machine
end

section
/-! SUPPORT. Errors: which check a command reports, and that nothing else comes of a failing one (60_exceptions.md R201 to
R210): obligations O25, O40 and O41. -/

namespace Sys2Proof.Machine

/-! ## A command by the outcome of its checks (R191, R210) -/

theorem exec_failed {i : Instr} {s : State} {c : ErrCode} (hc : s.check i = some c) :
    exec i s = .next (s.complete (.error c)) := by
  rw [exec_eq, hc]; rfl

theorem exec_passed {i : Instr} {s : State} (hc : s.check i = none) : exec i s = .next (s.committed i) := by
  rw [exec_eq, hc]

/-- A command whose checks pass reports no error. LOADKEY's checks are those of its operand. -/
theorem committed_noError {i : Instr} {s : State} (hc : s.check i = none) :
    (s.committed i).err = 0x00 ∧ (s.committed i).status.errf = s.status.errf := by
  cases i
  case loadkey =>
    cases hk : s.keyOperand with
    | ok k => simp [State.committed, hk]
    | error c => simp [State.check, State.checkLoadkey, hk] at hc
  all_goals exact ⟨rfl, rfl⟩

/-! ## The code of the first failing check (R201 to R208) -/

theorem code_ne_zero (c : ErrCode) : c.code ≠ 0x00 := by cases c <;> decide

/-- ERR is the code of the first failing check, 0x00 if none fails, and ERRF is set exactly with a code. -/
theorem exec_reports (i : Instr) {s : State} (hs : s.status.errf = false) :
    ∃ t, exec i s = .next t ∧ (t.status.errf = true ↔ t.err ≠ 0x00)
      ∧ t.err = (s.check i).elim 0x00 ErrCode.code := by
  cases hc : s.check i with
  | some c => exact ⟨_, exec_failed hc, iff_of_true rfl (code_ne_zero c), rfl⟩
  | none =>
    obtain ⟨herr, herrf⟩ := committed_noError hc
    exact ⟨_, exec_passed hc, by simp [herr, herrf, hs], herr⟩

theorem checkLoadkey_eq (s : State) : s.checkLoadkey =
    if s.variant then some .unsupportedVariant
    else if s.cfg.keyPolicy = .strict ∧ s.keylen ≠ 10 then some .keyFormat else none := by
  have hcount : s.keylen.toNat ≠ keyBytes ↔ s.keylen ≠ 10 := not_congr (BitVec.toNat_inj (y := 10))
  simp only [State.checkLoadkey, State.keyOperand, keyFromBytes, hcount]
  split_ifs <;> rfl

theorem checkLoadkey_code (s : State) : s.checkLoadkey.elim 0x00 ErrCode.code =
    if s.variant then 0x05 else if s.cfg.keyPolicy = .strict ∧ s.keylen ≠ 10 then 0x01 else 0x00 := by
  rw [checkLoadkey_eq]; split_ifs <;> rfl

theorem checkBlock_code (s : State) :
    s.checkBlock.elim 0x00 ErrCode.code = if s.status.keyv then 0x00 else 0x04 := by
  unfold State.checkBlock; split_ifs <;> rfl

theorem checkEcbEncrypt_code (s : State) : s.checkEcbEncrypt.elim 0x00 ErrCode.code =
    if s.status.keyv = false then 0x04 else if s.cfg.bufBytes < s.len.toNat then 0x06 else 0x00 := by
  simp only [State.checkEcbEncrypt, Bool.not_eq_true']; split_ifs <;> rfl

theorem checkEcbDecrypt_code (s : State) : s.checkEcbDecrypt.elim 0x00 ErrCode.code =
    if s.status.keyv = false then 0x04 else if s.cfg.bufBytes < s.len.toNat then 0x06
    else if s.len.toNat % 8 ≠ 0 then 0x02 else 0x00 := by
  simp only [State.checkEcbDecrypt, Bool.not_eq_true']; split_ifs <;> rfl

/-! ## The obligations -/

/-- Settles O40: a command reports its first failing check (`exec_reports`), and each of the four check functions tries
its checks in the order of R208. -/
theorem firstFailingCheckIsReported : Obligations.FirstFailingCheckIsReported := by
  intro i s hs
  obtain ⟨t, hexec, herrf, herr⟩ := exec_reports i hs
  refine ⟨t, hexec, herrf, herr.trans ?_⟩
  cases i
  case nop => rfl
  case loadkey => exact checkLoadkey_code s
  case encb | decb => exact checkBlock_code s
  case ecbe | pecbe => exact checkEcbEncrypt_code s
  case ecbd | pecbd => exact checkEcbDecrypt_code s

/-- Settles O41: a command that reports an error has failed a check, and then its completion commits nothing. -/
theorem errorsLeaveNoPartialEffect : Obligations.ErrorsLeaveNoPartialEffect := by
  intro i s
  cases hc : s.check i with
  | some c =>
    exact ⟨_, exec_failed hc, fun _ =>
      ⟨completed_complete _ s, commandFrame_complete _ s, rfl, rfl, rfl, rfl, rfl⟩⟩
  | none => exact ⟨_, exec_passed hc, fun herr => absurd (committed_noError hc).1 herr⟩

/-- Settles O25: the variant is the first check of LOADKEY and the byte count under STRICT the second. -/
theorem loadkeyRefusesBadKeys : Obligations.LoadkeyRefusesBadKeys := by
  intro s
  refine ⟨fun hv => ?_, fun hv hp hn => ?_⟩
  · have hc : s.check .loadkey = some .unsupportedVariant := (checkLoadkey_eq s).trans (if_pos hv)
    exact ⟨_, exec_failed hc, rfl, rfl, rfl, rfl⟩
  · have hc : s.check .loadkey = some .keyFormat :=
      (checkLoadkey_eq s).trans ((if_neg (by simp [hv])).trans (if_pos ⟨hp, hn⟩))
    exact ⟨_, exec_failed hc, rfl, rfl, rfl, rfl⟩

end Sys2Proof.Machine
end

section
/-! SUPPORT. Reset as a level (70_reset_and_hazards.md R230, R231): obligation O3. -/

namespace Sys2Proof.Machine

/-- A core held in reset has the values of the table of R46, which does not speak of rst, the draws or the agenda. -/
theorem atReset_resetTo (s : State) : s.resetTo.AtReset s.cfg :=
  { (resetStateHoldsTableValues s.cfg).1 with }

/-- In reset an event does nothing but set rst: to 0 if it releases reset, and to 1 otherwise. -/
theorem inReset_eq (e : Event) (s : State) : s.inReset e = { s.resetTo with rst := decide (e ≠ .rst false) } := by
  cases e with
  | rst level => cases level <;> rfl
  | write a w => rfl
  | read a => rfl
  | core lane pick => rfl
  | run => rfl

theorem atReset_inReset (e : Event) (s : State) : (s.inReset e).AtReset s.cfg := by
  rw [inReset_eq]
  exact { atReset_resetTo s with }

/-- Settles O3: asserting reset is `State.resetTo` in every state, and in reset every event is `State.resetTo` but for
rst (`inReset_eq`). -/
theorem resetOverridesEverything : Obligations.ResetOverridesEverything := by
  refine ⟨fun s => ⟨_, step_rst_high s, atReset_resetTo s, rfl, rfl, rfl⟩, fun s e hr => ?_⟩
  refine ⟨_, perform_reset hr e, atReset_inReset e s, ?_, ?_, ?_⟩
  · rw [inReset_eq]; rfl
  · rw [inReset_eq]; rfl
  · rw [inReset_eq]; simp

end Sys2Proof.Machine
end

section
/-! SUPPORT. An ECB command on the copied result of the opposite one (70_reset_and_hazards.md R241, 43_ecb.md R173, R174):
obligation O39. -/

namespace Sys2Proof.Machine

/-- `v` is ready to undo the ECB command that has left `t`: it has the key and the parameters of `t`, and the result in
OUT_BUF has been copied to IN_BUF, with LEN = OUT_LEN (R241). -/
structure State.CopiedResult (t v : State) : Prop where
  cfg : v.cfg = t.cfg
  keyv : v.status.keyv = t.status.keyv
  key : v.key = t.key
  len : v.len = t.outLen
  bytes : ∀ k, k < t.outLen.toNat → Memory.get? v.mem (inBase + k) = Memory.get? t.mem (outBase + k)

/-- A block of OUT_BUF that has been copied is the written block of the new message. -/
theorem State.CopiedResult.block {t v : State} (h : t.CopiedResult v) {j : Nat} {b : Vector Byte 8}
    (hout : t.OutBlockIs j b) (hj : 8 * j + 8 ≤ v.len.toNat) (draw : Nat) :
    v.blockWritten j = true ∧ v.messageBlock draw j = b := by
  have hbyte : ∀ (n : Nat) (hn : n < 8), Memory.get? v.mem (inBase + (8 * j + n)) = some b[n] := by
    intro n hn
    rw [h.bytes _ (by rw [← h.len]; omega), ← Nat.add_assoc]
    exact hout n hn
  refine ⟨(blockWritten_iff v j).mpr fun n hn _ => by rw [hbyte n hn]; rfl, Vector.ext fun n hn => ?_⟩
  rw [messageBlock_getElem _ _ _ hn, messageByte_written (by omega) (hbyte n hn)]

/-- The result of an ECB command is a message that either direction accepts: whole blocks within the buffers (R183). -/
theorem State.CopiedResult.fits {s t v : State} {m : Mapper} {d : Direction} (h : t.CopiedResult v)
    (hf : s.EcbFits (m.ecbInstr d)) (hmap : s.EcbMapped d t) (hlen : t.outLen = s.ecbLength (m.ecbInstr d))
    (i : Instr) : v.EcbFits i := by
  have hbuf := bufBytes_le s.cfg
  have hcount := blockCount_eq s
  have hfit := hf.1
  rw [State.EcbFits, h.len, h.cfg, hmap.frame.cfg, hlen, ecbLength_toNat hf]
  exact ⟨by omega, fun _ => by omega⟩

/-- An ECB command on the copied result of the opposite one gives back the padded message, whatever the two mappers. -/
theorem ecbInstr_roundTrip (m m' : Mapper) (d : Direction) {s t v : State} {data : List Byte} (hk : s.status.keyv = true)
    (hf : s.EcbFits (m.ecbInstr d)) (hdata : s.HoldsMessage data) (hexec : exec (m.ecbInstr d) s = .next t)
    (hcopy : t.CopiedResult v) :
    ∃ u, exec (m'.ecbInstr d.opposite) v = .next u ∧ u.outLen.toNat = (pad data).length
      ∧ ∀ k, k < (pad data).length → Memory.get? u.mem (outBase + k) = (pad data)[k]? := by
  obtain ⟨t', hexec', hmap, hlen⟩ := ecbInstr_maps m d hk hf
  obtain rfl : t' = t := Host.Outcome.next.inj (hexec'.symm.trans hexec)
  have hkv : v.status.keyv = true := by rw [hcopy.keyv, hmap.status]; exact hk
  have hfv := hcopy.fits hf hmap hlen (m'.ecbInstr d.opposite)
  obtain ⟨u, hback, hmap', hlen'⟩ := ecbInstr_maps m' d.opposite hkv hfv
  have hpad : (pad data).length = 8 * s.blockCount := by
    rw [pad_length, padLen_eq, hdata.length, blockCount_eq]
  have hvlen : v.len.toNat = 8 * s.blockCount := by rw [hcopy.len, hlen, ecbLength_toNat hf]
  have hblock : ∀ j, j < s.blockCount → u.OutBlockIs j (s.messageBlock 0 j) := by
    intro j hj
    have hout := hmap.written j 0 ((lt_blockCount_iff s j).mp hj) (hdata.blockWritten j)
    obtain ⟨hw, hmsg⟩ := hcopy.block hout (by omega) 0
    have hu := hmap'.written j 0 (by omega) hw
    rwa [hmsg, hcopy.key, hmap.key, bytesToState_stateToBytes, blockCipher_opposite, stateToBytes_bytesToState] at hu
  refine ⟨u, hback, ?_, fun k hlt => ?_⟩
  · rw [hlen', ecbLength_toNat hfv, blockCount_eq]; omega
  · have hn : k % 8 < 8 := Nat.mod_lt _ (by decide)
    have hj : k / 8 < s.blockCount := by omega
    have hbyte := hblock (k / 8) hj (k % 8) hn
    rwa [messageBlock_getElem _ _ _ hn, hdata.some_messageByte ((lt_blockCount_iff s _).mp hj) hn, Nat.add_assoc,
      Nat.div_add_mod] at hbyte

/-- Settles O39: ECBD undoes ECBE through IN_BUF, the round trip of the sequential mapper. -/
theorem ecbdRestoresPaddedMessage : Obligations.EcbdRestoresPaddedMessage :=
  fun _ _ _ _ hk hfit hlen hbytes hexec hcfg hkeyv hkey hvlen hcopy =>
    ecbInstr_roundTrip .sequential .sequential .enc hk (ecbFits_enc .sequential hfit) ⟨hlen, hbytes⟩ hexec
      ⟨hcfg, hkeyv, hkey, hvlen, hcopy⟩

end Sys2Proof.Machine
end

section
/-! SUPPORT. A core to which no command is given, and a host that waits for it (70_reset_and_hazards.md R245, 30_encoding.md
R110): obligation O50. -/

namespace Sys2Proof.Machine

/-! ## The core without a command -/

/-- A state of the invariant that takes events, runs no command, and has DONE = 0. -/
structure State.Quiet (s : State) : Prop where
  inv : s.Inv
  ready : s.Ready
  busy : s.status.busy = false
  done : s.status.done = false

/-- Only a CMD write can end the quiet, whatever the event: a completion needs BUSY = 1, and what is left clears flags. -/
theorem State.Quiet.flags_after {s t : State} (h : s.Quiet) {e : Event} (he : ∀ w, e ≠ .write 0x0000 w)
    (hstep : step (s.facing e) = .next t) : t.status.done = false ∧ t.status.busy = false := by
  obtain ⟨hinv, hready, hb, hd⟩ := h
  by_cases hrst : e = .rst true
  · subst hrst
    rw [step_rst_high] at hstep
    cases hstep
    exact ⟨rfl, rfl⟩
  · cases step_effect hinv hready hrst hstep with
    | kept hst _ => rw [hst]; exact ⟨hd, hb⟩
    | accepted w hw _ _ _ => exact absurd hw (he w)
    | cleared w _ hst _ => rw [hst]; exact ⟨by simp [Status.clearedBy, hd], hb⟩
    | dropped a w _ hbusy _ _ => rw [hb] at hbusy; cases hbusy
    | committed r _ hc => rw [hc.busy] at hb; cases hb

theorem State.Quiet.perform_run {s : State} (h : s.Quiet) : s.perform .run = .next s :=
  (step_run h.ready).trans (runCommand_idle (h.inv.phase_idle h.busy))

theorem State.Quiet.perform_core {s : State} (h : s.Quiet) (lane pick : Nat) : s.perform (.core lane pick) = .next s := by
  have hwait := h.inv.stage_waiting (h.inv.phase_idle h.busy)
  exact (step_core h.ready lane pick).trans (congrArg _ (coreStep_waiting hwait lane pick))

theorem State.Quiet.busRead {s : State} (h : s.Quiet) (a : Addr) : (s.busRead a).Quiet where
  inv := h.inv.outside s.ie s.rst (s.readValue a) s.resetSeen (s.draws + 1) s.agenda
  ready := ⟨h.ready.rstLow, h.ready.resetSeen⟩
  busy := h.busy
  done := h.done

/-- Bit 1 of what a read of STATUS leaves on the bus is DONE (R25). -/
theorem testBit_busRead_status (s : State) : (s.busRead 0x0001).rdata.toNat.testBit 1 = s.status.done := by
  obtain ⟨-, hdone, -⟩ := statusByteLayout s.status
  exact hdone

/-! ## The host in a WAIT (R110) -/

/-- The host is at one of the three statements of the WAIT whose label is `.wait n`, at the place `base`. At the IF it has
read STATUS with DONE = 0. -/
structure HostRun.InWait (base n : Nat) (h : HostRun) : Prop where
  label : h.prog[base]? = some (.label (.wait n))
  poll : h.prog[base + 1]? = some (.rd (.reg .status) ⟨"s", none⟩)
  branch : h.prog[base + 2]? = some (.ifGoto ⟨"s", none⟩ 1 false (.wait n))
  place : h.place (.wait n) = some base
  at_pc : h.pc = base ∨ h.pc = base + 1
    ∨ (h.pc = base + 2 ∧ ∃ x, h.lookup ⟨"s", none⟩ = some x ∧ x.testBit 1 = false)

/-- A host at the start of a WAIT whose label is not defined before it. -/
theorem inWait_of_start {h : HostRun} {before after : List Prim} {n : Nat}
    (hprog : h.prog = before ++ Stmt.expand n .wait ++ after) (hlabel : Prim.label (.wait n) ∉ before)
    (hpc : h.pc = before.length) : h.InWait before.length n where
  label := by simp [hprog, Stmt.expand]
  poll := by simp [hprog, Stmt.expand]
  branch := by simp [hprog, Stmt.expand]
  place := by
    have hbefore : before.findIdx? (fun p => p = .label (.wait n)) = none := by
      rw [List.findIdx?_eq_none_iff]
      intro p hp
      exact decide_eq_false fun heq => hlabel (heq ▸ hp)
    rw [HostRun.place, hprog, List.append_assoc, List.findIdx?_append, hbefore]
    simp [Stmt.expand, List.findIdx?_cons]
  at_pc := .inl hpc

/-- A host's turn at a label moves only the host (R111). -/
theorem systemTurn_label {h : HostRun} {s : State} {l : Label} (hp : h.prog[h.pc]? = some (.label l)) :
    systemTurn .host h s = .next ({ h with pc := h.pc + 1 }, s) := by
  simp [systemTurn, Turn.act, Turn.hostAfter, HostRun.txn, HostRun.after, State.performAll, hp]

/-- A host's turn at an RD statement reads the location into the variable (R109). -/
theorem systemTurn_rd {h : HostRun} {s : State} {l : Loc} {v : HostVar} (hs : s.Ready)
    (hp : h.prog[h.pc]? = some (.rd l v)) :
    systemTurn .host h s = .next ({ h with
      pc := h.pc + 1, vars := (v, (s.busRead (Loc.addr l)).rdata.toNat) :: h.vars }, s.busRead (Loc.addr l)) := by
  have hread : s.perform (.read (Loc.addr l)) = .next (s.busRead (Loc.addr l)) := perform_ready hs _
  simp [systemTurn, Turn.act, Turn.hostAfter, HostRun.txn, HostRun.after, Act.events, Txn.events, State.performAll, hp,
    hread]

/-- A host's turn at an IF whose condition holds takes it to the label (R109). -/
theorem systemTurn_goto {h : HostRun} {s : State} {v : HostVar} {bit x base : Nat} {value : Bool} {l : Label}
    (hp : h.prog[h.pc]? = some (.ifGoto v bit value l)) (hx : h.lookup v = some x) (hbit : x.testBit bit = value)
    (hplace : h.place l = some base) : systemTurn .host h s = .next ({ h with pc := base }, s) := by
  simp [systemTurn, Turn.act, Turn.hostAfter, HostRun.txn, HostRun.after, State.performAll, hp, hx, hbit, hplace]

/-- A turn of its own keeps the host in the WAIT and the core quiet: from the label to the read, which finds DONE = 0, to
the IF, which goes back to the label. -/
theorem HostRun.InWait.hostTurn {base n : Nat} {h : HostRun} {s : State} (hw : h.InWait base n) (hq : s.Quiet) :
    ∃ h' s', systemTurn .host h s = .next (h', s') ∧ h'.InWait base n ∧ s'.Quiet := by
  obtain hpc | hpc | ⟨hpc, x, hx, hbit⟩ := hw.at_pc
  · exact ⟨_, s, systemTurn_label (hpc ▸ hw.label), { hw with at_pc := .inr (.inl (by rw [hpc])) }, hq⟩
  · have hread : (s.busRead 0x0001).rdata.toNat.testBit 1 = false := (testBit_busRead_status s).trans hq.done
    refine ⟨_, _, systemTurn_rd hq.ready (hpc ▸ hw.poll), { hw with at_pc := .inr (.inr ⟨?_, _, ?_, hread⟩) }, hq.busRead _⟩
    · rw [hpc]
    · simp [HostRun.lookup, Loc.addr, RegName.addr]
  · exact ⟨_, s, systemTurn_goto (hpc ▸ hw.branch) hx hbit hw.place, { hw with at_pc := .inl rfl }, hq⟩

/-- A turn of the core finds nothing to do. -/
theorem State.Quiet.coreTurn {s : State} (hq : s.Quiet) {t : Turn} (ht : t ≠ .host) (h : HostRun) :
    systemTurn t h s = .next (h, s) := by
  cases t with
  | host => exact absurd rfl ht
  | core lane pick =>
    simp [systemTurn, Turn.act, Turn.hostAfter, Act.events, performAll_singleton (hq.perform_core lane pick)]
  | run => simp [systemTurn, Turn.act, Turn.hostAfter, Act.events, performAll_singleton hq.perform_run]

theorem HostRun.InWait.turns {base n : Nat} (turns : List Turn) {h : HostRun} {s : State} (hw : h.InWait base n)
    (hq : s.Quiet) : ∃ h' s', systemTurns turns h s = .next (h', s') ∧ h'.InWait base n ∧ s'.Quiet := by
  induction turns generalizing h s with
  | nil => exact ⟨h, s, rfl, hw, hq⟩
  | cons t ts ih =>
    rw [systemTurns]
    by_cases ht : t = .host
    · subst ht
      obtain ⟨h', s', hturn, hw', hq'⟩ := hw.hostTurn hq
      rw [hturn]
      exact ih hw' hq'
    · rw [hq.coreTurn ht h]
      exact ih hw hq

/-- Settles O50: what no CMD write reaches stays quiet, and a host in a WAIT on a quiet core stays in it (`InWait.turns`). -/
theorem doneStaysClearWithoutCommand : Obligations.DoneStaysClearWithoutCommand := by
  refine ⟨fun s t e hi hr hb hd he hstep => State.Quiet.flags_after ⟨hi, hr, hb, hd⟩ he hstep, ?_⟩
  intro s h before after n turns hi hr hb hd hprog hlabel hpc
  obtain ⟨h', s', hturns, hw, hq⟩ := (inWait_of_start hprog hlabel hpc).turns turns ⟨hi, hr, hb, hd⟩
  have hbounds := hw.at_pc
  exact ⟨h', s', hturns, by omega, by omega, hq.done⟩

end Sys2Proof.Machine
end

section
/-! SUPPORT. The known answers K1 and K4 (95_test_vectors.md 1.1, 42_block_cipher.md R160): obligation O58. -/

namespace Sys2Proof.Machine

/-- Encryption whitens the block after the rounds with the register after the rounds. -/
theorem encrypt_of_encryptRounds {x y : Block} {k kr : Key} (h : encryptRounds x k fullRounds = (y, kr)) :
    encrypt x k = whiten y (roundKey kr) := by
  rw [encrypt, h]

/-- The last line of the encryption trace of 95_test_vectors.md 2.4, with the register whose top is `RK_31`. -/
theorem encryptRounds_zero_zero :
    encryptRounds 0 0 fullRounds = (0x38D2F04C34635345, 0x6DAB31744F41D7008759) := by
  decide +kernel

theorem encryptRounds_allOnes_allOnes :
    encryptRounds 0xFFFFFFFFFFFFFFFF 0xFFFFFFFFFFFFFFFFFFFF fullRounds
      = (0xCD49885C973CA1B5, 0xFE7A548FB60EB167C511) := by
  decide +kernel

/-- Settles O58: the 31 rounds of each vector are run, and the whitening with round key 31 gives its answer. -/
theorem knownAnswersHold : Obligations.KnownAnswersHold :=
  ⟨(encrypt_of_encryptRounds encryptRounds_zero_zero).trans (by decide),
    (encrypt_of_encryptRounds encryptRounds_allOnes_allOnes).trans (by decide)⟩

end Sys2Proof.Machine
end
